-- ==== Sys2Proof/Word.lean ====
section
/-! DEFINITION. The word types of the block (00_scope.md R8: every register and command word is 32 bits). -/
namespace Sys2Proof

/-- A register or a command word: 32 bits, bit 0 least significant (R8). -/
abbrev Word := BitVec 32

/-- One entry of LOG, ALOG, G or R, and one field element (R22). -/
abbrev Byte := BitVec 8

end Sys2Proof
end

