-- ==== Sys2Proof/Syntax.lean ====
section
/-! DEFINITION. The command set: one constructor per row of spec/opcode_table.json (30_encoding.md R101). Operands
are the fields of the row's format, at the width the format gives them, so every term is a legal encoding (R100). -/
namespace Sys2Proof

inductive Instr where
  /-- NOP, format N (R92, R210). -/
  | nop
  /-- GF_INIT, format P: POLY = [15:0] (R94, R151). -/
  | gfInit (poly : BitVec 16)
  /-- GF_MUL, format AB: A = [15:8], B = [7:0] (R93, R157). -/
  | gfMul (a b : BitVec 8)
  /-- GF_ADD, format AB: A = [15:8], B = [7:0] (R93, R158). -/
  | gfAdd (a b : BitVec 8)
  /-- RS_INIT, format RI: NSYM = [7:0], INDEX = [15:8] (R95, R181). -/
  | rsInit (nsym index : BitVec 8)
  /-- RS_CLEAR, format N (R92, R184). -/
  | rsClear
  /-- RS_FEED, format D: D = [7:0] (R96, R185). -/
  | rsFeed (d : BitVec 8)
  /-- RS_FEEDCW, format RG: START = [23:12], COUNT = [11:0] (R97, R187). -/
  | rsFeedcw (start count : BitVec 12)
  /-- PK_INIT, format PI: W = [23:20], CAP = [11:0] (R98, R123). -/
  | pkInit (w : BitVec 4) (cap : BitVec 12)
  /-- PK_APPEND, format PA: NM1 = [19:16], VAL = [15:0] (R99, R124). -/
  | pkAppend (nm1 : BitVec 4) (val : BitVec 16)
  /-- PK_FINISH, format N (R92, R125). -/
  | pkFinish
  deriving DecidableEq, Repr

end Sys2Proof
end

