-- ==== Sys2Proof/Decode.lean ====
section
/-! DEFINITION. The decoder, total on 32-bit words and rejecting by name, and the encoder written from the same
formats (30_encoding.md R90 to R105). Decoding reads the word alone (R105); no byte order can be seen (R70). -/
namespace Sys2Proof

/-- Why a word is no command. Both raise ILLEGAL_CMD when the word executes. -/
inductive Reject where
  /-- OPC is not in the opcode map (R102). -/
  | unassignedOpcode
  /-- OPC is assigned, and a bit that its format reserves is set (R103). -/
  | reservedBits
  deriving DecidableEq, Repr

/-- A row of the opcode map: the mnemonic's match and mask (R101). -/
structure Row where
  code : Word
  mask : Word
  deriving DecidableEq, Repr

/-- R101: a word w is the command of a row exactly when `(w & mask) = match`. -/
def rowMatches (row : Row) (w : Word) : Bool := w &&& row.mask == row.code

/-- The row of each command, with the match and mask of R101. -/
def rowOf : Instr → Row
  | .nop => ⟨0x00000000, 0xFFFFFFFF⟩
  | .gfInit _ => ⟨0x01000000, 0xFFFF0000⟩
  | .gfMul _ _ => ⟨0x02000000, 0xFFFF0000⟩
  | .gfAdd _ _ => ⟨0x03000000, 0xFFFF0000⟩
  | .rsInit _ _ => ⟨0x10000000, 0xFFFF0000⟩
  | .rsClear => ⟨0x11000000, 0xFFFFFFFF⟩
  | .rsFeed _ => ⟨0x12000000, 0xFFFFFF00⟩
  | .rsFeedcw _ _ => ⟨0x13000000, 0xFF000000⟩
  | .pkInit _ _ => ⟨0x20000000, 0xFF0FF000⟩
  | .pkAppend _ _ => ⟨0x21000000, 0xFFF00000⟩
  | .pkFinish => ⟨0x22000000, 0xFFFFFFFF⟩

/-- The opcode field OPC, bits [31:24] (R91). -/
def opcField (w : Word) : BitVec 8 := w.extractLsb' 24 8

/-- The command whose OPC is the word's, with its operand fields read where its format puts them (R92 to R99), before
any look at the reserved bits; none when the OPC is unassigned (R102). -/
def readFields (w : Word) : Option Instr :=
  match (opcField w).toNat with
  | 0x00 => some .nop
  | 0x01 => some (.gfInit (w.extractLsb' 0 16))
  | 0x02 => some (.gfMul (w.extractLsb' 8 8) (w.extractLsb' 0 8))
  | 0x03 => some (.gfAdd (w.extractLsb' 8 8) (w.extractLsb' 0 8))
  | 0x10 => some (.rsInit (w.extractLsb' 0 8) (w.extractLsb' 8 8))
  | 0x11 => some .rsClear
  | 0x12 => some (.rsFeed (w.extractLsb' 0 8))
  | 0x13 => some (.rsFeedcw (w.extractLsb' 12 12) (w.extractLsb' 0 12))
  | 0x20 => some (.pkInit (w.extractLsb' 20 4) (w.extractLsb' 0 12))
  | 0x21 => some (.pkAppend (w.extractLsb' 16 4) (w.extractLsb' 0 16))
  | 0x22 => some .pkFinish
  | _ => none

/-- The command a word stands for, or the name of what makes it illegal (R101 to R105). -/
def decode (w : Word) : Except Reject Instr :=
  match readFields w with
  | none => .error .unassignedOpcode
  | some i => if rowMatches (rowOf i) w then .ok i else .error .reservedBits

/-- The command in the numbering of spec/opcode_table.json: one 32-bit word, bit 0 least significant (R8, R90).
`nbits` is 32 for every row; a number that does not fit one word is no command. -/
def decodeTableWord (nbits w : Nat) : Option Instr :=
  if nbits ≤ 32 ∧ w < 2 ^ 32 then (decode (BitVec.ofNat 32 w)).toOption else none

/-- The word of a command: OPC in [31:24], the fields where the format puts them, reserved bits 0 (R92 to R99). -/
def encode : Instr → Word
  | .nop => 0x00#8 ++ 0#24
  | .gfInit poly => 0x01#8 ++ 0#8 ++ poly
  | .gfMul a b => 0x02#8 ++ 0#8 ++ a ++ b
  | .gfAdd a b => 0x03#8 ++ 0#8 ++ a ++ b
  | .rsInit nsym index => 0x10#8 ++ 0#8 ++ index ++ nsym
  | .rsClear => 0x11#8 ++ 0#24
  | .rsFeed d => 0x12#8 ++ 0#16 ++ d
  | .rsFeedcw start count => 0x13#8 ++ start ++ count
  | .pkInit w cap => 0x20#8 ++ w ++ 0#8 ++ cap
  | .pkAppend nm1 val => 0x21#8 ++ 0#4 ++ nm1 ++ val
  | .pkFinish => 0x22#8 ++ 0#24

end Sys2Proof
end

