-- ==== Sys2Proof/Config.lean ====
section
/-! DEFINITION. The implementation parameters of 00_scope.md R6, which are constants of the block, and the one
free value of the model (93_implementation_defined.md U4). -/
namespace Sys2Proof.Config

/-- MMAX: the largest GF degree (R6). -/
abbrev mMax : Nat := 8
/-- WMAX: the largest codeword width (R6). -/
abbrev wMax : Nat := 8
/-- NSYM_MAX: the largest number of ECC symbols (R6). -/
abbrev nsymMax : Nat := 255
/-- CAP_MAX: the largest packer capacity in codewords (R6). -/
abbrev capMax : Nat := 4095
/-- BB_BITS = CAP_MAX * WMAX: the size of the bit buffer (R6, R121). -/
abbrev bbBits : Nat := 32760
/-- AMAX: the most bits one PK_APPEND adds (R6). -/
abbrev aMax : Nat := 16
/-- TLEN_MAX: the longest terminator (R6). -/
abbrev tlenMax : Nat := 16
/-- FLEN_MAX: the longest fill pattern (R6). -/
abbrev flenMax : Nat := 16
/-- TABLE_N = 2^MMAX: entries in each of LOG, ALOG, G, R, ECC (R6). -/
abbrev tableN : Nat := 256

/-- FREE VALUE (log entry 3), the parameter LAT as far as an access can see it: `latency seed n` is the number of
reads of ID, PARAM and STATUS that the port of the block with that seed serves while its n-th command is in flight, if
the host makes that many, before the command completes. 70_reset_and_hazards.md R265 has it a draw whether such a read
comes before or after the completion, and R267 has it finite. DESIGN CHOICE: the draws of one command are one number,
which depends on the block's seed and on the command's number and on nothing else. Two blocks, or two runs, of different
seeds draw from sequences that nothing relates. -/
opaque latency (seed n : Nat) : Nat

end Sys2Proof.Config
end

