-- ==== Sys2Proof/Machine/State.lean ====
section
/-! DEFINITION. The state of the block (10_state.md R22, one field for each row), and around it the host's side of
the register port: what the host has asked for and not yet received, and what it has received. Plain data. -/
namespace Sys2Proof.Machine

/-- An array of 256 entries of 8 bits: LOG, ALOG, G, R (R22). -/
abbrev Table := Vector Byte 256

/-- The bit buffer BB: bit i of the vector is BB[i], BB[0] first (R45). -/
abbrev BitBuffer := BitVec 32760

/-- The packer's state (R46). -/
inductive PkState where
  | idle
  | open
  | done
  deriving DecidableEq, Repr

/-- The causes of a fault, by the names of 60_exceptions.md R232. -/
inductive FaultCode where
  | illegalCmd
  | badPoly
  | notPrimitive
  | gfNotReady
  | operandRange
  | badNsym
  | rsNotReady
  | badPkCfg
  | pkOverflow
  | pkSequence
  | cwRange
  deriving DecidableEq, Repr

/-- The size input of the port: 0 = byte, 1 = halfword, 2 = word, 3 = reserved (20_memory.md R61). -/
inductive AccessSize where
  | byte
  | halfword
  | word
  | reserved
  deriving DecidableEq, Repr

/-- One access of a host at the register port (R61). -/
structure Access where
  write : Bool
  addr : BitVec 15
  size : AccessSize
  wdata : Word
  deriving DecidableEq, Repr

/-- What a completed access returns (R61): read data with err = 0, the end of a write with err = 0, or an error
response, whose rdata is 0 (R62, R63, R81). -/
inductive Response where
  | data (rdata : Word)
  | written
  | error
  deriving DecidableEq, Repr

/-- What the outside world does to the block, in the order it reaches the port (R71, R72) or the reset pin (R260). -/
inductive HostEvent where
  | access (a : Access)
  /-- rst_n goes to 0. -/
  | assertReset
  /-- rst_n goes back to 1. -/
  | releaseReset
  deriving DecidableEq, Repr

structure State where
  /-- CTRL.IRQ_EN -/
  irqEn : Bool
  /-- STATUS.FAULT, the sticky fault flag -/
  fault : Bool
  /-- STATUS.FAULT_CODE -/
  faultCode : BitVec 8
  /-- FAULT_CMD, the command word that faulted -/
  faultCmd : Word
  /-- the command in flight (R48) -/
  pending : Option Word
  /-- RESULT -/
  result : Byte
  /-- STATUS.GF_VALID -/
  gfValid : Bool
  /-- GF_POLY -/
  gfPoly : BitVec 16
  /-- GF_M -/
  gfM : BitVec 4
  /-- LOG (R41) -/
  log : Table
  /-- ALOG (R42) -/
  alog : Table
  /-- STATUS.RS_VALID -/
  rsValid : Bool
  /-- RS_NSYM -/
  rsNsym : BitVec 8
  /-- RS_INDEX -/
  rsIndex : BitVec 8
  /-- RS_COUNT -/
  rsCount : BitVec 32
  /-- G, the generator's coefficients (R43) -/
  g : Table
  /-- R, the remainder register (R44) -/
  r : Table
  /-- STATUS.PK_STATE -/
  pkState : PkState
  /-- PK_W -/
  pkW : BitVec 4
  /-- PK_CAP -/
  pkCap : BitVec 12
  /-- PK_LEN -/
  pkLen : BitVec 16
  /-- BB (R45) -/
  bb : BitBuffer
  /-- PK_TERM.TVAL -/
  tval : BitVec 16
  /-- PK_TERM.TLEN -/
  tlen : BitVec 5
  /-- PK_TERM.TMODE -/
  tmode : Bool
  /-- PK_FILL.FVAL -/
  fval : BitVec 16
  /-- PK_FILL.FLEN -/
  flen : BitVec 5
  /-- the level of the reset input rst_n; the model's own field (R61, R260, log entry 2) -/
  rstN : Bool
  /-- what the host has asked for and the port has not served yet, oldest first; the model's own field (log entry 5) -/
  inbox : List HostEvent
  /-- what the host has received, oldest first; the model's own field (log entry 5) -/
  responses : List Response
  /-- the number of commands issued, the index of the free value of the command in flight; the model's own field
  (log entry 3) -/
  draws : Nat
  /-- the number of reads served while the command in flight has been in flight; the model's own field (log entry 3) -/
  overtaken : Nat
  /-- which sequence of free values this block draws from; the model's own field (log entry 3). Nothing writes it. -/
  seed : Nat
  deriving DecidableEq, Repr

/-- The machine never stops with a fault: a failed check of a command is a NEXT state with the fault record written
(60_exceptions.md R231), and a bus error response changes no state (20_memory.md R81). So there is no constructor
(log entry 9). -/
inductive Fault
  deriving DecidableEq, Repr

inductive Refusal where
  /-- Raised by exec's arm of a command that has no meaning yet; safe. No arm does. -/
  | notModelled (mnemonic : String)
  /-- Raised by the port when the host presents an access while rst_n = 0: the block answers no access then (70 R260),
  and what the bus returns is the platform's (93 U8: "refuse"); safe (log entry 6). -/
  | accessDuringReset
  deriving DecidableEq, Repr

/-- The machine right after reset (70_reset_and_hazards.md R261). LOG, ALOG, G, R and BB are unspecified there and
zero here (log entry 1). Nothing waits at the port (log entry 2). -/
def State.reset : State where
  irqEn := false
  fault := false
  faultCode := 0
  faultCmd := 0
  pending := none
  result := 0
  gfValid := false
  gfPoly := 0
  gfM := 0
  log := Vector.replicate 256 0
  alog := Vector.replicate 256 0
  rsValid := false
  rsNsym := 0
  rsIndex := 0
  rsCount := 0
  g := Vector.replicate 256 0
  r := Vector.replicate 256 0
  pkState := .idle
  pkW := 0
  pkCap := 0
  pkLen := 0
  bb := 0
  tval := 0
  tlen := 0
  tmode := false
  fval := 0
  flen := 1
  rstN := true
  inbox := []
  responses := []
  draws := 0
  overtaken := 0
  seed := 0

end Sys2Proof.Machine
end

