-- ==== Sys2Proof/Machine/Ops.lean ====
section
/-! DEFINITION. The operations every command is made of: reading and writing a table entry or a run of buffer bits,
recording a fault (60_exceptions.md R231), clearing it (43_control.md R212), reset (70_reset_and_hazards.md R261), and
the frame around every command: discard, checks, effect, completion (60_exceptions.md R233 to R235, 10_state.md R48). -/
namespace Sys2Proof.Machine

/-! ### Tables and the bit buffer -/

/-- Entry k of a table. -/
def Table.get (t : Table) (k : Nat) : Byte := if h : k < 256 then t[k] else 0

/-- `NAME[k] <- v` (R10). -/
def Table.put (t : Table) (k : Nat) (v : Byte) : Table := if h : k < 256 then t.set k v else t

/-- A table of 256 zeros. -/
def Table.zero : Table := Vector.replicate 256 0

/-- `BB[i] <- b` (R10). -/
def setBit (bb : BitBuffer) (i : Nat) (b : Bool) : BitBuffer :=
  if b then bb ||| (1#32760 <<< i) else bb &&& ~~~(1#32760 <<< i)

/-- `for t in 0 .. n-1: BB[base + t] <- bit t`. -/
def writeBits (bit : Nat → Bool) (base : Nat) : Nat → BitBuffer → BitBuffer
  | 0, bb => bb
  | n + 1, bb => setBit (writeBits bit base n bb) (base + n) (bit n)

/-! ### The fault record -/

/-- The number of each fault code (60_exceptions.md R232). -/
def FaultCode.number : FaultCode → BitVec 8
  | .illegalCmd => 0x01
  | .badPoly => 0x02
  | .notPrimitive => 0x03
  | .gfNotReady => 0x04
  | .operandRange => 0x05
  | .badNsym => 0x06
  | .rsNotReady => 0x07
  | .badPkCfg => 0x08
  | .pkOverflow => 0x09
  | .pkSequence => 0x0A
  | .cwRange => 0x0B

/-- `raise Fault(code)` during the command with word w (60_exceptions.md R231): the three writes of the record. -/
def raiseFault (c : FaultCode) (w : Word) (s : State) : State :=
  { s with fault := true, faultCode := c.number, faultCmd := w }

/-- The return from a fault: CLR_FAULT clears the record and nothing else (43_control.md R212, 60 R239). -/
def clearFault (s : State) : State :=
  { s with fault := false, faultCode := 0, faultCmd := 0 }

/-- Reset() (70_reset_and_hazards.md R261): every piece of the block's state; the port and the pin are the host's. -/
def resetBlock (s : State) : State :=
  { State.reset with
    rstN := s.rstN
    inbox := s.inbox
    responses := s.responses
    draws := s.draws
    overtaken := s.overtaken
    seed := s.seed }

/-! ### A command -/

/-- Completion: pending becomes empty, so BUSY becomes 0 (10_state.md R48). -/
def complete (s : State) : State := { s with pending := none }

/-- What a command that is not discarded does: the fault of its first failing check, all checks made on the state
before any write, or its whole effect (60_exceptions.md R234, R235). -/
def attempt (w : Word) (check : State → Option FaultCode) (effect : State → State) (s : State) : State :=
  match check s with
  | some c => raiseFault c w s
  | none => effect s

/-- The command with word w: discarded while FAULT = 1 (60_exceptions.md R233), else attempted; then it completes. -/
def command (w : Word) (check : State → Option FaultCode) (effect : State → State) (s : State) :
    Host.Outcome State Fault Refusal :=
  .next (complete (if s.fault then s else attempt w check effect s))

/-- A word that is no command: discarded while FAULT = 1, else ILLEGAL_CMD (30_encoding.md R102, R103). -/
def illegalCommand (w : Word) (s : State) : Host.Outcome State Fault Refusal :=
  command w (fun _ => some .illegalCmd) id s

end Sys2Proof.Machine
end

