-- ==== Sys2Proof/Machine/Control.lean ====
section
/-! DEFINITION. NOP and the actions of a CTRL write: IRQ_EN, CLR_FAULT, SOFT_RESET (43_control.md). -/
namespace Sys2Proof.Machine

/-- NOP (R210): no check and no effect; it completes like every command. -/
def execNop (s : State) : Host.Outcome State Fault Refusal :=
  command (encode .nop) (fun _ => none) id s

/-- CtrlWrite(v) (R211): bit 9 resets the block and overrides the others (R213); else IRQ_EN takes bit 0 (R214), and
bit 8 clears the fault record (R212). -/
def ctrlWrite (v : Word) (s : State) : State :=
  if v.getLsbD 9 then resetBlock s
  else
    let s := { s with irqEn := v.getLsbD 0 }
    if v.getLsbD 8 then clearFault s else s

end Sys2Proof.Machine
end

