-- ==== Sys2Proof/Machine/Flags.lean ====
section
/-! DEFINITION. The status flags and what is computed from them: BUSY, the STATUS word (10_state.md R27) and the
interrupt output (60_exceptions.md R237). -/
namespace Sys2Proof.Machine

/-- STATUS.BUSY = 1 exactly when pending is a word (10_state.md R22, R48). -/
def busy (s : State) : Bool := s.pending.isSome

/-- PK_STATE: 0 = IDLE, 1 = OPEN, 2 = DONE (10_state.md R27). -/
def PkState.number : PkState → BitVec 2
  | .idle => 0
  | .open => 1
  | .done => 2

/-- A flag as one bit. -/
def flag (b : Bool) : BitVec 1 := BitVec.ofBool b

/-- `{16'b0, fault_code, 2'b0, pk_state, rs_valid, gf_valid, fault, busy}` (10_state.md R27). -/
def statusWord (s : State) : Word :=
  0#16 ++ s.faultCode ++ 0#2 ++ s.pkState.number ++ flag s.rsValid ++ flag s.gfValid ++ flag s.fault ++ flag (busy s)

/-- The interrupt output, a level: `irq = irq_en and fault` (60_exceptions.md R237). -/
def irq (s : State) : Bool := s.irqEn && s.fault

end Sys2Proof.Machine
end

