-- ==== Sys2Proof/Machine/Operands.lean ====
section
/-! DEFINITION. Operand assembly (30_encoding.md R100): every field is an unsigned number, and the quantities the
commands compute from a field and the state. -/
namespace Sys2Proof.Machine

/-- LOGMOD = 2^m - 1, the order of the field's multiplicative group (00_scope.md R11, 41_gf.md R150). -/
def logMod (m : Nat) : Nat := 2 ^ m - 1

/-- A value at or above 2^GF_M is no element of the current field (41_gf.md R157, 42_rs.md R188). -/
def outsideField (s : State) (v : Nat) : Bool := 2 ^ s.gfM.toNat ≤ v

/-- INDEX mod LOGMOD (42_rs.md R181). -/
def reducedIndex (s : State) (index : BitVec 8) : Nat := index.toNat % logMod s.gfM.toNat

/-- n = NM1 + 1, the number of bits PK_APPEND adds (30_encoding.md R99, R100). -/
def appendLength (nm1 : BitVec 4) : Nat := nm1.toNat + 1

/-- Bit t of an n-bit pattern held right-aligned in a 16-bit field, counted from its most significant bit: VAL[n-1-t],
tval[tlen-1-t], fval[flen-1-t] (40_packer.md R122, R124, R125). -/
def patternBit (v : BitVec 16) (n t : Nat) : Bool := v.getLsbD (n - 1 - t)

/-- TOTAL = pk_cap * pk_w, the capacity in bits (40_packer.md R121). -/
def totalBits (s : State) : Nat := s.pkCap.toNat * s.pkW.toNat

/-- START + COUNT as an exact sum, up to 8190 (42_rs.md R187). -/
def rangeEnd (start count : BitVec 12) : Nat := start.toNat + count.toNat

end Sys2Proof.Machine
end

