-- ==== Sys2Proof/Machine/Gf.lean ====
section
/-! DEFINITION. The GF unit: the field's tables and arithmetic, and GF_INIT, GF_MUL, GF_ADD (41_gf.md). -/
namespace Sys2Proof.Machine

/-! ### Building the field (R151 to R154) -/

/-- floor(log2(v)), the position of the highest set bit, looked for from bit k down (R151, R152). -/
def topBit (v : BitVec 16) : Nat → Nat
  | 0 => 0
  | k + 1 => if v.getLsbD (k + 1) then k + 1 else topBit v k

/-- The degree m of POLY (R152). -/
def degree (poly : BitVec 16) : Nat := topBit poly 15

/-- `p <- p << 1; if p[m] = 1: p <- p xor P`: multiplication by x modulo P (R153). -/
def timesX (poly : BitVec 16) (m : Nat) (p : BitVec 16) : BitVec 16 :=
  let q := p <<< 1
  if q.getLsbD m then q ^^^ poly else q

/-- The next n values of the power sequence, from p on (R153). -/
def powersFrom (poly : BitVec 16) (m : Nat) : Nat → BitVec 16 → List (BitVec 16)
  | 0, _ => []
  | n + 1, p => p :: powersFrom poly m n (timesX poly m p)

/-- a[0 .. LOGMOD-1] of Sequence(P, m) (R153). -/
def powerSequence (poly : BitVec 16) : List (BitVec 16) :=
  powersFrom poly (degree poly) (logMod (degree poly)) 1

/-- The values are pairwise distinct. -/
def distinct : List (BitVec 16) → Bool
  | [] => true
  | x :: xs => !xs.contains x && distinct xs

/-- `ok` of Sequence(P, m): pairwise distinct and no value 0, which is when P is accepted (R153, R154). -/
def isPrimitive (poly : BitVec 16) : Bool :=
  distinct (powerSequence poly) && !(powerSequence poly).contains 0

/-- The degree is 2..8, so POLY is 4..511 (R151, R152). -/
def legalPoly (poly : BitVec 16) : Bool := 4 ≤ poly.toNat && poly.toNat ≤ 511

/-- `ALOG[v] <- a[v]` for v, v+1, ... along the sequence (R151). -/
def fillAlog : Nat → List (BitVec 16) → Table → Table
  | _, [], t => t
  | v, x :: xs, t => fillAlog (v + 1) xs (t.put v (x.setWidth 8))

/-- `LOG[a[v]] <- v` for v, v+1, ... along the sequence (R151). -/
def fillLog : Nat → List (BitVec 16) → Table → Table
  | _, [], t => t
  | v, x :: xs, t => fillLog (v + 1) xs (t.put x.toNat (BitVec.ofNat 8 v))

/-- ALOG as GF_INIT leaves it: all zeros, then the sequence (R151). -/
def alogTable (poly : BitVec 16) : Table := fillAlog 0 (powerSequence poly) Table.zero

/-- LOG as GF_INIT leaves it: all zeros, then the inverse of the sequence (R151). -/
def logTable (poly : BitVec 16) : Table := fillLog 0 (powerSequence poly) Table.zero

/-! ### Field operations (R155, R156) -/

/-- The field as the tables hold it: its degree and the two tables. -/
structure GaloisField where
  m : Nat
  log : Table
  alog : Table
  deriving DecidableEq, Repr

/-- The field the block holds. -/
def currentField (s : State) : GaloisField := ⟨s.gfM.toNat, s.log, s.alog⟩

/-- The field GF_INIT builds from a polynomial. -/
def fieldOf (poly : BitVec 16) : GaloisField := ⟨degree poly, logTable poly, alogTable poly⟩

/-- a ⊗ b (R155): 0 if either is 0, else `ALOG[(LOG[a] + LOG[b]) mod LOGMOD]`, the sum exact. -/
def gfMul (f : GaloisField) (a b : Byte) : Byte :=
  if a = 0 ∨ b = 0 then 0
  else f.alog.get (((f.log.get a.toNat).toNat + (f.log.get b.toNat).toNat) % logMod f.m)

/-- a ⊕ b (R156): bitwise exclusive-or. -/
def gfAdd (a b : Byte) : Byte := a ^^^ b

/-- α^e = ALOG[e mod LOGMOD] (R159). -/
def alphaPow (f : GaloisField) (e : Nat) : Byte := f.alog.get (e % logMod f.m)

/-! ### GF_INIT (R151) -/

/-- BAD_POLY, then NOT_PRIMITIVE (60_exceptions.md R234). -/
def checkGfInit (poly : BitVec 16) (_s : State) : Option FaultCode :=
  if !legalPoly poly then some .badPoly
  else if !isPrimitive poly then some .notPrimitive
  else none

def effectGfInit (poly : BitVec 16) (s : State) : State :=
  { s with
    log := logTable poly
    alog := alogTable poly
    gfPoly := poly
    gfM := BitVec.ofNat 4 (degree poly)
    gfValid := true
    rsValid := false }

def execGfInit (poly : BitVec 16) (s : State) : Host.Outcome State Fault Refusal :=
  command (encode (.gfInit poly)) (checkGfInit poly) (effectGfInit poly) s

/-! ### GF_MUL and GF_ADD (R157, R158) -/

/-- GF_NOT_READY, then OPERAND_RANGE, A checked with B (60_exceptions.md R234). -/
def checkGfOperands (a b : Byte) (s : State) : Option FaultCode :=
  if !s.gfValid then some .gfNotReady
  else if outsideField s a.toNat || outsideField s b.toNat then some .operandRange
  else none

def effectGfMul (a b : Byte) (s : State) : State :=
  { s with result := gfMul (currentField s) a b }

def execGfMul (a b : BitVec 8) (s : State) : Host.Outcome State Fault Refusal :=
  command (encode (.gfMul a b)) (checkGfOperands a b) (effectGfMul a b) s

def effectGfAdd (a b : Byte) (s : State) : State :=
  { s with result := gfAdd a b }

def execGfAdd (a b : BitVec 8) (s : State) : Host.Outcome State Fault Refusal :=
  command (encode (.gfAdd a b)) (checkGfOperands a b) (effectGfAdd a b) s

end Sys2Proof.Machine
end

