-- ==== Sys2Proof/Machine/Packer.lean ====
section
/-! DEFINITION. The packer: the codeword slicer of the CW window, and PK_INIT, PK_APPEND, PK_FINISH (40_packer.md). -/
namespace Sys2Proof.Machine

/-! ### The codeword slicer (R128) -/

/-- `sum for b in 0 .. n-1 of BB[base + b] << (w-1-b)` (R128). -/
def sliceSum (bb : BitBuffer) (base w : Nat) : Nat → Nat
  | 0 => 0
  | b + 1 => sliceSum bb base w b + (bb.getLsbD (base + b)).toNat <<< (w - 1 - b)

/-- CwWin(i) (R128). -/
def cwWin (s : State) (i : Nat) : Word :=
  if s.pkState ≠ .idle ∧ i < s.pkCap.toNat then
    BitVec.ofNat 32 (sliceSum s.bb (i * s.pkW.toNat) s.pkW.toNat s.pkW.toNat)
  else 0

/-! ### PK_INIT (R123) -/

def checkPkInit (w : BitVec 4) (cap : BitVec 12) (_s : State) : Option FaultCode :=
  if w.toNat < 1 ∨ w.toNat > 8 ∨ cap = 0 then some .badPkCfg else none

def effectPkInit (w : BitVec 4) (cap : BitVec 12) (s : State) : State :=
  { s with pkW := w, pkCap := cap, pkLen := 0, bb := 0, pkState := .open }

def execPkInit (w : BitVec 4) (cap : BitVec 12) (s : State) : Host.Outcome State Fault Refusal :=
  command (encode (.pkInit w cap)) (checkPkInit w cap) (effectPkInit w cap) s

/-! ### PK_APPEND (R124) -/

/-- PK_SEQUENCE, then PK_OVERFLOW (60_exceptions.md R234). -/
def checkPkAppend (nm1 : BitVec 4) (s : State) : Option FaultCode :=
  if s.pkState ≠ .open then some .pkSequence
  else if s.pkLen.toNat + appendLength nm1 > totalBits s then some .pkOverflow
  else none

def effectPkAppend (nm1 : BitVec 4) (val : BitVec 16) (s : State) : State :=
  let n := appendLength nm1
  { s with
    bb := writeBits (patternBit val n) s.pkLen.toNat n s.bb
    pkLen := BitVec.ofNat 16 (s.pkLen.toNat + n) }

def execPkAppend (nm1 : BitVec 4) (val : BitVec 16) (s : State) : Host.Outcome State Fault Refusal :=
  command (encode (.pkAppend nm1 val)) (checkPkAppend nm1) (effectPkAppend nm1 val) s

/-! ### PK_FINISH (R125 to R127) -/

/-- PK_SEQUENCE, then BAD_PK_CFG (60_exceptions.md R234). -/
def checkPkFinish (s : State) : Option FaultCode :=
  if s.pkState ≠ .open then some .pkSequence
  else if s.tlen.toNat > 16 ∨ s.flen = 0 ∨ s.flen.toNat > 16 then some .badPkCfg
  else none

/-- tbits, the number of terminator bits: cut to the room left, and none on a codeword boundary when TMODE = 1
(R125, R126). -/
def terminatorBits (s : State) : Nat :=
  let room := totalBits s - s.pkLen.toNat
  if s.tmode = false then min s.tlen.toNat room
  else if s.pkLen.toNat % s.pkW.toNat = 0 then 0
  else min s.tlen.toNat room

/-- Bit j of the fill: the pattern repeated from its first bit, `fval[flen-1-(j mod flen)]` (R125, R127). -/
def fillBit (s : State) (j : Nat) : Bool := patternBit s.fval s.flen.toNat (j % s.flen.toNat)

def effectPkFinish (s : State) : State :=
  let total := totalBits s
  let p := s.pkLen.toNat + terminatorBits s
  { s with
    bb := writeBits (fillBit s) p (total - p)
      (writeBits (patternBit s.tval s.tlen.toNat) s.pkLen.toNat (terminatorBits s) s.bb)
    pkLen := BitVec.ofNat 16 total
    pkState := .done }

def execPkFinish (s : State) : Host.Outcome State Fault Refusal :=
  command (encode .pkFinish) checkPkFinish effectPkFinish s

end Sys2Proof.Machine
end

