-- ==== Sys2Proof/Machine/Rs.lean ====
section
/-! DEFINITION. The RS unit: the generator polynomial, the division step, the ECC window, and RS_INIT, RS_CLEAR,
RS_FEED, RS_FEEDCW (42_rs.md). -/
namespace Sys2Proof.Machine

/-! ### GenPoly (R182) -/

/-- `for k in n down to 1: G[k] <- (G[k] ⊗ root) ⊕ G[k-1]`. -/
def genInner (f : GaloisField) (root : Byte) : Nat → Table → Table
  | 0, g => g
  | k + 1, g => genInner f root k (g.put (k + 1) (gfAdd (gfMul f (g.get (k + 1)) root) (g.get k)))

/-- Pass i of GenPoly: the polynomial so far times (x ⊕ root). -/
def genPass (f : GaloisField) (root : Byte) (i : Nat) (g : Table) : Table :=
  let g := genInner f root (i - 1) (g.put i 1)
  g.put 0 (gfMul f (g.get 0) root)

/-- The passes 1 .. n, pass i with e = (idx + i - 1) mod lm. -/
def genPasses (f : GaloisField) (idx : Nat) : Nat → Table → Table
  | 0, g => g
  | n + 1, g => genPass f (f.alog.get ((idx + n) % logMod f.m)) (n + 1) (genPasses f idx n g)

/-- G as GenPoly(nsym, idx) writes it. -/
def genPoly (f : GaloisField) (nsym idx : Nat) : Table :=
  genPasses f idx nsym (Table.zero.put 0 1)

/-! ### DivStep (R186) -/

/-- `for k in n down to 1: R[k] <- R[k-1] ⊕ (fb ⊗ G[k])`. -/
def divInner (f : GaloisField) (g : Table) (fb : Byte) : Nat → Table → Table
  | 0, r => r
  | k + 1, r => divInner f g fb k (r.put (k + 1) (gfAdd (r.get k) (gfMul f fb (g.get (k + 1)))))

/-- R after DivStep(d). -/
def divStep (f : GaloisField) (g : Table) (nsym : Nat) (r : Table) (d : Byte) : Table :=
  let fb := gfAdd (r.get (nsym - 1)) d
  (divInner f g fb (nsym - 1) r).put 0 (gfMul f fb (g.get 0))

/-- R after DivStep of each symbol in order. -/
def divSteps (f : GaloisField) (g : Table) (nsym : Nat) (r : Table) (ds : List Byte) : Table :=
  ds.foldl (divStep f g nsym) r

/-! ### The ECC window (R189) -/

/-- EccWin(j). -/
def eccWin (s : State) (j : Nat) : Word :=
  if s.rsValid ∧ j < s.rsNsym.toNat then (s.r.get (s.rsNsym.toNat - 1 - j)).setWidth 32 else 0

/-! ### RS_INIT (R181) -/

/-- GF_NOT_READY, then BAD_NSYM (60_exceptions.md R234). -/
def checkRsInit (nsym : BitVec 8) (s : State) : Option FaultCode :=
  if !s.gfValid then some .gfNotReady
  else if nsym = 0 then some .badNsym
  else none

def effectRsInit (nsym index : BitVec 8) (s : State) : State :=
  { s with
    g := genPoly (currentField s) nsym.toNat (reducedIndex s index)
    r := Table.zero
    rsNsym := nsym
    rsIndex := BitVec.ofNat 8 (reducedIndex s index)
    rsCount := 0
    rsValid := true }

def execRsInit (nsym index : BitVec 8) (s : State) : Host.Outcome State Fault Refusal :=
  command (encode (.rsInit nsym index)) (checkRsInit nsym) (effectRsInit nsym index) s

/-! ### RS_CLEAR (R184) -/

def checkRsClear (s : State) : Option FaultCode :=
  if !s.rsValid then some .rsNotReady else none

def effectRsClear (s : State) : State :=
  { s with r := Table.zero, rsCount := 0 }

def execRsClear (s : State) : Host.Outcome State Fault Refusal :=
  command (encode .rsClear) checkRsClear effectRsClear s

/-! ### RS_FEED (R185) -/

/-- RS_NOT_READY, then OPERAND_RANGE (60_exceptions.md R234). -/
def checkRsFeed (d : Byte) (s : State) : Option FaultCode :=
  if !s.rsValid then some .rsNotReady
  else if outsideField s d.toNat then some .operandRange
  else none

def effectRsFeed (d : Byte) (s : State) : State :=
  { s with
    r := divStep (currentField s) s.g s.rsNsym.toNat s.r d
    rsCount := s.rsCount + 1 }

def execRsFeed (d : BitVec 8) (s : State) : Host.Outcome State Fault Refusal :=
  command (encode (.rsFeed d)) (checkRsFeed d) (effectRsFeed d) s

/-! ### RS_FEEDCW (R187, R188) -/

/-- CwWin(START + j) for j in 0 .. count-1, from index start on. -/
def cwRange (s : State) : Nat → Nat → List Word
  | _, 0 => []
  | start, count + 1 => cwWin s start :: cwRange s (start + 1) count

/-- The symbols that `RS_FEEDCW start, count` feeds, in order, and so the data of one block of R193. Every codeword that
passed the check is below 2^8, so the byte is the whole codeword (log entry 10). -/
def fedRange (s : State) (start count : Nat) : List Byte := (cwRange s start count).map (BitVec.setWidth 8)

/-- RS_NOT_READY, PK_SEQUENCE, CW_RANGE, then OPERAND_RANGE of any codeword in the range (60_exceptions.md R234). -/
def checkRsFeedcw (start count : BitVec 12) (s : State) : Option FaultCode :=
  if !s.rsValid then some .rsNotReady
  else if s.pkState ≠ .done then some .pkSequence
  else if rangeEnd start count > s.pkCap.toNat then some .cwRange
  else if (cwRange s start.toNat count.toNat).any (fun c => outsideField s c.toNat) then some .operandRange
  else none

def effectRsFeedcw (start count : BitVec 12) (s : State) : State :=
  { s with
    r := divSteps (currentField s) s.g s.rsNsym.toNat s.r (fedRange s start.toNat count.toNat)
    rsCount := s.rsCount + BitVec.ofNat 32 count.toNat }

def execRsFeedcw (start count : BitVec 12) (s : State) : Host.Outcome State Fault Refusal :=
  command (encode (.rsFeedcw start count)) (checkRsFeedcw start count) (effectRsFeedcw start count) s

/-! ### The systematic codeword (R190) -/

/-- The ECC window in order, ECC[0 .. nsym-1] (R189). -/
def eccWords (s : State) : List Word := (List.range s.rsNsym.toNat).map (eccWin s)

/-- The systematic codeword of the symbols ds (R190): the data symbols in the order they were fed since R was last
cleared, then the ECC window in order. The block does not keep the symbols, so they are an argument: the host knows
what it fed. -/
def systematicCodeword (ds : List Byte) (s : State) : List Word := ds.map (BitVec.setWidth 32) ++ eccWords s

end Sys2Proof.Machine
end

