-- ==== Sys2Proof/Machine/Bus.lean ====
section
/-! DEFINITION. The register port: the register map (10_state.md R23), reads (20_memory.md R64), writes (R65), the
legality of an access (R62, R63), and the service of one host event. -/
namespace Sys2Proof.Machine

/-! ### The register map (10_state.md R23) -/

/-- What stands at a word offset. A window is given with the index of its word. -/
inductive Reg where
  | id | param | ctrl | status | cmd | faultCmd | result | gfPoly | gfM | rsNsym | rsIndex | rsCount
  | pkW | pkCap | pkLen | pkTerm | pkFill
  | logWin (k : Nat) | alogWin (k : Nat) | gWin (k : Nat) | rWin (k : Nat) | eccWin (j : Nat) | cwWin (i : Nat)
  | reserved
  deriving DecidableEq, Repr

/-- The register at byte offset off, a multiple of 4 below 0x8000 (R23). -/
def regAt (off : Nat) : Reg :=
  if off < 0x0400 then
    match off with
    | 0x0000 => .id
    | 0x0004 => .param
    | 0x0008 => .ctrl
    | 0x000C => .status
    | 0x0010 => .cmd
    | 0x0014 => .faultCmd
    | 0x0018 => .result
    | 0x001C => .gfPoly
    | 0x0020 => .gfM
    | 0x0024 => .rsNsym
    | 0x0028 => .rsIndex
    | 0x002C => .rsCount
    | 0x0030 => .pkW
    | 0x0034 => .pkCap
    | 0x0038 => .pkLen
    | 0x003C => .pkTerm
    | 0x0040 => .pkFill
    | _ => .reserved
  else if off < 0x0800 then .logWin ((off - 0x0400) / 4)
  else if off < 0x0C00 then .alogWin ((off - 0x0800) / 4)
  else if off < 0x1000 then .gWin ((off - 0x0C00) / 4)
  else if off < 0x1400 then .rWin ((off - 0x1000) / 4)
  else if off < 0x1800 then .eccWin ((off - 0x1400) / 4)
  else if off < 0x4000 then .reserved
  else if off < 0x8000 then .cwWin ((off - 0x4000) / 4)
  else .reserved

/-- Word k of a table's window: the entry when the table is valid, else 0 (10_state.md R41 to R44, 20_memory.md R66). -/
def tableWin (valid : Bool) (t : Table) (k : Nat) : Word :=
  if valid then (t.get k).setWidth 32 else 0

/-- `{7'b0, tmode, 3'b0, tlen, tval}` (10_state.md R39). -/
def pkTermWord (s : State) : Word := 0#7 ++ flag s.tmode ++ 0#3 ++ s.tlen ++ s.tval

/-- `{11'b0, flen, fval}` (10_state.md R40). -/
def pkFillWord (s : State) : Word := 0#11 ++ s.flen ++ s.fval

/-- What a read of a register returns (R64, 10_state.md R24 to R46, R50). -/
def readReg (s : State) : Reg → Word
  | .id => 0x52530001
  | .param => 0x0FFFFF88
  | .ctrl => (flag s.irqEn).setWidth 32
  | .status => statusWord s
  | .cmd => 0
  | .faultCmd => s.faultCmd
  | .result => s.result.setWidth 32
  | .gfPoly => s.gfPoly.setWidth 32
  | .gfM => s.gfM.setWidth 32
  | .rsNsym => s.rsNsym.setWidth 32
  | .rsIndex => s.rsIndex.setWidth 32
  | .rsCount => s.rsCount
  | .pkW => s.pkW.setWidth 32
  | .pkCap => s.pkCap.setWidth 32
  | .pkLen => s.pkLen.setWidth 32
  | .pkTerm => pkTermWord s
  | .pkFill => pkFillWord s
  | .logWin k => tableWin s.gfValid s.log k
  | .alogWin k => tableWin s.gfValid s.alog k
  | .gWin k => tableWin s.rsValid s.g k
  | .rWin k => tableWin s.rsValid s.r k
  | .eccWin j => Machine.eccWin s j
  | .cwWin i => Machine.cwWin s i
  | .reserved => 0

/-- RegRead(off) (R64). -/
def regRead (s : State) (off : BitVec 15) : Word := readReg s (regAt off.toNat)

/-- A write to CMD puts the word in flight (30_encoding.md R90, 10_state.md R48). -/
def issue (v : Word) (s : State) : State :=
  { s with pending := some v, draws := s.draws + 1, overtaken := 0 }

/-- The effect of a write of v to a register (R65): CTRL, CMD, PK_TERM and PK_FILL act, nothing else does (R68). -/
def writeReg (r : Reg) (v : Word) (s : State) : State :=
  match r with
  | .ctrl => ctrlWrite v s
  | .cmd => issue v s
  | .pkTerm => { s with tval := v.extractLsb' 0 16, tlen := v.extractLsb' 16 5, tmode := v.getLsbD 24 }
  | .pkFill => { s with fval := v.extractLsb' 0 16, flen := v.extractLsb' 16 5 }
  | _ => s

/-- RegWrite(off, v) (R65). -/
def regWrite (off : BitVec 15) (v : Word) (s : State) : State := writeReg (regAt off.toNat) v s

/-! ### One access -/

/-- Only aligned 32-bit accesses are legal (R62, R63). -/
def legal (a : Access) : Bool := a.size == .word && a.addr.toNat % 4 == 0

/-- A read of ID, PARAM or STATUS, the only access that does not wait while a command is in flight
(70_reset_and_hazards.md R265, R266). -/
def overtakes (a : Access) : Bool :=
  legal a && !a.write && (a.addr == 0x0000 || a.addr == 0x0004 || a.addr == 0x000C)

/-- The ready output while this access is requested: 0 = it waits, for the command in flight (R61, 70 R266) or for the
end of a reset input, during which the block answers no access (70 R260). -/
def ready (s : State) (a : Access) : Bool := s.rstN && (!busy s || overtakes a)

/-- The err output of a completed access (R61, R81). -/
def Response.err : Response → Bool
  | .error => true
  | _ => false

/-- The rdata output of a completed access (R61): 0 on an error response; the spec states none for a write. -/
def Response.rdata : Response → Option Word
  | .data v => some v
  | .written => none
  | .error => some 0

/-- What a completed access returns (R61, R62 to R65). -/
def response (a : Access) (s : State) : Response :=
  if legal a then (if a.write then .written else .data (regRead s a.addr)) else .error

/-- What a completed access does to the block: a legal write its RegWrite, anything else nothing (R62, R63, R67). -/
def accessEffect (a : Access) (s : State) : State :=
  if legal a && a.write then regWrite a.addr a.wdata s else s

/-- One completed access: the host receives its response, and its effect happens (R61, R71). -/
def serve (a : Access) (s : State) : State :=
  { accessEffect a s with responses := s.responses ++ [response a s] }

/-- An access served while a command is in flight is one that overtakes it. -/
def countOvertaking (s : State) : State := if busy s then { s with overtaken := s.overtaken + 1 } else s

/-- The port serves one event with rst_n = 1. Asserting the reset input abandons a command in flight and leaves the
reset state (70 R260, R262). -/
def serveEvent (e : HostEvent) (s : State) : State :=
  match e with
  | .access a => serve a (countOvertaking s)
  | .assertReset => { resetBlock s with rstN := false }
  | .releaseReset => s

/-- With rst_n = 0 the block holds its reset state and answers no access (70 R260). -/
def heldInReset (s : State) : Host.Outcome State Fault Refusal :=
  match s.inbox with
  | [] => .next (resetBlock s)
  | .assertReset :: rest => .next { resetBlock s with inbox := rest }
  | .releaseReset :: rest => .next { resetBlock s with inbox := rest, rstN := true }
  | .access _ :: _ => .refused .accessDuringReset

end Sys2Proof.Machine
end

