-- ==== Sys2Proof/Machine/Dispatch.lean ====
section
/-! DEFINITION. One arm per command: its meaning. -/
namespace Sys2Proof.Machine

def exec (i : Instr) (s : State) : Host.Outcome State Fault Refusal :=
  match i with
  | .nop => Sys2Proof.Machine.execNop s
  | .gfInit poly => Sys2Proof.Machine.execGfInit poly s
  | .gfMul a b => Sys2Proof.Machine.execGfMul a b s
  | .gfAdd a b => Sys2Proof.Machine.execGfAdd a b s
  | .rsInit nsym index => Sys2Proof.Machine.execRsInit nsym index s
  | .rsClear => Sys2Proof.Machine.execRsClear s
  | .rsFeed d => Sys2Proof.Machine.execRsFeed d s
  | .rsFeedcw start count => Sys2Proof.Machine.execRsFeedcw start count s
  | .pkInit w cap => Sys2Proof.Machine.execPkInit w cap s
  | .pkAppend nm1 val => Sys2Proof.Machine.execPkAppend nm1 val s
  | .pkFinish => Sys2Proof.Machine.execPkFinish s

end Sys2Proof.Machine
end

