-- ==== Sys2Proof/Machine/Agents.lean ====
section
/-! DEFINITION. The two agents of 70_reset_and_hazards.md R267, the block and the host, and which of them moves next.
The block's step completes the command in flight; the host's step is the event at the head of its inbox. -/
namespace Sys2Proof.Machine

/-- What the next step does. -/
inductive Move where
  /-- No command is in flight and the host asks for nothing: the block holds its state (R263). -/
  | idle
  /-- The command in flight completes (R267). -/
  | complete (w : Word)
  /-- The port serves the head of the inbox. -/
  | host (e : HostEvent) (rest : List HostEvent)
  deriving DecidableEq, Repr

/-- The next step's move with rst_n = 1. While a command is in flight every other access waits for its completion
(R266); a read of ID, PARAM or STATUS is served before it as long as the command's latency lasts, a free number of
this block's own seed (R265, R267; that it is one number for each command is the model's choice, log entry 3); the
reset input overrides everything (60_exceptions.md R236). -/
def nextMove (s : State) : Move :=
  match s.pending, s.inbox with
  | none, [] => .idle
  | none, e :: rest => .host e rest
  | some w, [] => .complete w
  | some w, .access a :: rest =>
    if overtakes a && s.overtaken < Config.latency s.seed s.draws then .host (.access a) rest else .complete w
  | some _, .assertReset :: rest => .host .assertReset rest
  | some _, .releaseReset :: rest => .host .releaseReset rest

/-- The block's step: the command with word w executes and completes (R267), or raises ILLEGAL_CMD when w is no
command (30_encoding.md R102, R103, R105). -/
def completeWord (w : Word) (s : State) : Host.Outcome State Fault Refusal :=
  match decode w with
  | .ok i => exec i s
  | .error _ => illegalCommand w s

/-- One step with rst_n = 1. -/
def runningStep (s : State) : Host.Outcome State Fault Refusal :=
  match nextMove s with
  | .idle => .next s
  | .complete w => completeWord w s
  | .host e rest => .next (serveEvent e { s with inbox := rest })

/-- The word in flight, and nothing that could come before its completion: the reset input released and no host event
waiting (log entry 7). -/
def loadCommand (w : Word) (s : State) : State :=
  { s with pending := some w, rstN := true, inbox := [] }

/-- The host's future request e, put behind what it has already asked for (20_memory.md R71). -/
def post (e : HostEvent) (s : State) : State := { s with inbox := s.inbox ++ [e] }

end Sys2Proof.Machine
end

