-- ==== Sys2Proof/Machine/Step.lean ====
section
/-! DEFINITION. One step of the machine, and where a step finds the command it runs. -/
namespace Sys2Proof.Machine

/-- One step: the block in its reset state while rst_n = 0, else the next move of the block or of the host. -/
def step (s : State) : Host.Outcome State Fault Refusal :=
  if s.rstN then runningStep s else heldInReset s

/-- The command word w in flight, so that the very next step runs it (10_state.md R48; log entry 7). -/
def State.withFetchWord (s : State) (_nbits w : Nat) : State := loadCommand (BitVec.ofNat 32 w) s

end Sys2Proof.Machine
end

