-- ==== Sys2Proof/Machine/Platform.lean ====
section
/-! DEFINITION. The platform around the block: where its registers sit (RSE_BASE, 20_memory.md R60, R80), which host
line its interrupt drives (RSE_IRQ_LINE, 60_exceptions.md R237), and several instances beside each other (60 R245).
The parameters are arguments, fields of an instance (log entry 13). -/
namespace Sys2Proof.Machine

/-- One block of a platform. -/
structure Instance where
  /-- RSE_BASE, the block's base address in the host's address space. -/
  base : Nat
  /-- RSE_IRQ_LINE, the host interrupt line its irq drives (R237, 93_implementation_defined.md U7). -/
  irqLine : Nat
  /-- The priority of that line at the host's interrupt controller, the other half of RSE_IRQ_LINE (R237, U7). -/
  irqPriority : Nat
  block : State
  deriving DecidableEq, Repr

/-- An instance right after reset. Each instance of a platform is given a seed of its own, so that the draws of R265 of
one are in no relation to those of another (log entry 3). -/
def Instance.atReset (base irqLine irqPriority seed : Nat) : Instance :=
  ⟨base, irqLine, irqPriority, { State.reset with seed := seed }⟩

/-- The platform's decoder selects the block whose 32 KiB region holds the address (R60, R80). -/
def selects (i : Instance) (addr : Nat) : Bool := i.base ≤ addr && addr < i.base + 0x8000

/-- The access as the block sees it: the 15-bit byte offset in its region (R60). DESIGN CHOICE (log entry 13): the
offset is the host's address less RSE_BASE. The spec states no alignment of RSE_BASE; for a base that is a multiple of
32 KiB this is the low 15 bits of the host's address, and for another base it is not. -/
def localAccess (i : Instance) (write : Bool) (addr : Nat) (size : AccessSize) (wdata : Word) : Access :=
  ⟨write, BitVec.ofNat 15 (addr - i.base), size, wdata⟩

/-- A host access reaches the one instance whose region holds its address, the first listed if regions overlap. -/
def postAt (write : Bool) (addr : Nat) (size : AccessSize) (wdata : Word) : List Instance → List Instance
  | [] => []
  | i :: rest =>
    if selects i addr then { i with block := post (.access (localAccess i write addr size wdata)) i.block } :: rest
    else i :: postAt write addr size wdata rest

/-- A step of the k-th instance: a command to one never affects another (R245). -/
def stepInstance : Nat → List Instance → Host.Outcome (List Instance) Fault Refusal
  | _, [] => .next []
  | 0, i :: rest =>
    match step i.block with
    | .next b => .next ({ i with block := b } :: rest)
    | .fault f => .fault f
    | .refused r => .refused r
  | k + 1, i :: rest =>
    match stepInstance k rest with
    | .next rest' => .next (i :: rest')
    | .fault f => .fault f
    | .refused r => .refused r

/-- The host interrupt lines that are active, each with its priority (R237). -/
def activeLines (p : List Instance) : List (Nat × Nat) :=
  (p.filter (fun i => irq i.block)).map fun i => (i.irqLine, i.irqPriority)

end Sys2Proof.Machine
end

