-- ==== Sys2Proof/Machine/Reference.lean ====
section
/-! DEFINITION. The mathematics the rules refer to, written without the block's tables or loops: powers of x modulo a
polynomial, the product of two elements as polynomials (41_gf.md R153, R155), and polynomials over the field with
their evaluation and product (42_rs.md R180, R183, R191, R192). No command calls these; statements compare the
commands with them. -/
namespace Sys2Proof.Machine

/-- x^e mod P (R153). -/
def xPow (poly : BitVec 16) (m : Nat) : Nat → BitVec 16
  | 0 => 1
  | e + 1 => timesX poly m (xPow poly m e)

/-- The product of a and the low n bits of b as polynomials over GF(2), reduced modulo P on the way: the sum of
x^i · a over the bits i set in b (R155). -/
def mulMod (poly : BitVec 16) (m : Nat) : Nat → BitVec 16 → BitVec 16 → BitVec 16
  | 0, _, _ => 0
  | n + 1, a, b => (if b.getLsbD 0 then a else 0) ^^^ mulMod poly m n (timesX poly m a) (b >>> 1)

/-- a^e by repeated ⊗. -/
def gfPow (f : GaloisField) (a : Byte) : Nat → Byte
  | 0 => 1
  | e + 1 => gfMul f (gfPow f a e) a

/-- The value at x of a polynomial given by its coefficients, the highest degree first. -/
def polyEval (f : GaloisField) (x : Byte) (p : List Byte) : Byte :=
  p.foldl (fun acc c => gfAdd (gfMul f acc x) c) 0

/-- The product of two polynomials given by their coefficients, the highest degree first; p has p.length
coefficients, q is not empty, and the product has p.length + q.length - 1. -/
def polyMul (f : GaloisField) : List Byte → List Byte → List Byte
  | [], q => List.replicate (q.length - 1) 0
  | a :: p, q => List.zipWith gfAdd (q.map (gfMul f a) ++ List.replicate p.length 0) (0 :: polyMul f p q)

/-- The coefficients of x^nsym .. x^0 held in a table whose entry k is the coefficient of x^k. -/
def coefficients (t : Table) (nsym : Nat) : List Byte :=
  (List.range (nsym + 1)).map fun k => t.get (nsym - k)

/-- The ECC codewords in output order: R[nsym-1], ..., R[0] (R189). -/
def eccList (r : Table) (nsym : Nat) : List Byte :=
  (List.range nsym).map fun j => r.get (nsym - 1 - j)

/-- The ECC of a block of data symbols from a clear remainder (R191). -/
def eccOf (f : GaloisField) (g : Table) (nsym : Nat) (ds : List Byte) : List Byte :=
  eccList (divSteps f g nsym Table.zero ds) nsym

/-- RS_FEED of each symbol in order, from one command's end to the next (R185). -/
def feedEach : List Byte → State → Host.Outcome State Fault Refusal
  | [], s => .next s
  | d :: ds, s =>
    match execRsFeed d s with
    | .next s' => feedEach ds s'
    | .fault f => .fault f
    | .refused r => .refused r

end Sys2Proof.Machine
end

