-- ==== Sys2Proof/WellFormed.lean ====
section
/-! DEFINITION. Well-formedness. A term of Instr has fields of exactly the widths of its format, so each one is a
legal encoding and needs no check (30_encoding.md R100). What can be ill formed is a line of assembler source, whose
operands are integer literals of any size: R106 says which ones the assembler refuses. -/
namespace Sys2Proof

/-- A command line of assembler source with its integer operands in the order R106 writes them. -/
inductive Asm where
  | nop
  | gfInit (poly : Nat)
  | gfMul (a b : Nat)
  | gfAdd (a b : Nat)
  | rsInit (nsym index : Nat)
  | rsClear
  | rsFeed (d : Nat)
  | rsFeedcw (start count : Nat)
  | pkInit (w cap : Nat)
  | pkAppend (n val : Nat)
  | pkFinish
  deriving DecidableEq, Repr

/-- R106: every operand fits its field. The assembler refuses poly, val > 0xFFFF; a, b, d, nsym, index > 0xFF;
start, count, cap > 0xFFF; w > 0xF; n outside 1..16. -/
def Asm.wellFormed : Asm → Bool
  | .nop => true
  | .gfInit poly => poly ≤ 0xFFFF
  | .gfMul a b => a ≤ 0xFF && b ≤ 0xFF
  | .gfAdd a b => a ≤ 0xFF && b ≤ 0xFF
  | .rsInit nsym index => nsym ≤ 0xFF && index ≤ 0xFF
  | .rsClear => true
  | .rsFeed d => d ≤ 0xFF
  | .rsFeedcw start count => start ≤ 0xFFF && count ≤ 0xFFF
  | .pkInit w cap => w ≤ 0xF && cap ≤ 0xFFF
  | .pkAppend n val => 1 ≤ n && n ≤ 16 && val ≤ 0xFFFF
  | .pkFinish => true

end Sys2Proof
end

