-- ==== Sys2Proof/Machine/Assembler.lean ====
section
/-! DEFINITION. The notation of 30_encoding.md: the assembler (R106), the lines of a host script (R107) and the
pseudo-commands (R108), as data. The reading of their text is in Machine/Script.lean. -/
namespace Sys2Proof.Machine

/-- The command of an assembler line, or none where the assembler refuses it (R106). -/
def assemble (a : Asm) : Option Instr :=
  if !a.wellFormed then none
  else match a with
    | .nop => some .nop
    | .gfInit poly => some (.gfInit (BitVec.ofNat 16 poly))
    | .gfMul a b => some (.gfMul (BitVec.ofNat 8 a) (BitVec.ofNat 8 b))
    | .gfAdd a b => some (.gfAdd (BitVec.ofNat 8 a) (BitVec.ofNat 8 b))
    | .rsInit nsym index => some (.rsInit (BitVec.ofNat 8 nsym) (BitVec.ofNat 8 index))
    | .rsClear => some .rsClear
    | .rsFeed d => some (.rsFeed (BitVec.ofNat 8 d))
    | .rsFeedcw start count => some (.rsFeedcw (BitVec.ofNat 12 start) (BitVec.ofNat 12 count))
    | .pkInit w cap => some (.pkInit (BitVec.ofNat 4 w) (BitVec.ofNat 12 cap))
    | .pkAppend n val => some (.pkAppend (BitVec.ofNat 4 (n - 1)) (BitVec.ofNat 16 val))
    | .pkFinish => some .pkFinish

/-- The byte offset of a register of the map (10_state.md R23); none for a reserved one, which has no name. -/
def regOffset : Reg → Option Nat
  | .id => some 0x0000
  | .param => some 0x0004
  | .ctrl => some 0x0008
  | .status => some 0x000C
  | .cmd => some 0x0010
  | .faultCmd => some 0x0014
  | .result => some 0x0018
  | .gfPoly => some 0x001C
  | .gfM => some 0x0020
  | .rsNsym => some 0x0024
  | .rsIndex => some 0x0028
  | .rsCount => some 0x002C
  | .pkW => some 0x0030
  | .pkCap => some 0x0034
  | .pkLen => some 0x0038
  | .pkTerm => some 0x003C
  | .pkFill => some 0x0040
  | .logWin k => if k < 256 then some (0x0400 + 4 * k) else none
  | .alogWin k => if k < 256 then some (0x0800 + 4 * k) else none
  | .gWin k => if k < 256 then some (0x0C00 + 4 * k) else none
  | .rWin k => if k < 256 then some (0x1000 + 4 * k) else none
  | .eccWin j => if j < 256 then some (0x1400 + 4 * j) else none
  | .cwWin i => if i < 4096 then some (0x4000 + 4 * i) else none
  | .reserved => none

/-- A line of a host script (R107). A window read is a read of the window's word. -/
inductive Line where
  | write (r : Reg) (v : Nat)
  | read (r : Reg) (v : Nat)
  | poll (r : Reg) (mask v : Nat)
  | command (a : Asm)
  deriving DecidableEq, Repr

/-- A pseudo-command (R108). -/
inductive Pseudo where
  | wait
  | setTerm (tlen tval tmode : Nat)
  | setFill (flen fval : Nat)
  | clrFault (ie : Nat)
  | softReset
  | rsBlock (start count : Nat)
  | pkBits (bits : List Bool)
  | pkValue (n v : Nat)
  deriving DecidableEq, Repr

/-- A list of bits as a binary number, its first bit most significant (R108). -/
def bitsValue (bits : List Bool) : Nat := bits.foldl (fun acc b => 2 * acc + b.toNat) 0

/-- Chunks of 16 from the left, the last with what remains; the fuel is the number of bits (R108). -/
def chunks16 : Nat → List Bool → List (List Bool)
  | 0, _ => []
  | _, [] => []
  | fuel + 1, b :: bs => (b :: bs).take 16 :: chunks16 fuel ((b :: bs).drop 16)

/-- The expansion of a pseudo-command (R108); none where its operands are outside the range R108 gives. DESIGN CHOICE
(log entry 14): PK_BITS of an empty string is a line of no commands; R108 gives no lower bound on its k. -/
def expand : Pseudo → Option (List Line)
  | .wait => some [.poll .status 0x1 0x0]
  | .setTerm tlen tval tmode => some [.write .pkTerm (tmode <<< 24 ||| tlen <<< 16 ||| tval)]
  | .setFill flen fval => some [.write .pkFill (flen <<< 16 ||| fval)]
  | .clrFault ie => some [.write .ctrl (0x100 ||| ie)]
  | .softReset => some [.write .ctrl 0x200]
  | .rsBlock start count => some [.command .rsClear, .command (.rsFeedcw start count)]
  | .pkBits bits =>
    some ((chunks16 bits.length bits).map fun chunk => .command (.pkAppend chunk.length (bitsValue chunk)))
  | .pkValue n v =>
    if n < 1 ∨ 32 < n then none
    else if n ≤ 16 then some [.command (.pkAppend n v)]
    else some [.command (.pkAppend (n - 16) (v >>> 16)), .command (.pkAppend 16 (v &&& 0xFFFF))]

end Sys2Proof.Machine
end

