-- ==== Sys2Proof/Machine/Script.lean ====
section
/-! DEFINITION. Host scripts: reading their text (30_encoding.md R106 to R108, and the ranges of window words that the
programs of 95_test_vectors.md use), and running their lines against the block. Where the spec's notation leaves a
point open (spacing, case, a literal without a digit, a written value of more than 32 bits, the bound of a poll), the
model's choice is in log entry 14. -/
namespace Sys2Proof.Machine

/-! ### Text -/

inductive Token where
  | word (cs : List Char)
  | quoted (cs : List Char)
  | comma
  | arrow
  | lbracket
  | rbracket
  /-- a quote that does not end -/
  | malformed
  deriving DecidableEq, Repr

/-- The word read so far, held last character first, put before what follows. -/
def flushWord (cur : List Char) (rest : List Token) : List Token :=
  if cur.isEmpty then rest else .word cur.reverse :: rest

/-- The tokens of a line; `#` starts a comment (R107). The Bool says whether a quote is open. -/
def tokens : Bool → List Char → List Char → List Token
  | false, [], cur => flushWord cur []
  | true, [], _ => [.malformed]
  | true, '"' :: cs, cur => .quoted cur.reverse :: tokens false cs []
  | true, c :: cs, cur => tokens true cs (c :: cur)
  | false, '#' :: _, cur => flushWord cur []
  | false, '"' :: cs, cur => flushWord cur (tokens true cs [])
  | false, ',' :: cs, cur => flushWord cur (.comma :: tokens false cs [])
  | false, '[' :: cs, cur => flushWord cur (.lbracket :: tokens false cs [])
  | false, ']' :: cs, cur => flushWord cur (.rbracket :: tokens false cs [])
  | false, '-' :: '>' :: cs, cur => flushWord cur (.arrow :: tokens false cs [])
  | false, c :: cs, cur => if c = ' ' then flushWord cur (tokens false cs []) else tokens false cs (c :: cur)

/-- The value of a digit in a base up to 16. -/
def digitValue (base : Nat) (c : Char) : Option Nat :=
  let v := if '0' ≤ c ∧ c ≤ '9' then c.toNat - '0'.toNat
    else if 'a' ≤ c ∧ c ≤ 'f' then c.toNat - 'a'.toNat + 10
    else if 'A' ≤ c ∧ c ≤ 'F' then c.toNat - 'A'.toNat + 10
    else base
  if v < base then some v else none

/-- The value of a literal's digits, after those read so far; underscores only group digits (00_scope.md R8). -/
def digitsValue (base : Nat) : List Char → Nat → Option Nat
  | [], acc => some acc
  | c :: cs, acc =>
    if c = '_' then digitsValue base cs acc
    else (digitValue base c).bind fun d => digitsValue base cs (acc * base + d)

/-- The value of a literal without its prefix. DESIGN CHOICE (log entry 14): underscores group digits, so with no digit
among them (`_`, `0x_`, nothing at all) they are no literal; the spec does not say. -/
def numeral (base : Nat) (cs : List Char) : Option Nat :=
  if cs.all (· = '_') then none else digitsValue base cs 0

/-- An integer literal: decimal, `0x` hexadecimal or `0b` binary (R106, R8). -/
def literal : List Char → Option Nat
  | '0' :: 'x' :: cs => numeral 16 cs
  | '0' :: 'b' :: cs => numeral 2 cs
  | cs => numeral 10 cs

/-- Literals separated by commas (R106). -/
def operands : List Token → Option (List Nat)
  | [] => some []
  | [.word w] => (literal w).map ([·])
  | .word w :: .comma :: t :: rest =>
    (literal w).bind fun v => (operands (t :: rest)).map (v :: ·)
  | _ => none

/-- The registers by the names of 10_state.md R23. -/
def regNames : List (String × Reg) :=
  [("ID", .id), ("PARAM", .param), ("CTRL", .ctrl), ("STATUS", .status), ("CMD", .cmd), ("FAULT_CMD", .faultCmd),
   ("RESULT", .result), ("GF_POLY", .gfPoly), ("GF_M", .gfM), ("RS_NSYM", .rsNsym), ("RS_INDEX", .rsIndex),
   ("RS_COUNT", .rsCount), ("PK_W", .pkW), ("PK_CAP", .pkCap), ("PK_LEN", .pkLen), ("PK_TERM", .pkTerm),
   ("PK_FILL", .pkFill)]

/-- The windows by the names of 10_state.md R23, each with its word k. -/
def windowReg (name : List Char) (k : Nat) : Option Reg :=
  ([("LOG", .logWin k), ("ALOG", .alogWin k), ("G", .gWin k), ("R", .rWin k), ("ECC", .eccWin k), ("CW", .cwWin k)]
    : List (String × Reg)).lookup (String.ofList name)

def namedReg (name : List Char) : Option Reg := regNames.lookup (String.ofList name)

/-- The characters before the first `..`, and those after it. -/
def splitRange : List Char → List Char → Option (List Char × List Char)
  | [], _ => none
  | '.' :: '.' :: cs, acc => some (acc.reverse, cs)
  | c :: cs, acc => splitRange cs (c :: acc)

/-- The index of a window word, or a range `a..b` of indices. DESIGN CHOICE (log entry 14): a range with b below a names
no words and its line is refused; the spec uses ascending ranges only. -/
def indices (cs : List Char) : Option (List Nat) :=
  match splitRange cs [] with
  | none => (literal cs).map ([·])
  | some (lo, hi) =>
    (literal lo).bind fun a => (literal hi).bind fun b =>
      if a ≤ b then some ((List.range (b + 1 - a)).map (a + ·)) else none

/-- Reads of the words of a window, each with its value. -/
def windowReads (name : List Char) : List Nat → List Nat → Option (List Line)
  | [], [] => some []
  | k :: ks, v :: vs =>
    (windowReg name k).bind fun r => (windowReads name ks vs).map (Line.read r v :: ·)
  | _, _ => none

/-- A command mnemonic with its operands (R106). -/
def asmLine (name : String) (ops : List Nat) : Option Asm :=
  match name, ops with
  | "NOP", [] => some .nop
  | "GF_INIT", [poly] => some (.gfInit poly)
  | "GF_MUL", [a, b] => some (.gfMul a b)
  | "GF_ADD", [a, b] => some (.gfAdd a b)
  | "RS_INIT", [nsym, index] => some (.rsInit nsym index)
  | "RS_CLEAR", [] => some .rsClear
  | "RS_FEED", [d] => some (.rsFeed d)
  | "RS_FEEDCW", [start, count] => some (.rsFeedcw start count)
  | "PK_INIT", [w, cap] => some (.pkInit w cap)
  | "PK_APPEND", [n, val] => some (.pkAppend n val)
  | "PK_FINISH", [] => some .pkFinish
  | _, _ => none

/-- A pseudo-command with its operands (R108). -/
def pseudoLine (name : String) (ops : List Nat) : Option Pseudo :=
  match name, ops with
  | "WAIT", [] => some .wait
  | "SETTERM", [tlen, tval, tmode] => some (.setTerm tlen tval tmode)
  | "SETFILL", [flen, fval] => some (.setFill flen fval)
  | "CLRFAULT", [ie] => some (.clrFault ie)
  | "SOFTRESET", [] => some .softReset
  | "RS_BLOCK", [start, count] => some (.rsBlock start count)
  | "PK_VALUE", [n, v] => some (.pkValue n v)
  | _, _ => none

/-- The bits of a PK_BITS string: its digits 0 and 1 in order (R108). DESIGN CHOICE (log entry 14): blanks anywhere in
the string are skipped, and a string without a digit is the empty one; R108 writes blanks and does not bound k. -/
def bitString : List Char → Option (List Bool)
  | [] => some []
  | c :: cs =>
    if c = ' ' then bitString cs
    else if c = '0' then (bitString cs).map (false :: ·)
    else if c = '1' then (bitString cs).map (true :: ·)
    else none

/-- The script lines of a line's tokens (R106 to R108); none where the line has no such form. -/
def parseTokens : List Token → Option (List Line)
  | [] => some []
  | [.word ['W'], .word r, .comma, .word v] =>
    (namedReg r).bind fun r => (literal v).map fun v => [.write r v]
  | [.word ['R'], .word r, .arrow, .word v] =>
    (namedReg r).bind fun r => (literal v).map fun v => [.read r v]
  | .word ['R'] :: .word r :: .lbracket :: .word k :: .rbracket :: .arrow :: vs =>
    (indices k).bind fun ks => (operands vs).bind fun vs => windowReads r ks vs
  | [.word ['P', 'O', 'L', 'L'], .word r, .comma, .word mask, .comma, .word v] =>
    (namedReg r).bind fun r => (literal mask).bind fun mask => (literal v).map fun v => [.poll r mask v]
  | [.word ['P', 'K', '_', 'B', 'I', 'T', 'S'], .quoted bits] => (bitString bits).bind fun bits => expand (.pkBits bits)
  | .word name :: ops =>
    (operands ops).bind fun ops =>
      match asmLine (String.ofList name) ops with
      | some a => some [.command a]
      | none => (pseudoLine (String.ofList name) ops).bind expand
  | _ => none

/-- The script lines of one line of text. -/
def parseLine (text : List Char) : Option (List Line) := parseTokens (tokens false text [])

/-! ### Running a script -/

/-- Steps until the host has nothing left to ask for, at most n of them. -/
def drain : Nat → State → Option State
  | 0, s => if s.inbox.isEmpty then some s else none
  | n + 1, s =>
    if s.inbox.isEmpty then some s
    else match step s with
      | .next s' => drain n s'
      | .fault _ => none
      | .refused _ => none

/-- One access by the host and its wait for the response: at most the completion of the command in flight and the
access itself (70_reset_and_hazards.md R266). -/
def perform (a : Access) (s : State) : Option State := drain 2 (post (.access a) s)

/-- A word access to a register. DESIGN CHOICE (log entry 14): a value that is not below 2^32 is no write data, and the
line is refused; the spec does not say. -/
def wordAccess (write : Bool) (r : Reg) (v : Nat) : Option Access :=
  if v < 2 ^ 32 then (regOffset r).map fun off => ⟨write, BitVec.ofNat 15 off, .word, BitVec.ofNat 32 v⟩ else none

/-- RegRead of a register: the state after it and the value read. -/
def hostRead (r : Reg) (s : State) : Option (State × Word) :=
  (wordAccess false r 0).bind fun a => (perform a s).bind fun s' =>
    match s'.responses.getLast? with
    | some (.data v) => some (s', v)
    | _ => none

/-- `POLL`: RegRead until `(v & mask) = value`, as numbers, at most the given number of times (R107; the bound is the
model's, log entry 14). -/
def pollReg (r : Reg) (mask v : Nat) : Nat → State → Option State
  | 0, _ => none
  | n + 1, s =>
    (hostRead r s).bind fun (s', w) =>
      if w.toNat &&& mask = v then some s' else pollReg r mask v n s'

/-- One line; none when a read gives another value than the line states, when the assembler refuses the command, or
when a poll does not end within the given number of reads (R107). -/
def runLine (polls : Nat) (line : Line) (s : State) : Option State :=
  match line with
  | .write r v => (wordAccess true r v).bind fun a => perform a s
  | .read r v => (hostRead r s).bind fun (s', w) => if w.toNat = v then some s' else none
  | .poll r mask v => pollReg r mask v polls s
  | .command a =>
    (assemble a).bind fun i => (wordAccess true .cmd (encode i).toNat).bind fun a => perform a s

/-- The lines of a script in order. -/
def runScript (polls : Nat) : List Line → State → Option State
  | [], s => some s
  | line :: rest, s => (runLine polls line s).bind (runScript polls rest)

end Sys2Proof.Machine
end

