-- ==== Sys2Proof/Safety.lean ====
section
/-! DEFINITION. What holds in a safe run: the invariants of 10_state.md R49, the states a run can reach under any host
(70_reset_and_hazards.md R267), and which parts of the state no access can see (70 R261). -/
namespace Sys2Proof.Machine

/-- A field polynomial the block accepts (41_gf.md R151, R154). -/
abbrev AcceptedPoly (poly : BitVec 16) : Prop := legalPoly poly = true ∧ isPrimitive poly = true

/-- An element of the field of degree m (R150). -/
abbrev IsElement (m : Nat) (a : Byte) : Prop := a.toNat < 2 ^ m

/-- The state after fault entry by the command with word w, completed (60_exceptions.md R231). -/
def faultEntry (code : BitVec 8) (w : Word) (s : State) : State :=
  { s with fault := true, faultCode := code, faultCmd := w, pending := none }

/-- What every step keeps. It says what R49 says, and what R49's items rest on: the tables are those of GF_POLY, the
generator that of RS_NSYM and RS_INDEX, the buffer is zero past PK_LEN, and a block in reset is in its reset state. -/
structure Inv (s : State) : Prop where
  field : s.gfValid = true → AcceptedPoly s.gfPoly ∧ s.gfM.toNat = degree s.gfPoly ∧
    s.log = logTable s.gfPoly ∧ s.alog = alogTable s.gfPoly
  generator : s.rsValid = true → s.gfValid = true ∧ 1 ≤ s.rsNsym.toNat ∧ s.rsIndex.toNat < logMod s.gfM.toNat ∧
    s.g = genPoly (currentField s) s.rsNsym.toNat s.rsIndex.toNat
  remainder : s.rsValid = true → ∀ k, IsElement s.gfM.toNat (s.r.get k) ∧ (s.rsNsym.toNat ≤ k → s.r.get k = 0)
  packer : s.pkState ≠ .idle → (1 ≤ s.pkW.toNat ∧ s.pkW.toNat ≤ 8) ∧ 1 ≤ s.pkCap.toNat ∧
    s.pkLen.toNat ≤ totalBits s ∧ ∀ i, s.pkLen.toNat ≤ i → s.bb.getLsbD i = false
  finished : s.pkState = .done → s.pkLen.toNat = totalBits s
  clear : s.fault = false → s.faultCode = 0 ∧ s.faultCmd = 0
  recorded : s.fault = true → ∃ c : FaultCode, s.faultCode = c.number
  heldInReset : s.rstN = false → s = resetBlock s

/-- The invariants of 10_state.md R49, item by item. -/
structure ReachableInvariants (s : State) : Prop where
  a : s.rsValid = true → s.gfValid = true ∧
    s.g = genPoly (fieldOf s.gfPoly) s.rsNsym.toNat s.rsIndex.toNat
  b : s.gfValid = true → (2 ≤ s.gfM.toNat ∧ s.gfM.toNat ≤ 8) ∧
    2 ^ s.gfM.toNat ≤ s.gfPoly.toNat ∧ s.gfPoly.toNat < 2 ^ (s.gfM.toNat + 1)
  c : s.rsValid = true → (1 ≤ s.rsNsym.toNat ∧ s.rsNsym.toNat ≤ 255) ∧ s.rsIndex.toNat < 2 ^ s.gfM.toNat - 1
  d : s.pkState ≠ .idle → (1 ≤ s.pkW.toNat ∧ s.pkW.toNat ≤ 8) ∧ (1 ≤ s.pkCap.toNat ∧ s.pkCap.toNat ≤ 4095) ∧
    s.pkLen.toNat ≤ s.pkCap.toNat * s.pkW.toNat
  e : s.pkState = .done → s.pkLen.toNat = s.pkCap.toNat * s.pkW.toNat
  f : s.fault = false → s.faultCode = 0 ∧ s.faultCmd = 0
  g : s.fault = true → 0x01 ≤ s.faultCode.toNat ∧ s.faultCode.toNat ≤ 0x0B
  h : (s.gfValid = true → ∀ k, IsElement s.gfM.toNat (s.log.get k) ∧ IsElement s.gfM.toNat (s.alog.get k)) ∧
    (s.rsValid = true → ∀ k, IsElement s.gfM.toNat (s.g.get k) ∧ IsElement s.gfM.toNat (s.r.get k))

/-- The states of the runs from reset, whatever the block's seed (log entry 3): the machine steps, and at any time the
host asks for anything more. -/
inductive Reachable : State → Prop where
  | reset (seed : Nat) : Reachable { State.reset with seed := seed }
  | step {s t : State} : Reachable s → Machine.step s = .next t → Reachable t
  | post {s : State} (e : HostEvent) : Reachable s → Reachable (post e s)

/-- Two states that differ at most in arrays whose windows are gated: LOG and ALOG while GF_VALID = 0, G and R while
RS_VALID = 0, BB while the packer is IDLE (70_reset_and_hazards.md R261). -/
structure SameVisible (s t : State) : Prop where
  rest : s = { t with log := s.log, alog := s.alog, g := s.g, r := s.r, bb := s.bb }
  field : s.gfValid = true → s.log = t.log ∧ s.alog = t.alog
  generator : s.rsValid = true → s.g = t.g ∧ s.r = t.r
  buffer : s.pkState ≠ .idle → s.bb = t.bb

/-- The rows (match, mask) of the opcode map, as 30_encoding.md R101 lists them. -/
def opcodeMap : List (Word × Word) :=
  [(0x00000000, 0xFFFFFFFF), (0x01000000, 0xFFFF0000), (0x02000000, 0xFFFF0000), (0x03000000, 0xFFFF0000),
   (0x10000000, 0xFFFF0000), (0x11000000, 0xFFFFFFFF), (0x12000000, 0xFFFFFF00), (0x13000000, 0xFF000000),
   (0x20000000, 0xFF0FF000), (0x21000000, 0xFFF00000), (0x22000000, 0xFFFFFFFF)]

end Sys2Proof.Machine
end

