-- ==== Sys2Proof/Certificates/Slice0/Obligations.lean ====
section
/-! DEFINITION. The statements for the provers. Each docstring names the rule it comes from. Statements about the
machine are over every state; where one could fail only in a state no run reaches, the premise is a range that
10_state.md R49 gives, and R49 is a statement of its own. -/

open Sys2Proof Sys2Proof.Machine

/-! ### Encoding -/

/-- 30_encoding.md R92 to R101: no operand bit is dropped. -/
def Obligations.DecodeOfEncodeIsTheCommand : Prop :=
  ∀ i : Instr, decode (encode i) = .ok i

/-- 30_encoding.md R90, R91: a word that decodes is the word of its command, so FAULT_CMD of exec is that word. -/
def Obligations.EncodeOfDecodeIsTheWord : Prop :=
  ∀ (w : Word) (i : Instr), decode w = .ok i → encode i = w

/-- 30_encoding.md R92 to R99 with R101: a word is a command with given operands exactly when it is the number that
the command's format builds from its OPC and those operands, the reserved bits 0. So every field is read at its place
and width, and nothing else is accepted. -/
def Obligations.FieldsStandWhereTheFormatsPutThem : Prop :=
  ∀ w : Word,
    (decode w = .ok .nop ↔ w.toNat = 0x00 * 2 ^ 24) ∧
    (∀ poly, decode w = .ok (.gfInit poly) ↔ w.toNat = 0x01 * 2 ^ 24 + poly.toNat) ∧
    (∀ a b, decode w = .ok (.gfMul a b) ↔ w.toNat = 0x02 * 2 ^ 24 + a.toNat * 2 ^ 8 + b.toNat) ∧
    (∀ a b, decode w = .ok (.gfAdd a b) ↔ w.toNat = 0x03 * 2 ^ 24 + a.toNat * 2 ^ 8 + b.toNat) ∧
    (∀ nsym index, decode w = .ok (.rsInit nsym index) ↔
      w.toNat = 0x10 * 2 ^ 24 + index.toNat * 2 ^ 8 + nsym.toNat) ∧
    (decode w = .ok .rsClear ↔ w.toNat = 0x11 * 2 ^ 24) ∧
    (∀ d, decode w = .ok (.rsFeed d) ↔ w.toNat = 0x12 * 2 ^ 24 + d.toNat) ∧
    (∀ start count, decode w = .ok (.rsFeedcw start count) ↔
      w.toNat = 0x13 * 2 ^ 24 + start.toNat * 2 ^ 12 + count.toNat) ∧
    (∀ cw cap, decode w = .ok (.pkInit cw cap) ↔ w.toNat = 0x20 * 2 ^ 24 + cw.toNat * 2 ^ 20 + cap.toNat) ∧
    (∀ nm1 val, decode w = .ok (.pkAppend nm1 val) ↔ w.toNat = 0x21 * 2 ^ 24 + nm1.toNat * 2 ^ 16 + val.toNat) ∧
    (decode w = .ok .pkFinish ↔ w.toNat = 0x22 * 2 ^ 24)

/-- 30_encoding.md R101: the opcode map, row by row, and no word on two rows. -/
def Obligations.WordIsACommandExactlyWhenItsRowMatches : Prop :=
  (∀ w : Word,
    (w &&& 0xFFFFFFFF = 0x00000000 ↔ decode w = .ok .nop) ∧
    (w &&& 0xFFFF0000 = 0x01000000 ↔ ∃ poly, decode w = .ok (.gfInit poly)) ∧
    (w &&& 0xFFFF0000 = 0x02000000 ↔ ∃ a b, decode w = .ok (.gfMul a b)) ∧
    (w &&& 0xFFFF0000 = 0x03000000 ↔ ∃ a b, decode w = .ok (.gfAdd a b)) ∧
    (w &&& 0xFFFF0000 = 0x10000000 ↔ ∃ nsym index, decode w = .ok (.rsInit nsym index)) ∧
    (w &&& 0xFFFFFFFF = 0x11000000 ↔ decode w = .ok .rsClear) ∧
    (w &&& 0xFFFFFF00 = 0x12000000 ↔ ∃ d, decode w = .ok (.rsFeed d)) ∧
    (w &&& 0xFF000000 = 0x13000000 ↔ ∃ start count, decode w = .ok (.rsFeedcw start count)) ∧
    (w &&& 0xFF0FF000 = 0x20000000 ↔ ∃ cw cap, decode w = .ok (.pkInit cw cap)) ∧
    (w &&& 0xFFF00000 = 0x21000000 ↔ ∃ nm1 val, decode w = .ok (.pkAppend nm1 val)) ∧
    (w &&& 0xFFFFFFFF = 0x22000000 ↔ decode w = .ok .pkFinish)) ∧
  opcodeMap.Pairwise fun a b => ∀ w : Word, ¬(w &&& a.2 = a.1 ∧ w &&& b.2 = b.1)

/-- 30_encoding.md R109: the eight worked encodings: the assembler gives the word, and the word decodes to the command
it stands for. -/
def Obligations.WorkedEncodingsDecode : Prop :=
  ((assemble (.gfInit 0x11D)).map encode = some 0x0100011D ∧ decode 0x0100011D = .ok (.gfInit 0x11D)) ∧
  ((assemble (.gfMul 2 0x80)).map encode = some 0x02000280 ∧ decode 0x02000280 = .ok (.gfMul 2 0x80)) ∧
  ((assemble (.rsInit 10 0)).map encode = some 0x1000000A ∧ decode 0x1000000A = .ok (.rsInit 10 0)) ∧
  ((assemble (.rsFeedcw 0 16)).map encode = some 0x13000010 ∧ decode 0x13000010 = .ok (.rsFeedcw 0 16)) ∧
  ((assemble (.pkInit 8 16)).map encode = some 0x20800010 ∧ decode 0x20800010 = .ok (.pkInit 8 16)) ∧
  ((assemble (.pkAppend 4 0b0010)).map encode = some 0x21030002 ∧ decode 0x21030002 = .ok (.pkAppend 3 0b0010)) ∧
  ((assemble (.pkAppend 16 0xEC11)).map encode = some 0x210FEC11 ∧ decode 0x210FEC11 = .ok (.pkAppend 15 0xEC11)) ∧
  ((assemble .pkFinish).map encode = some 0x22000000 ∧ decode 0x22000000 = .ok .pkFinish)

/-- 30_encoding.md R102, R103: an unassigned OPC, or a word no row matches, is illegal; in flight with no fault
recorded it raises ILLEGAL_CMD and does nothing else. -/
def Obligations.IllegalWordRaisesIllegalCmd : Prop :=
  (∀ w : Word,
    ((0x04 ≤ (w >>> 24).toNat ∧ (w >>> 24).toNat ≤ 0x0F) ∨ (0x14 ≤ (w >>> 24).toNat ∧ (w >>> 24).toNat ≤ 0x1F) ∨
      0x23 ≤ (w >>> 24).toNat) → ∀ row ∈ opcodeMap, w &&& row.2 ≠ row.1) ∧
  ∀ (w : Word) (s : State), (∀ row ∈ opcodeMap, w &&& row.2 ≠ row.1) →
    s.rstN = true → s.pending = some w → s.fault = false →
    (s.inbox = [] ∨ ∃ a rest, s.inbox = .access a :: rest ∧ overtakes a = false) →
    step s = .next { s with fault := true, faultCode := 0x01, faultCmd := w, pending := none }

/-- 30_encoding.md R106: the assembler refuses exactly the operands that do not fit, and the word is R106's sum. -/
def Obligations.AssemblerRefusesWhatDoesNotFit : Prop :=
  (∀ poly, (poly > 0xFFFF → assemble (.gfInit poly) = none) ∧
    (poly ≤ 0xFFFF → ∃ i, assemble (.gfInit poly) = some i ∧ (encode i).toNat = 0x01 <<< 24 ||| poly)) ∧
  (∀ a b, (a > 0xFF ∨ b > 0xFF → assemble (.gfMul a b) = none ∧ assemble (.gfAdd a b) = none) ∧
    (a ≤ 0xFF → b ≤ 0xFF →
      (∃ i, assemble (.gfMul a b) = some i ∧ (encode i).toNat = 0x02 <<< 24 ||| a <<< 8 ||| b) ∧
      ∃ i, assemble (.gfAdd a b) = some i ∧ (encode i).toNat = 0x03 <<< 24 ||| a <<< 8 ||| b)) ∧
  (∀ nsym index, (nsym > 0xFF ∨ index > 0xFF → assemble (.rsInit nsym index) = none) ∧
    (nsym ≤ 0xFF → index ≤ 0xFF →
      ∃ i, assemble (.rsInit nsym index) = some i ∧ (encode i).toNat = 0x10 <<< 24 ||| index <<< 8 ||| nsym)) ∧
  (∀ d, (d > 0xFF → assemble (.rsFeed d) = none) ∧
    (d ≤ 0xFF → ∃ i, assemble (.rsFeed d) = some i ∧ (encode i).toNat = 0x12 <<< 24 ||| d)) ∧
  (∀ start count, (start > 0xFFF ∨ count > 0xFFF → assemble (.rsFeedcw start count) = none) ∧
    (start ≤ 0xFFF → count ≤ 0xFFF →
      ∃ i, assemble (.rsFeedcw start count) = some i ∧ (encode i).toNat = 0x13 <<< 24 ||| start <<< 12 ||| count)) ∧
  (∀ w cap, (w > 0xF ∨ cap > 0xFFF → assemble (.pkInit w cap) = none) ∧
    (w ≤ 0xF → cap ≤ 0xFFF →
      ∃ i, assemble (.pkInit w cap) = some i ∧ (encode i).toNat = 0x20 <<< 24 ||| w <<< 20 ||| cap)) ∧
  (∀ n val, (n < 1 ∨ 16 < n ∨ val > 0xFFFF → assemble (.pkAppend n val) = none) ∧
    (1 ≤ n → n ≤ 16 → val ≤ 0xFFFF →
      ∃ i, assemble (.pkAppend n val) = some i ∧ (encode i).toNat = 0x21 <<< 24 ||| (n - 1) <<< 16 ||| val)) ∧
  (∃ i, assemble .nop = some i ∧ encode i = 0x00000000) ∧
  (∃ i, assemble .rsClear = some i ∧ encode i = 0x11000000) ∧
  (∃ i, assemble .pkFinish = some i ∧ encode i = 0x22000000)

/-! ### The step -/

/-- 70_reset_and_hazards.md R267, R266: with a command in flight that decodes, and nothing at the head of the inbox
that does not wait for it, a step is exec of that command; and withFetchWord puts a command exactly there. -/
def Obligations.StepRunsTheDecodedCommand : Prop :=
  (∀ (s : State) (w : Word) (i : Instr), s.rstN = true → s.pending = some w → decode w = .ok i →
    (s.inbox = [] ∨ ∃ a rest, s.inbox = .access a :: rest ∧ overtakes a = false) → step s = exec i s) ∧
  ∀ (s : State) (nbits w : Nat) (i : Instr), decodeTableWord nbits w = some i →
    step (s.withFetchWord nbits w) = exec i (s.withFetchWord nbits w)

/-- 60_exceptions.md R230, R231, 20_memory.md R81: no command ends a run, and a step stops only for an access that the
host presents while rst_n = 0, which the spec leaves to the platform (93_implementation_defined.md U8). -/
def Obligations.OnlyAnAccessDuringResetStopsARun : Prop :=
  (∀ (i : Instr) (s : State), ∃ t, exec i s = .next t) ∧
  ∀ s : State,
    ((∃ t, step s = .next t) ↔ ¬(s.rstN = false ∧ ∃ a rest, s.inbox = .access a :: rest)) ∧
    ∀ a rest, s.rstN = false → s.inbox = .access a :: rest → step s = .refused .accessDuringReset

/-- 70_reset_and_hazards.md R266: an access other than a read of ID, PARAM or STATUS waits for the command in flight:
it keeps its place while the command completes, and the step after that serves it. That a sub-word or misaligned
access waits too, whatever its offset, is the model's reading (log entry 3). -/
def Obligations.OtherAccessesWaitForTheCommand : Prop :=
  ∀ (s : State) (w : Word) (a : Access) (rest : List HostEvent),
    s.rstN = true → s.pending = some w → s.inbox = .access a :: rest →
    ¬(a.size = .word ∧ a.write = false ∧ (a.addr = 0x0000 ∨ a.addr = 0x0004 ∨ a.addr = 0x000C)) →
    ready s a = false ∧
    ∃ t, step s = .next t ∧ t.pending = none ∧ t.inbox = s.inbox ∧ t.responses = s.responses ∧ ready t a = true ∧
      ∃ u, step t = .next u ∧ u.inbox = rest ∧ u.responses = t.responses ++ [response a t]

/-- 70_reset_and_hazards.md R265: a read of STATUS made while a command is in flight is served before it, with BUSY = 1
and every other field as it was, or after it completes. -/
def Obligations.StatusReadMayOvertakeTheCommand : Prop :=
  ∀ (s : State) (w wd : Word) (rest : List HostEvent),
    s.rstN = true → s.pending = some w → s.inbox = .access ⟨false, 0x000C, .word, wd⟩ :: rest →
    let pk : BitVec 2 := match s.pkState with
      | .idle => 0
      | .open => 1
      | .done => 2
    step s = .next { s with
        inbox := rest
        responses := s.responses ++
          [.data (0#16 ++ s.faultCode ++ 0#2 ++ pk ++ BitVec.ofBool s.rsValid ++
            BitVec.ofBool s.gfValid ++ BitVec.ofBool s.fault ++ 1#1)]
        overtaken := s.overtaken + 1 } ∨
    step s = completeWord w s

/-- 70_reset_and_hazards.md R267: no command is in flight for ever: within as many steps as the host has events and one
more, pending is empty, because the command completed or a reset input among the events abandoned it (R262). When the
host's events are accesses alone, the command completes within its latency and one step more, however many they are.
The latency, the number of reads one command lets pass, is the model's choice (log entry 3); its value is free. -/
def Obligations.EveryCommandCompletes : Prop :=
  ∀ (s : State) (w : Word), s.rstN = true → s.pending = some w →
    (∃ n t, n ≤ s.inbox.length + 1 ∧ core.run n s = .next t ∧ t.pending = none) ∧
    ((∀ e ∈ s.inbox, ∃ a, e = .access a) →
      ∃ n t, n ≤ Config.latency s.seed s.draws - s.overtaken + 1 ∧ core.run n s = .next t ∧ t.pending = none)

/-! ### Host accesses -/

/-- 20_memory.md R62, R63: an access of another size or a misaligned one gets an error response and changes no state. -/
def Obligations.IllegalAccessGetsAnErrorResponse : Prop :=
  (∀ (s : State) (a : Access) (rest : List HostEvent), s.rstN = true → s.pending = none →
    s.inbox = .access a :: rest → (a.size ≠ .word ∨ a.addr.toNat % 4 ≠ 0) →
    step s = .next { s with inbox := rest, responses := s.responses ++ [.error] }) ∧
  Response.error.err = true ∧ Response.error.rdata = some 0

/-- 20_memory.md R67: a read has no side effect: a legal read adds its response and nothing else, whether it finds no
command in flight or overtakes one (the counter overtaken is the model's own, log entry 3), and every register reads
the same after it, so reads are idempotent. -/
def Obligations.ReadsHaveNoSideEffect : Prop :=
  ∀ (s : State) (off : BitVec 15) (wd : Word) (rest : List HostEvent), s.rstN = true →
    s.inbox = .access ⟨false, off, .word, wd⟩ :: rest → off.toNat % 4 = 0 →
    (s.pending = none → step s = .next { s with inbox := rest, responses := s.responses ++ [.data (regRead s off)] }) ∧
    (∀ w, s.pending = some w →
      step s = .next { s with
        inbox := rest
        responses := s.responses ++ [.data (regRead s off)]
        overtaken := s.overtaken + 1 } ∨
      step s = completeWord w s) ∧
    ∀ (off' : BitVec 15) (ib : List HostEvent) (rs : List Response) (n : Nat),
      regRead { s with inbox := ib, responses := rs, overtaken := n } off' = regRead s off'

/-- 20_memory.md R65, R68, 10_state.md R50: a served legal write does its RegWrite and is answered, and nothing else
happens; outside CTRL, CMD, PK_TERM and PK_FILL it changes no state. -/
def Obligations.OnlyFourRegistersActOnAWrite : Prop :=
  ∀ (s : State) (off : BitVec 15) (v : Word) (rest : List HostEvent), s.rstN = true → s.pending = none →
    s.inbox = .access ⟨true, off, .word, v⟩ :: rest → off.toNat % 4 = 0 →
    step s = .next { regWrite off v { s with inbox := rest } with responses := s.responses ++ [.written] } ∧
    (off ≠ 0x0008 → off ≠ 0x0010 → off ≠ 0x003C → off ≠ 0x0040 →
      step s = .next { s with inbox := rest, responses := s.responses ++ [.written] })

/-- 10_state.md R28, R48, 30_encoding.md R90: a write to CMD puts the word in flight and makes BUSY 1; nothing else of
the block changes. Two writes of one word are two commands (20_memory.md R68). -/
def Obligations.CmdWritePutsTheWordInFlight : Prop :=
  ∀ (s : State) (v : Word) (rest : List HostEvent), s.rstN = true → s.pending = none →
    s.inbox = .access ⟨true, 0x0010, .word, v⟩ :: rest →
    ∃ t, step s = .next t ∧ busy t = true ∧
      t = { s with
        pending := some v
        inbox := rest
        responses := s.responses ++ [.written]
        draws := s.draws + 1
        overtaken := 0 }

/-- 20_memory.md R64 with 10_state.md R41 to R46, R50 and 42_rs.md R189: what a read of every offset returns. -/
def Obligations.RegisterReadsFollowTheMap : Prop :=
  ∀ s : State,
    let pk : BitVec 2 := match s.pkState with
      | .idle => 0
      | .open => 1
      | .done => 2
    regRead s 0x0000 = 0x52530001 ∧ regRead s 0x0004 = 0x0FFFFF88 ∧
    regRead s 0x0008 = (if s.irqEn then 1 else 0) ∧
    regRead s 0x000C = 0#16 ++ s.faultCode ++ 0#2 ++ pk ++ BitVec.ofBool s.rsValid ++
      BitVec.ofBool s.gfValid ++ BitVec.ofBool s.fault ++ BitVec.ofBool s.pending.isSome ∧
    regRead s 0x0010 = 0 ∧ regRead s 0x0014 = s.faultCmd ∧
    (regRead s 0x0018).toNat = s.result.toNat ∧ (regRead s 0x001C).toNat = s.gfPoly.toNat ∧
    (regRead s 0x0020).toNat = s.gfM.toNat ∧ (regRead s 0x0024).toNat = s.rsNsym.toNat ∧
    (regRead s 0x0028).toNat = s.rsIndex.toNat ∧ regRead s 0x002C = s.rsCount ∧
    (regRead s 0x0030).toNat = s.pkW.toNat ∧ (regRead s 0x0034).toNat = s.pkCap.toNat ∧
    (regRead s 0x0038).toNat = s.pkLen.toNat ∧
    regRead s 0x003C = 0#7 ++ BitVec.ofBool s.tmode ++ 0#3 ++ s.tlen ++ s.tval ∧
    regRead s 0x0040 = 0#11 ++ s.flen ++ s.fval ∧
    (∀ k < 256,
      (regRead s (BitVec.ofNat 15 (0x0400 + 4 * k))).toNat = (if s.gfValid then (s.log.get k).toNat else 0) ∧
      (regRead s (BitVec.ofNat 15 (0x0800 + 4 * k))).toNat = (if s.gfValid then (s.alog.get k).toNat else 0) ∧
      (regRead s (BitVec.ofNat 15 (0x0C00 + 4 * k))).toNat = (if s.rsValid then (s.g.get k).toNat else 0) ∧
      (regRead s (BitVec.ofNat 15 (0x1000 + 4 * k))).toNat = (if s.rsValid then (s.r.get k).toNat else 0) ∧
      (regRead s (BitVec.ofNat 15 (0x1400 + 4 * k))).toNat =
        (if s.rsValid ∧ k < s.rsNsym.toNat then (s.r.get (s.rsNsym.toNat - 1 - k)).toNat else 0)) ∧
    (∀ i < 4096, regRead s (BitVec.ofNat 15 (0x4000 + 4 * i)) = cwWin s i) ∧
    ∀ off : BitVec 15, off.toNat % 4 = 0 →
      (0x0044 ≤ off.toNat ∧ off.toNat ≤ 0x03FC) ∨ (0x1800 ≤ off.toNat ∧ off.toNat ≤ 0x3FFC) → regRead s off = 0

/-- 40_packer.md R128: the CW window, bit by bit: below PK_CAP in OPEN and DONE a codeword has its most significant
bit at its lowest position of BB and is below 2^pk_w; elsewhere the window reads 0. -/
def Obligations.CodewordWindowSlicesTheBuffer : Prop :=
  ∀ (s : State) (i : Nat), i < 4096 → s.pkW.toNat ≤ 8 →
    (s.pkState ≠ .idle ∧ i < s.pkCap.toNat →
      (∀ j, (regRead s (BitVec.ofNat 15 (0x4000 + 4 * i))).getLsbD j =
        if j < s.pkW.toNat then s.bb.getLsbD (i * s.pkW.toNat + (s.pkW.toNat - 1 - j)) else false) ∧
      (regRead s (BitVec.ofNat 15 (0x4000 + 4 * i))).toNat < 2 ^ s.pkW.toNat) ∧
    (¬(s.pkState ≠ .idle ∧ i < s.pkCap.toNat) → regRead s (BitVec.ofNat 15 (0x4000 + 4 * i)) = 0)

/-- 10_state.md R39, R40, 20_memory.md R65: PK_TERM and PK_FILL store their fields whatever their values, in every
packer state and while FAULT = 1; they read back less the reserved bits; nothing else changes. -/
def Obligations.TermAndFillStoreTheirFields : Prop :=
  ∀ (s : State) (v : Word),
    regWrite 0x003C v s =
      { s with tval := v.extractLsb' 0 16, tlen := v.extractLsb' 16 5, tmode := v.getLsbD 24 } ∧
    regRead (regWrite 0x003C v s) 0x003C = v &&& 0x011FFFFF ∧
    regWrite 0x0040 v s = { s with fval := v.extractLsb' 0 16, flen := v.extractLsb' 16 5 } ∧
    regRead (regWrite 0x0040 v s) 0x0040 = v &&& 0x001FFFFF

/-- 43_control.md R211 to R214: what a CTRL write does. The contents of the unspecified arrays after SOFT_RESET, zero in
State.reset, are the model's choice (log entry 1). -/
def Obligations.CtrlWriteActs : Prop :=
  ∀ (s : State) (v : Word),
    (v.getLsbD 9 = true → regWrite 0x0008 v s =
      { State.reset with
        rstN := s.rstN
        inbox := s.inbox
        responses := s.responses
        draws := s.draws
        overtaken := s.overtaken
        seed := s.seed }) ∧
    (v.getLsbD 9 = false → v.getLsbD 8 = true → regWrite 0x0008 v s =
      { s with irqEn := v.getLsbD 0, fault := false, faultCode := 0, faultCmd := 0 }) ∧
    (v.getLsbD 9 = false → v.getLsbD 8 = false → regWrite 0x0008 v s = { s with irqEn := v.getLsbD 0 }) ∧
    (regRead (regWrite 0x0008 v s) 0x0008 = if v.getLsbD 9 = false ∧ v.getLsbD 0 = true then 1 else 0)

/-! ### Faults and the interrupt -/

/-- 60_exceptions.md R234: which fault a command reports, its checks in order; and whether it reports one at all. -/
def Obligations.FirstFailingCheckIsReported : Prop :=
  ∀ (w : Word) (s : State),
    let outside := fun v : Nat => 2 ^ s.gfM.toNat ≤ v
    let code : Option Nat := match decode w with
      | .error _ => some 0x01
      | .ok .nop => none
      | .ok (.gfInit poly) =>
        if poly.toNat < 4 ∨ 511 < poly.toNat then some 0x02 else if isPrimitive poly = false then some 0x03 else none
      | .ok (.gfMul a b) =>
        if s.gfValid = false then some 0x04 else if outside a.toNat ∨ outside b.toNat then some 0x05 else none
      | .ok (.gfAdd a b) =>
        if s.gfValid = false then some 0x04 else if outside a.toNat ∨ outside b.toNat then some 0x05 else none
      | .ok (.rsInit nsym _) =>
        if s.gfValid = false then some 0x04 else if nsym.toNat = 0 then some 0x06 else none
      | .ok .rsClear => if s.rsValid = false then some 0x07 else none
      | .ok (.rsFeed d) =>
        if s.rsValid = false then some 0x07 else if outside d.toNat then some 0x05 else none
      | .ok (.rsFeedcw start count) =>
        if s.rsValid = false then some 0x07
        else if s.pkState ≠ .done then some 0x0A
        else if start.toNat + count.toNat > s.pkCap.toNat then some 0x0B
        else if (List.range count.toNat).any (fun j => outside (cwWin s (start.toNat + j)).toNat) then some 0x05
        else none
      | .ok (.pkInit cw cap) =>
        if cw.toNat = 0 ∨ 8 < cw.toNat ∨ cap.toNat = 0 then some 0x08 else none
      | .ok (.pkAppend nm1 _) =>
        if s.pkState ≠ .open then some 0x0A
        else if s.pkLen.toNat + (nm1.toNat + 1) > s.pkCap.toNat * s.pkW.toNat then some 0x09 else none
      | .ok .pkFinish =>
        if s.pkState ≠ .open then some 0x0A
        else if 16 < s.tlen.toNat ∨ s.flen.toNat = 0 ∨ 16 < s.flen.toNat then some 0x08 else none
    (s.fault = true → completeWord w s = .next { s with pending := none }) ∧
    (s.fault = false → ∀ c, code = some c → completeWord w s = .next (faultEntry (BitVec.ofNat 8 c) w s)) ∧
    (s.fault = false → code = none → ∃ t, completeWord w s = .next t ∧ t.fault = false ∧ t.pending = none)

/-- 60_exceptions.md R231, R235: faults are precise. A step that records a fault writes the record, empties pending and
changes nothing else; the code is one of R232's and FAULT_CMD is the word that was in flight. -/
def Obligations.FaultsArePrecise : Prop :=
  ∀ s t : State, s.fault = false → step s = .next t → t.fault = true →
    ∃ w c, s.pending = some w ∧ 0x01 ≤ c ∧ c ≤ 0x0B ∧ t = faultEntry (BitVec.ofNat 8 c) w s

/-- 60_exceptions.md R233: while FAULT = 1 every command is discarded: it completes with no effect and no new fault. -/
def Obligations.CommandsAreDiscardedWhileFault : Prop :=
  ∀ (s : State) (w : Word), s.rstN = true → s.pending = some w → s.fault = true →
    (s.inbox = [] ∨ ∃ a rest, s.inbox = .access a :: rest ∧ overtakes a = false) →
    step s = .next { s with pending := none }

/-- 60_exceptions.md R237: irq is a level, irq_en and fault: it rises when a fault is recorded with IRQ_EN = 1 or when
IRQ_EN is set with FAULT = 1, and falls at CLR_FAULT, when IRQ_EN is cleared, and at reset. -/
def Obligations.InterruptFollowsEnableAndFault : Prop :=
  (∀ s : State, irq s = true ↔ s.irqEn = true ∧ s.fault = true) ∧
  (∀ s t : State, step s = .next t → s.fault = false → t.fault = true → irq s = false ∧ irq t = s.irqEn) ∧
  (∀ (s : State) (v : Word), s.fault = true → v.getLsbD 9 = false → v.getLsbD 8 = false →
    irq (regWrite 0x0008 v s) = v.getLsbD 0) ∧
  (∀ (s : State) (v : Word), (v.getLsbD 9 = true ∨ v.getLsbD 8 = true) → irq (regWrite 0x0008 v s) = false) ∧
  irq State.reset = false

/-! ### GF commands -/

/-- 43_control.md R210: NOP has no effect; it completes. -/
def Obligations.NopOnlyCompletes : Prop :=
  ∀ s : State, exec .nop s = .next { s with pending := none }

/-- 41_gf.md R153: the step of the power sequence, and the sequence. Below 2^m, with POLY of degree m, the next power is
2p when that is below 2^m, else 2p xor POLY; it stays below 2^m; and x^0 = 1. The other statements about the field speak
of these powers. -/
def Obligations.PowersOfXReduceByThePolynomial : Prop :=
  ∀ (poly : BitVec 16) (m : Nat), 1 ≤ m → 2 ^ m ≤ poly.toNat → poly.toNat < 2 ^ (m + 1) →
    (∀ p : BitVec 16, p.toNat < 2 ^ m →
      (timesX poly m p).toNat = (if 2 * p.toNat < 2 ^ m then 2 * p.toNat else (2 * p.toNat) ^^^ poly.toNat) ∧
      (timesX poly m p).toNat < 2 ^ m) ∧
    xPow poly m 0 = 1 ∧
    ∀ e, (xPow poly m e).toNat < 2 ^ m ∧ xPow poly m (e + 1) = timesX poly m (xPow poly m e)

/-- 41_gf.md R151 to R154 with 10_state.md R41, R42: GF_INIT on a polynomial of degree m in 2..8 whose powers of x are
pairwise distinct and nonzero builds the tables: ALOG[e] = α^e below LOGMOD and 0 from there, LOG[α^e] = e, LOG[0] = 0
and LOG[a] = 0 past LOGMOD; GF_VALID becomes 1 and RS_VALID 0; nothing else changes. -/
def Obligations.GfInitBuildsTheField : Prop :=
  ∀ (s : State) (poly : BitVec 16) (m : Nat), s.fault = false → 2 ≤ m → m ≤ 8 →
    2 ^ m ≤ poly.toNat → poly.toNat < 2 ^ (m + 1) →
    (∀ i j, i < 2 ^ m - 1 → j < 2 ^ m - 1 → xPow poly m i = xPow poly m j → i = j) →
    (∀ i, i < 2 ^ m - 1 → xPow poly m i ≠ 0) →
    ∃ lg al : Table,
      exec (.gfInit poly) s = .next { s with
        log := lg
        alog := al
        gfPoly := poly
        gfM := BitVec.ofNat 4 m
        gfValid := true
        rsValid := false
        pending := none } ∧
      (∀ e, e < 2 ^ m - 1 → (al.get e).toNat = (xPow poly m e).toNat ∧
        (lg.get (xPow poly m e).toNat).toNat = e) ∧
      (∀ e, 2 ^ m - 1 ≤ e → al.get e = 0) ∧
      lg.get 0 = 0 ∧ (∀ a, 2 ^ m ≤ a → lg.get a = 0)

/-- 41_gf.md R151, R152, R154: GF_INIT faults BAD_POLY outside 4..511, and NOT_PRIMITIVE when a power of x below LOGMOD
repeats or is 0; the old field is kept. -/
def Obligations.GfInitRefusesABadPolynomial : Prop :=
  (∀ (s : State) (poly : BitVec 16), s.fault = false → (poly.toNat < 4 ∨ 511 < poly.toNat) →
    exec (.gfInit poly) s = .next (faultEntry 0x02 (encode (.gfInit poly)) s)) ∧
  ∀ (s : State) (poly : BitVec 16) (m : Nat), s.fault = false → 2 ≤ m → m ≤ 8 →
    2 ^ m ≤ poly.toNat → poly.toNat < 2 ^ (m + 1) →
    ((∃ i j, i < j ∧ j < 2 ^ m - 1 ∧ xPow poly m i = xPow poly m j) ∨ (∃ i, i < 2 ^ m - 1 ∧ xPow poly m i = 0)) →
    exec (.gfInit poly) s = .next (faultEntry 0x03 (encode (.gfInit poly)) s)

/-- 41_gf.md R157, R155: what GF_MUL does when no fault is recorded. -/
def Obligations.GfMulGivesTheTableProduct : Prop :=
  ∀ (s : State) (a b : BitVec 8), s.fault = false →
    (s.gfValid = false → exec (.gfMul a b) s = .next (faultEntry 0x04 (encode (.gfMul a b)) s)) ∧
    (s.gfValid = true → (2 ^ s.gfM.toNat ≤ a.toNat ∨ 2 ^ s.gfM.toNat ≤ b.toNat) →
      exec (.gfMul a b) s = .next (faultEntry 0x05 (encode (.gfMul a b)) s)) ∧
    (s.gfValid = true → a.toNat < 2 ^ s.gfM.toNat → b.toNat < 2 ^ s.gfM.toNat →
      exec (.gfMul a b) s = .next { s with
        result := if a = 0 ∨ b = 0 then 0
          else s.alog.get (((s.log.get a.toNat).toNat + (s.log.get b.toNat).toNat) % (2 ^ s.gfM.toNat - 1))
        pending := none })

/-- 41_gf.md R158, R156: what GF_ADD does when no fault is recorded. -/
def Obligations.GfAddGivesTheExclusiveOr : Prop :=
  ∀ (s : State) (a b : BitVec 8), s.fault = false →
    (s.gfValid = false → exec (.gfAdd a b) s = .next (faultEntry 0x04 (encode (.gfAdd a b)) s)) ∧
    (s.gfValid = true → (2 ^ s.gfM.toNat ≤ a.toNat ∨ 2 ^ s.gfM.toNat ≤ b.toNat) →
      exec (.gfAdd a b) s = .next (faultEntry 0x05 (encode (.gfAdd a b)) s)) ∧
    (s.gfValid = true → a.toNat < 2 ^ s.gfM.toNat → b.toNat < 2 ^ s.gfM.toNat →
      exec (.gfAdd a b) s = .next { s with result := a ^^^ b, pending := none })

/-- 41_gf.md R155: on the tables GF_INIT builds, ⊗ is the product of polynomials over GF(2) reduced modulo P. -/
def Obligations.TableProductIsThePolynomialProduct : Prop :=
  ∀ (poly : BitVec 16), AcceptedPoly poly → ∀ a b : Byte,
    IsElement (degree poly) a → IsElement (degree poly) b →
    (gfMul (fieldOf poly) a b).setWidth 16 =
      mulMod poly (degree poly) (degree poly) (a.setWidth 16) (b.setWidth 16)

/-- 41_gf.md R159: the laws of the field, for every accepted polynomial. -/
def Obligations.FieldLawsHold : Prop :=
  ∀ (poly : BitVec 16), AcceptedPoly poly →
    let f := fieldOf poly
    let lm := 2 ^ degree poly - 1
    (∀ a b c : Byte, IsElement (degree poly) a → IsElement (degree poly) b → IsElement (degree poly) c →
      gfAdd a b = gfAdd b a ∧ gfMul f a b = gfMul f b a ∧
      gfAdd (gfAdd a b) c = gfAdd a (gfAdd b c) ∧ gfMul f (gfMul f a b) c = gfMul f a (gfMul f b c) ∧
      gfMul f a (gfAdd b c) = gfAdd (gfMul f a b) (gfMul f a c) ∧
      gfAdd a 0 = a ∧ gfAdd a a = 0 ∧ gfMul f a 1 = a ∧ gfMul f a 0 = 0 ∧
      (a ≠ 0 → gfMul f a (f.alog.get ((lm - (f.log.get a.toNat).toNat) % lm)) = 1) ∧
      (a ≠ 0 → f.alog.get (f.log.get a.toNat).toNat = a) ∧
      IsElement (degree poly) (gfAdd a b) ∧ IsElement (degree poly) (gfMul f a b)) ∧
    (∀ e, e < lm → (f.log.get (f.alog.get e).toNat).toNat = e) ∧
    ∀ e, gfPow f 2 e = f.alog.get (e % lm)

/-! ### RS commands -/

/-- 42_rs.md R181: what RS_INIT does when no fault is recorded. -/
def Obligations.RsInitBuildsTheGenerator : Prop :=
  ∀ (s : State) (nsym index : BitVec 8), s.fault = false →
    (s.gfValid = false → exec (.rsInit nsym index) s = .next (faultEntry 0x04 (encode (.rsInit nsym index)) s)) ∧
    (s.gfValid = true → nsym = 0 →
      exec (.rsInit nsym index) s = .next (faultEntry 0x06 (encode (.rsInit nsym index)) s)) ∧
    (s.gfValid = true → nsym ≠ 0 → ∃ rem : Table,
      exec (.rsInit nsym index) s = .next { s with
        g := genPoly (currentField s) nsym.toNat (index.toNat % (2 ^ s.gfM.toNat - 1))
        r := rem
        rsNsym := nsym
        rsIndex := BitVec.ofNat 8 (index.toNat % (2 ^ s.gfM.toNat - 1))
        rsCount := 0
        rsValid := true
        pending := none } ∧
      ∀ k, rem.get k = 0)

/-- 42_rs.md R183: the generator's coefficients are those of the product of (x ⊕ α^((idx+i) mod LOGMOD)) for i below
nsym. -/
def Obligations.GeneratorIsTheProductOfItsFactors : Prop :=
  ∀ (poly : BitVec 16) (nsym idx : Nat), AcceptedPoly poly → 1 ≤ nsym → nsym ≤ 255 → idx < logMod (degree poly) →
    let f := fieldOf poly
    coefficients (genPoly f nsym idx) nsym =
      (List.range nsym).foldl (fun p i => polyMul f p [1, f.alog.get ((idx + i) % logMod (degree poly))]) [1]

/-- 42_rs.md R182, 10_state.md R43: the generator is monic of degree nsym, 0 above, with a constant term that is not
0. -/
def Obligations.GeneratorIsMonic : Prop :=
  ∀ (poly : BitVec 16) (nsym idx : Nat), AcceptedPoly poly → 1 ≤ nsym → nsym ≤ 255 → idx < logMod (degree poly) →
    let g := genPoly (fieldOf poly) nsym idx
    g.get nsym = 1 ∧ (∀ k, nsym < k → g.get k = 0) ∧ g.get 0 ≠ 0 ∧ ∀ k, IsElement (degree poly) (g.get k)

/-- 42_rs.md R184: what RS_CLEAR does when no fault is recorded. -/
def Obligations.RsClearRestartsTheBlock : Prop :=
  ∀ s : State, s.fault = false →
    (s.rsValid = false → exec .rsClear s = .next (faultEntry 0x07 (encode .rsClear) s)) ∧
    (s.rsValid = true → ∃ rem : Table,
      exec .rsClear s = .next { s with r := rem, rsCount := 0, pending := none } ∧ ∀ k, rem.get k = 0)

/-- 42_rs.md R185, R186: what RS_FEED does when no fault is recorded: the remainder shifts up one degree and the
feedback symbol times the generator is subtracted, every coefficient from the old ones. -/
def Obligations.RsFeedDividesOneSymbol : Prop :=
  ∀ (s : State) (d : BitVec 8), s.fault = false → 1 ≤ s.rsNsym.toNat →
    (s.rsValid = false → exec (.rsFeed d) s = .next (faultEntry 0x07 (encode (.rsFeed d)) s)) ∧
    (s.rsValid = true → 2 ^ s.gfM.toNat ≤ d.toNat →
      exec (.rsFeed d) s = .next (faultEntry 0x05 (encode (.rsFeed d)) s)) ∧
    (s.rsValid = true → d.toNat < 2 ^ s.gfM.toNat → ∃ rem : Table,
      exec (.rsFeed d) s = .next { s with r := rem, rsCount := s.rsCount + 1, pending := none } ∧
      ∀ k, rem.get k =
        let fb := s.r.get (s.rsNsym.toNat - 1) ^^^ d
        if k = 0 then gfMul (currentField s) fb (s.g.get 0)
        else if k < s.rsNsym.toNat then s.r.get (k - 1) ^^^ gfMul (currentField s) fb (s.g.get k)
        else s.r.get k)

/-- 42_rs.md R187: RS_FEEDCW that passes its checks runs, adds COUNT to RS_COUNT, leaves all but R, RS_COUNT and
pending as they were, and gives the same state as COUNT RS_FEED commands with the same values. -/
def Obligations.RsFeedcwIsThatManyFeeds : Prop :=
  ∀ (s : State) (start count : BitVec 12), s.fault = false → s.rsValid = true → s.pkState = .done →
    s.gfM.toNat ≤ 8 → start.toNat + count.toNat ≤ s.pkCap.toNat →
    (∀ j, j < count.toNat → (cwWin s (start.toNat + j)).toNat < 2 ^ s.gfM.toNat) →
    ∃ t, exec (.rsFeedcw start count) s = .next t ∧
      t = { s with r := t.r, rsCount := s.rsCount + BitVec.ofNat 32 count.toNat, pending := none } ∧
      feedEach ((List.range count.toNat).map fun j => (cwWin s (start.toNat + j)).setWidth 8)
        { s with pending := none } = .next t

/-- 42_rs.md R187, R188: where RS_FEEDCW faults, with nothing divided. -/
def Obligations.RsFeedcwChecksEverythingFirst : Prop :=
  ∀ (s : State) (start count : BitVec 12), s.fault = false →
    let w := encode (.rsFeedcw start count)
    (s.rsValid = false → exec (.rsFeedcw start count) s = .next (faultEntry 0x07 w s)) ∧
    (s.rsValid = true → s.pkState ≠ .done → exec (.rsFeedcw start count) s = .next (faultEntry 0x0A w s)) ∧
    (s.rsValid = true → s.pkState = .done → s.pkCap.toNat < start.toNat + count.toNat →
      exec (.rsFeedcw start count) s = .next (faultEntry 0x0B w s)) ∧
    (s.rsValid = true → s.pkState = .done → start.toNat + count.toNat ≤ s.pkCap.toNat →
      (∃ j, j < count.toNat ∧ 2 ^ s.gfM.toNat ≤ (cwWin s (start.toNat + j)).toNat) →
      exec (.rsFeedcw start count) s = .next (faultEntry 0x05 w s))

/-- 42_rs.md R191: the data followed by the ECC is a multiple of the generator, so the remainder register holds
D(x) ⊗ x^nsym mod G(x): it has degree below nsym and differs from D(x) ⊗ x^nsym by a multiple of G(x). -/
def Obligations.CodewordIsAMultipleOfTheGenerator : Prop :=
  ∀ (poly : BitVec 16) (nsym idx : Nat) (ds : List Byte), AcceptedPoly poly → 1 ≤ nsym → nsym ≤ 255 →
    idx < logMod (degree poly) → (∀ d ∈ ds, IsElement (degree poly) d) →
    let f := fieldOf poly
    let g := genPoly f nsym idx
    ∃ q : List Byte, q.length = ds.length ∧ (∀ c ∈ q, IsElement (degree poly) c) ∧
      polyMul f q (coefficients g nsym) = ds ++ eccOf f g nsym ds

/-- 42_rs.md R190: the systematic codeword is the data symbols in the order fed, then the ECC window in order. From any
state with a generator, RS_CLEAR and an RS_FEED of each symbol leave the ECC of exactly those symbols in the window; and
so do RS_CLEAR and RS_FEEDCW for the packer's codewords of the range, whatever else the packer holds (R193). -/
def Obligations.SystematicCodewordIsDataThenEcc : Prop :=
  ∀ s : State, s.fault = false → s.rsValid = true →
    let ecc := fun (ds : List Byte) => eccOf (currentField s) s.g s.rsNsym.toNat ds
    (∀ ds : List Byte, (∀ d ∈ ds, IsElement s.gfM.toNat d) → ∃ u t,
      exec .rsClear s = .next u ∧ feedEach ds u = .next t ∧ t.fault = false ∧
      t.rsCount = BitVec.ofNat 32 ds.length ∧
      systematicCodeword ds t = (ds ++ ecc ds).map (BitVec.setWidth 32) ∧
      (List.range s.rsNsym.toNat).map (fun j => regRead t (BitVec.ofNat 15 (0x1400 + 4 * j))) =
        (ecc ds).map (BitVec.setWidth 32)) ∧
    ∀ start count : BitVec 12, s.pkState = .done → s.gfM.toNat ≤ 8 → start.toNat + count.toNat ≤ s.pkCap.toNat →
      (∀ j, j < count.toNat → (cwWin s (start.toNat + j)).toNat < 2 ^ s.gfM.toNat) → ∃ u t,
      exec .rsClear s = .next u ∧ exec (.rsFeedcw start count) u = .next t ∧ t.fault = false ∧
      systematicCodeword (fedRange s start.toNat count.toNat) t =
        (List.range count.toNat).map (fun j => cwWin s (start.toNat + j)) ++
          (ecc (fedRange s start.toNat count.toNat)).map (BitVec.setWidth 32)

/-- 42_rs.md R192: every root of the generator is a root of the codeword, and the encoder is linear. -/
def Obligations.RootsAndLinearityOfTheCode : Prop :=
  ∀ (poly : BitVec 16) (nsym idx : Nat), AcceptedPoly poly → 1 ≤ nsym → nsym ≤ 255 → idx < logMod (degree poly) →
    let f := fieldOf poly
    let g := genPoly f nsym idx
    (∀ ds : List Byte, (∀ d ∈ ds, IsElement (degree poly) d) → ∀ i, i < nsym →
      polyEval f (f.alog.get ((idx + i) % logMod (degree poly))) (ds ++ eccOf f g nsym ds) = 0) ∧
    ∀ ds ds' : List Byte, ds.length = ds'.length → (∀ d ∈ ds, IsElement (degree poly) d) →
      (∀ d ∈ ds', IsElement (degree poly) d) →
      eccOf f g nsym (List.zipWith gfAdd ds ds') = List.zipWith gfAdd (eccOf f g nsym ds) (eccOf f g nsym ds')

/-! ### Packer commands -/

/-- 40_packer.md R123: what PK_INIT does when no fault is recorded. -/
def Obligations.PkInitOpensAnEmptyBuffer : Prop :=
  ∀ (s : State) (w : BitVec 4) (cap : BitVec 12), s.fault = false →
    ((w.toNat < 1 ∨ 8 < w.toNat ∨ cap.toNat = 0) →
      exec (.pkInit w cap) s = .next (faultEntry 0x08 (encode (.pkInit w cap)) s)) ∧
    (1 ≤ w.toNat → w.toNat ≤ 8 → cap.toNat ≠ 0 → ∃ buf : BitBuffer,
      exec (.pkInit w cap) s = .next { s with
        pkW := w, pkCap := cap, pkLen := 0, bb := buf, pkState := .open, pending := none } ∧
      ∀ i, buf.getLsbD i = false)

/-- 40_packer.md R124, R122: what PK_APPEND does when no fault is recorded: n = NM1 + 1 bits, the most significant
first, from position PK_LEN on; VAL's higher bits are ignored; an append past TOTAL appends nothing. -/
def Obligations.PkAppendAddsBitsMostSignificantFirst : Prop :=
  ∀ (s : State) (nm1 : BitVec 4) (val : BitVec 16), s.fault = false → s.pkW.toNat ≤ 8 →
    let n := nm1.toNat + 1
    let len := s.pkLen.toNat
    (s.pkState ≠ .open → exec (.pkAppend nm1 val) s = .next (faultEntry 0x0A (encode (.pkAppend nm1 val)) s)) ∧
    (s.pkState = .open → s.pkCap.toNat * s.pkW.toNat < len + n →
      exec (.pkAppend nm1 val) s = .next (faultEntry 0x09 (encode (.pkAppend nm1 val)) s)) ∧
    (s.pkState = .open → len + n ≤ s.pkCap.toNat * s.pkW.toNat → ∃ buf : BitBuffer,
      exec (.pkAppend nm1 val) s = .next { s with bb := buf, pkLen := BitVec.ofNat 16 (len + n), pending := none } ∧
      ∀ i, buf.getLsbD i =
        if len ≤ i ∧ i < len + n then val.getLsbD (n - 1 - (i - len)) else s.bb.getLsbD i)

/-- 40_packer.md R125 to R127: what PK_FINISH does when no fault is recorded: the terminator, cut to the room left and
left out on a codeword boundary under TMODE = 1, then the fill pattern repeated from its first bit up to TOTAL. -/
def Obligations.PkFinishTerminatesAndFills : Prop :=
  ∀ s : State, s.fault = false → s.pkW.toNat ≤ 8 → s.pkLen.toNat ≤ s.pkCap.toNat * s.pkW.toNat →
    let total := s.pkCap.toNat * s.pkW.toNat
    let len := s.pkLen.toNat
    let tbits := if s.tmode = true ∧ len % s.pkW.toNat = 0 then 0 else min s.tlen.toNat (total - len)
    let p := len + tbits
    (s.pkState ≠ .open → exec .pkFinish s = .next (faultEntry 0x0A (encode .pkFinish) s)) ∧
    (s.pkState = .open → (16 < s.tlen.toNat ∨ s.flen.toNat = 0 ∨ 16 < s.flen.toNat) →
      exec .pkFinish s = .next (faultEntry 0x08 (encode .pkFinish) s)) ∧
    (s.pkState = .open → s.tlen.toNat ≤ 16 → 1 ≤ s.flen.toNat → s.flen.toNat ≤ 16 → ∃ buf : BitBuffer,
      exec .pkFinish s = .next { s with
        bb := buf, pkLen := BitVec.ofNat 16 total, pkState := .done, pending := none } ∧
      ∀ i, buf.getLsbD i =
        if i < len then s.bb.getLsbD i
        else if i < p then s.tval.getLsbD (s.tlen.toNat - 1 - (i - len))
        else if i < total then s.fval.getLsbD (s.flen.toNat - 1 - (i - p) % s.flen.toNat)
        else s.bb.getLsbD i)

/-- 40_packer.md R129: append-only. A command other than PK_INIT changes no bit below PK_LEN and never shortens the
stream, and a codeword all of whose bits are below PK_LEN keeps its value. -/
def Obligations.CommandsOnlyAppend : Prop :=
  ∀ (i : Instr) (s t : State), (∀ w cap, i ≠ .pkInit w cap) → s.pkState ≠ .idle → s.pkW.toNat ≤ 8 →
    s.pkLen.toNat ≤ s.pkCap.toNat * s.pkW.toNat → exec i s = .next t →
    s.pkLen.toNat ≤ t.pkLen.toNat ∧ (∀ k, k < s.pkLen.toNat → t.bb.getLsbD k = s.bb.getLsbD k) ∧
    ∀ j, (j + 1) * s.pkW.toNat ≤ s.pkLen.toNat → cwWin t j = cwWin s j

/-- 30_encoding.md R108: PK_VALUE n, v with n above 16 appends the n bits of v, the most significant first. -/
def Obligations.PkValueAppendsItsBits : Prop :=
  ∀ (s : State) (n v : Nat), 16 < n → n ≤ 32 → v < 2 ^ n →
    s.fault = false → s.pkState = .open → s.pkW.toNat ≤ 8 →
    s.pkLen.toNat + n ≤ s.pkCap.toNat * s.pkW.toNat →
    ∃ hi lo i j t u,
      expand (.pkValue n v) = some [.command hi, .command lo] ∧ assemble hi = some i ∧ assemble lo = some j ∧
      exec i s = .next t ∧ exec j t = .next u ∧ u.fault = false ∧ u.pkLen.toNat = s.pkLen.toNat + n ∧
      ∀ k, k < n → u.bb.getLsbD (s.pkLen.toNat + k) = v.testBit (n - 1 - k)

/-! ### Frames -/

/-- 41_gf.md R151, R157, R158, 60_exceptions.md R231, R233: whatever happens to it, a GF command changes nothing
outside what its rule and the fault record name. -/
def Obligations.GfCommandsFrame : Prop :=
  (∀ (poly : BitVec 16) (s t : State), exec (.gfInit poly) s = .next t →
    t = { s with
      log := t.log, alog := t.alog, gfPoly := t.gfPoly, gfM := t.gfM, gfValid := t.gfValid, rsValid := t.rsValid,
      fault := t.fault, faultCode := t.faultCode, faultCmd := t.faultCmd, pending := none }) ∧
  (∀ (a b : BitVec 8) (s t : State), exec (.gfMul a b) s = .next t ∨ exec (.gfAdd a b) s = .next t →
    t = { s with
      result := t.result, fault := t.fault, faultCode := t.faultCode, faultCmd := t.faultCmd, pending := none })

/-- 42_rs.md R181, R184, R185, R187, 60_exceptions.md R231, R233: the same for the RS commands. -/
def Obligations.RsCommandsFrame : Prop :=
  (∀ (nsym index : BitVec 8) (s t : State), exec (.rsInit nsym index) s = .next t →
    t = { s with
      g := t.g, r := t.r, rsNsym := t.rsNsym, rsIndex := t.rsIndex, rsCount := t.rsCount, rsValid := t.rsValid,
      fault := t.fault, faultCode := t.faultCode, faultCmd := t.faultCmd, pending := none }) ∧
  (∀ (d : BitVec 8) (start count : BitVec 12) (s t : State),
    exec .rsClear s = .next t ∨ exec (.rsFeed d) s = .next t ∨ exec (.rsFeedcw start count) s = .next t →
    t = { s with
      r := t.r, rsCount := t.rsCount,
      fault := t.fault, faultCode := t.faultCode, faultCmd := t.faultCmd, pending := none })

/-- 40_packer.md R123 to R125, 60_exceptions.md R231, R233: the same for the packer commands and NOP. -/
def Obligations.PkCommandsFrame : Prop :=
  (∀ (w : BitVec 4) (cap : BitVec 12) (s t : State), exec (.pkInit w cap) s = .next t →
    t = { s with
      pkW := t.pkW, pkCap := t.pkCap, pkLen := t.pkLen, bb := t.bb, pkState := t.pkState,
      fault := t.fault, faultCode := t.faultCode, faultCmd := t.faultCmd, pending := none }) ∧
  (∀ (nm1 : BitVec 4) (val : BitVec 16) (s t : State), exec (.pkAppend nm1 val) s = .next t →
    t = { s with
      pkLen := t.pkLen, bb := t.bb,
      fault := t.fault, faultCode := t.faultCode, faultCmd := t.faultCmd, pending := none }) ∧
  (∀ s t : State, exec .pkFinish s = .next t →
    t = { s with
      pkLen := t.pkLen, bb := t.bb, pkState := t.pkState,
      fault := t.fault, faultCode := t.faultCode, faultCmd := t.faultCmd, pending := none }) ∧
  ∀ s t : State, exec .nop s = .next t → t = { s with pending := none }

/-! ### Whole-machine rules -/

/-- 10_state.md R47, R46, R30: which commands may change a flag, the packer's state and RESULT. GF_VALID is set by a
successful GF_INIT only and cleared by no command, RS_VALID is set by a successful RS_INIT only and cleared by a
successful GF_INIT only, PK_STATE goes to OPEN by PK_INIT and from OPEN to DONE by PK_FINISH only, and RESULT is written
by GF_MUL and GF_ADD only. A command that ends with FAULT = 1, faulting now or discarded, changes none of them. -/
def Obligations.FlagsHaveOnlyTheirWriters : Prop :=
  ∀ (i : Instr) (s t : State), exec i s = .next t →
    (t.gfValid = s.gfValid ∨ (t.gfValid = true ∧ t.fault = false ∧ ∃ poly, i = .gfInit poly)) ∧
    (t.rsValid = s.rsValid ∨ (t.rsValid = true ∧ t.fault = false ∧ ∃ nsym index, i = .rsInit nsym index) ∨
      (t.rsValid = false ∧ t.gfValid = true ∧ t.fault = false ∧ ∃ poly, i = .gfInit poly)) ∧
    (t.pkState = s.pkState ∨ (t.pkState = .open ∧ t.fault = false ∧ ∃ w cap, i = .pkInit w cap) ∨
      (s.pkState = .open ∧ t.pkState = .done ∧ t.fault = false ∧ i = .pkFinish)) ∧
    (t.result = s.result ∨ (t.fault = false ∧ ((∃ a b, i = .gfMul a b) ∨ ∃ a b, i = .gfAdd a b))) ∧
    (t.fault = true →
      t.gfValid = s.gfValid ∧ t.rsValid = s.rsValid ∧ t.pkState = s.pkState ∧ t.result = s.result) ∧
    t.irqEn = s.irqEn ∧ t.tval = s.tval ∧ t.tlen = s.tlen ∧ t.tmode = s.tmode ∧ t.fval = s.fval ∧ t.flen = s.flen

/-- 70_reset_and_hazards.md R261 and 10_state.md R23: the values reset gives, and what every register then reads. The
zeros of the arrays are the model's choice (log entry 1) and are not stated. -/
def Obligations.ResetValues : Prop :=
  (let s := State.reset
   s.irqEn = false ∧ s.fault = false ∧ s.faultCode = 0 ∧ s.faultCmd = 0 ∧ s.pending = none ∧ s.result = 0 ∧
   s.gfValid = false ∧ s.gfPoly = 0 ∧ s.gfM = 0 ∧ s.rsValid = false ∧ s.rsNsym = 0 ∧ s.rsIndex = 0 ∧ s.rsCount = 0 ∧
   s.pkState = .idle ∧ s.pkW = 0 ∧ s.pkCap = 0 ∧ s.pkLen = 0 ∧ s.tval = 0 ∧ s.tlen = 0 ∧ s.tmode = false ∧
   s.fval = 0 ∧ s.flen = 1) ∧
  ∀ off : BitVec 15, off.toNat % 4 = 0 → regRead State.reset off =
    if off = 0x0000 then 0x52530001 else if off = 0x0004 then 0x0FFFFF88
    else if off = 0x0040 then 0x00010000 else 0

/-- 70_reset_and_hazards.md R260, R262: asserting the reset input, a command in flight or not, leaves the reset state;
the block then holds it; and what follows the release sees the reset state. The zeros of the unspecified arrays in it
are the model's choice (log entry 1), and the events are the model's way to say it (log entry 6). -/
def Obligations.ResetInputAbandonsTheCommand : Prop :=
  (∀ (s : State) (rest : List HostEvent), s.rstN = true → s.inbox = .assertReset :: rest →
    step s = .next { State.reset with
      rstN := false
      inbox := rest
      responses := s.responses
      draws := s.draws
      overtaken := s.overtaken
      seed := s.seed }) ∧
  (∀ (s : State) (rest : List HostEvent), s.rstN = false → s.inbox = .releaseReset :: rest →
    step s = .next { State.reset with
      inbox := rest
      responses := s.responses
      draws := s.draws
      overtaken := s.overtaken
      seed := s.seed }) ∧
  ∀ s : State, s.rstN = false → s.inbox = [] → ∃ t, step s = .next t ∧ t = resetBlock s

/-- 10_state.md R49: the model's invariant holds at reset, whatever the block's seed (log entry 3). -/
def Obligations.InvariantHoldsAtReset : Prop := Inv State.reset ∧ ∀ n : Nat, Inv { State.reset with seed := n }

/-- 10_state.md R49: every step from a state with the invariant, reached or not, keeps it. -/
def Obligations.EveryStepKeepsTheInvariant : Prop :=
  ∀ s t : State, Inv s → step s = .next t → Inv t

/-- 10_state.md R49: its items (a) to (h) hold in every state a run reaches, whatever the host asks for. -/
def Obligations.ReachableStatesMeetTheInvariants : Prop :=
  ∀ s : State, Reachable s → ReachableInvariants s

/-- 70_reset_and_hazards.md R261: no rule ever reads an unspecified array entry. Two states that agree on all but the
gated arrays step alike, to states that again agree on all but the gated arrays, and every register reads the same. -/
def Obligations.UnspecifiedContentsAreUnobservable : Prop :=
  ∀ s s' : State, (s.rsValid = true → s.gfValid = true) → SameVisible s s' →
    (∀ off, regRead s off = regRead s' off) ∧
    (∀ t, step s = .next t → ∃ t', step s' = .next t' ∧ SameVisible t t') ∧
    ∀ r, step s = .refused r → step s' = .refused r

/-- 70_reset_and_hazards.md R271, 90_conflicts.md C4: what a sequence that begins with GF_INIT, RS_INIT and PK_INIT
sets up: after those three, two blocks with whatever history agree on all but RESULT, PK_TERM, PK_FILL, IRQ_EN and the
host's side. PK_FINISH reads PK_TERM and PK_FILL (40_packer.md R125), so a job that finishes the packer writes them
itself; once it has, whatever it writes, the two blocks agree on all but RESULT, IRQ_EN and the host's side. -/
def Obligations.AJobForgetsEarlierSequences : Prop :=
  ∀ (s s' : State) (poly : BitVec 16) (nsym index : BitVec 8) (w : BitVec 4) (cap : BitVec 12),
    Inv s → Inv s' → s.fault = false → s'.fault = false → AcceptedPoly poly → nsym ≠ 0 →
    1 ≤ w.toNat → w.toNat ≤ 8 → cap ≠ 0 →
    ∃ s1 s2 s3 t1 t2 t3,
      exec (.gfInit poly) s = .next s1 ∧ exec (.rsInit nsym index) s1 = .next s2 ∧
      exec (.pkInit w cap) s2 = .next s3 ∧
      exec (.gfInit poly) s' = .next t1 ∧ exec (.rsInit nsym index) t1 = .next t2 ∧
      exec (.pkInit w cap) t2 = .next t3 ∧
      s3.fault = false ∧ s3.gfValid = true ∧ s3.rsValid = true ∧ s3.pkState = .open ∧
      s3 = { t3 with
        result := s3.result, tval := s3.tval, tlen := s3.tlen, tmode := s3.tmode, fval := s3.fval, flen := s3.flen,
        irqEn := s3.irqEn, rstN := s3.rstN, inbox := s3.inbox, responses := s3.responses, draws := s3.draws,
        overtaken := s3.overtaken, seed := s3.seed } ∧
      ∀ term fill : Word,
        let a := regWrite 0x0040 fill (regWrite 0x003C term s3)
        let b := regWrite 0x0040 fill (regWrite 0x003C term t3)
        a = { b with
          result := a.result, irqEn := a.irqEn, rstN := a.rstN, inbox := a.inbox, responses := a.responses,
          draws := a.draws, overtaken := a.overtaken, seed := a.seed }

/-- 60_exceptions.md R245, 20_memory.md R60: instances share nothing: a step of one leaves every other as it was, and an
access reaches only the instance whose 32 KiB region holds its address. -/
def Obligations.InstancesAreIndependent : Prop :=
  (∀ (p p' : List Instance) (k : Nat), stepInstance k p = .next p' →
    p'.length = p.length ∧ ∀ j, j ≠ k → p'[j]? = p[j]?) ∧
  ∀ (p : List Instance) (write : Bool) (addr : Nat) (size : AccessSize) (wdata : Word),
    (postAt write addr size wdata p).length = p.length ∧
    ∀ (j : Nat) (i : Instance), p[j]? = some i → ¬(i.base ≤ addr ∧ addr < i.base + 0x8000) →
      (postAt write addr size wdata p)[j]? = some i
end

