-- ==== Sys2Proof/Laws/State.lean ====
section
/-! SUPPORT. What each update of the state leaves in each field, true by rfl, so that no later proof unfolds a record
update: the fault record, completion, reset, the issue of a command, and the host's side. -/
namespace Sys2Proof.Machine

variable (s : State)

/-! ### raiseFault -/

@[simp] theorem raiseFault_irqEn (c : FaultCode) (w : Word) : (raiseFault c w s).irqEn = s.irqEn := rfl
@[simp] theorem raiseFault_fault (c : FaultCode) (w : Word) : (raiseFault c w s).fault = true := rfl
@[simp] theorem raiseFault_faultCode (c : FaultCode) (w : Word) : (raiseFault c w s).faultCode = c.number := rfl
@[simp] theorem raiseFault_faultCmd (c : FaultCode) (w : Word) : (raiseFault c w s).faultCmd = w := rfl
@[simp] theorem raiseFault_pending (c : FaultCode) (w : Word) : (raiseFault c w s).pending = s.pending := rfl
@[simp] theorem raiseFault_result (c : FaultCode) (w : Word) : (raiseFault c w s).result = s.result := rfl
@[simp] theorem raiseFault_gfValid (c : FaultCode) (w : Word) : (raiseFault c w s).gfValid = s.gfValid := rfl
@[simp] theorem raiseFault_gfPoly (c : FaultCode) (w : Word) : (raiseFault c w s).gfPoly = s.gfPoly := rfl
@[simp] theorem raiseFault_gfM (c : FaultCode) (w : Word) : (raiseFault c w s).gfM = s.gfM := rfl
@[simp] theorem raiseFault_log (c : FaultCode) (w : Word) : (raiseFault c w s).log = s.log := rfl
@[simp] theorem raiseFault_alog (c : FaultCode) (w : Word) : (raiseFault c w s).alog = s.alog := rfl
@[simp] theorem raiseFault_rsValid (c : FaultCode) (w : Word) : (raiseFault c w s).rsValid = s.rsValid := rfl
@[simp] theorem raiseFault_rsNsym (c : FaultCode) (w : Word) : (raiseFault c w s).rsNsym = s.rsNsym := rfl
@[simp] theorem raiseFault_rsIndex (c : FaultCode) (w : Word) : (raiseFault c w s).rsIndex = s.rsIndex := rfl
@[simp] theorem raiseFault_rsCount (c : FaultCode) (w : Word) : (raiseFault c w s).rsCount = s.rsCount := rfl
@[simp] theorem raiseFault_g (c : FaultCode) (w : Word) : (raiseFault c w s).g = s.g := rfl
@[simp] theorem raiseFault_r (c : FaultCode) (w : Word) : (raiseFault c w s).r = s.r := rfl
@[simp] theorem raiseFault_pkState (c : FaultCode) (w : Word) : (raiseFault c w s).pkState = s.pkState := rfl
@[simp] theorem raiseFault_pkW (c : FaultCode) (w : Word) : (raiseFault c w s).pkW = s.pkW := rfl
@[simp] theorem raiseFault_pkCap (c : FaultCode) (w : Word) : (raiseFault c w s).pkCap = s.pkCap := rfl
@[simp] theorem raiseFault_pkLen (c : FaultCode) (w : Word) : (raiseFault c w s).pkLen = s.pkLen := rfl
@[simp] theorem raiseFault_bb (c : FaultCode) (w : Word) : (raiseFault c w s).bb = s.bb := rfl
@[simp] theorem raiseFault_tval (c : FaultCode) (w : Word) : (raiseFault c w s).tval = s.tval := rfl
@[simp] theorem raiseFault_tlen (c : FaultCode) (w : Word) : (raiseFault c w s).tlen = s.tlen := rfl
@[simp] theorem raiseFault_tmode (c : FaultCode) (w : Word) : (raiseFault c w s).tmode = s.tmode := rfl
@[simp] theorem raiseFault_fval (c : FaultCode) (w : Word) : (raiseFault c w s).fval = s.fval := rfl
@[simp] theorem raiseFault_flen (c : FaultCode) (w : Word) : (raiseFault c w s).flen = s.flen := rfl
@[simp] theorem raiseFault_rstN (c : FaultCode) (w : Word) : (raiseFault c w s).rstN = s.rstN := rfl
@[simp] theorem raiseFault_inbox (c : FaultCode) (w : Word) : (raiseFault c w s).inbox = s.inbox := rfl
@[simp] theorem raiseFault_responses (c : FaultCode) (w : Word) : (raiseFault c w s).responses = s.responses := rfl
@[simp] theorem raiseFault_draws (c : FaultCode) (w : Word) : (raiseFault c w s).draws = s.draws := rfl
@[simp] theorem raiseFault_overtaken (c : FaultCode) (w : Word) : (raiseFault c w s).overtaken = s.overtaken := rfl
@[simp] theorem raiseFault_seed (c : FaultCode) (w : Word) : (raiseFault c w s).seed = s.seed := rfl

/-! ### clearFault -/

@[simp] theorem clearFault_irqEn : (clearFault s).irqEn = s.irqEn := rfl
@[simp] theorem clearFault_fault : (clearFault s).fault = false := rfl
@[simp] theorem clearFault_faultCode : (clearFault s).faultCode = 0 := rfl
@[simp] theorem clearFault_faultCmd : (clearFault s).faultCmd = 0 := rfl
@[simp] theorem clearFault_pending : (clearFault s).pending = s.pending := rfl
@[simp] theorem clearFault_result : (clearFault s).result = s.result := rfl
@[simp] theorem clearFault_gfValid : (clearFault s).gfValid = s.gfValid := rfl
@[simp] theorem clearFault_gfPoly : (clearFault s).gfPoly = s.gfPoly := rfl
@[simp] theorem clearFault_gfM : (clearFault s).gfM = s.gfM := rfl
@[simp] theorem clearFault_log : (clearFault s).log = s.log := rfl
@[simp] theorem clearFault_alog : (clearFault s).alog = s.alog := rfl
@[simp] theorem clearFault_rsValid : (clearFault s).rsValid = s.rsValid := rfl
@[simp] theorem clearFault_rsNsym : (clearFault s).rsNsym = s.rsNsym := rfl
@[simp] theorem clearFault_rsIndex : (clearFault s).rsIndex = s.rsIndex := rfl
@[simp] theorem clearFault_rsCount : (clearFault s).rsCount = s.rsCount := rfl
@[simp] theorem clearFault_g : (clearFault s).g = s.g := rfl
@[simp] theorem clearFault_r : (clearFault s).r = s.r := rfl
@[simp] theorem clearFault_pkState : (clearFault s).pkState = s.pkState := rfl
@[simp] theorem clearFault_pkW : (clearFault s).pkW = s.pkW := rfl
@[simp] theorem clearFault_pkCap : (clearFault s).pkCap = s.pkCap := rfl
@[simp] theorem clearFault_pkLen : (clearFault s).pkLen = s.pkLen := rfl
@[simp] theorem clearFault_bb : (clearFault s).bb = s.bb := rfl
@[simp] theorem clearFault_tval : (clearFault s).tval = s.tval := rfl
@[simp] theorem clearFault_tlen : (clearFault s).tlen = s.tlen := rfl
@[simp] theorem clearFault_tmode : (clearFault s).tmode = s.tmode := rfl
@[simp] theorem clearFault_fval : (clearFault s).fval = s.fval := rfl
@[simp] theorem clearFault_flen : (clearFault s).flen = s.flen := rfl
@[simp] theorem clearFault_rstN : (clearFault s).rstN = s.rstN := rfl
@[simp] theorem clearFault_inbox : (clearFault s).inbox = s.inbox := rfl
@[simp] theorem clearFault_responses : (clearFault s).responses = s.responses := rfl
@[simp] theorem clearFault_draws : (clearFault s).draws = s.draws := rfl
@[simp] theorem clearFault_overtaken : (clearFault s).overtaken = s.overtaken := rfl
@[simp] theorem clearFault_seed : (clearFault s).seed = s.seed := rfl

/-! ### complete -/

@[simp] theorem complete_irqEn : (complete s).irqEn = s.irqEn := rfl
@[simp] theorem complete_fault : (complete s).fault = s.fault := rfl
@[simp] theorem complete_faultCode : (complete s).faultCode = s.faultCode := rfl
@[simp] theorem complete_faultCmd : (complete s).faultCmd = s.faultCmd := rfl
@[simp] theorem complete_pending : (complete s).pending = none := rfl
@[simp] theorem complete_result : (complete s).result = s.result := rfl
@[simp] theorem complete_gfValid : (complete s).gfValid = s.gfValid := rfl
@[simp] theorem complete_gfPoly : (complete s).gfPoly = s.gfPoly := rfl
@[simp] theorem complete_gfM : (complete s).gfM = s.gfM := rfl
@[simp] theorem complete_log : (complete s).log = s.log := rfl
@[simp] theorem complete_alog : (complete s).alog = s.alog := rfl
@[simp] theorem complete_rsValid : (complete s).rsValid = s.rsValid := rfl
@[simp] theorem complete_rsNsym : (complete s).rsNsym = s.rsNsym := rfl
@[simp] theorem complete_rsIndex : (complete s).rsIndex = s.rsIndex := rfl
@[simp] theorem complete_rsCount : (complete s).rsCount = s.rsCount := rfl
@[simp] theorem complete_g : (complete s).g = s.g := rfl
@[simp] theorem complete_r : (complete s).r = s.r := rfl
@[simp] theorem complete_pkState : (complete s).pkState = s.pkState := rfl
@[simp] theorem complete_pkW : (complete s).pkW = s.pkW := rfl
@[simp] theorem complete_pkCap : (complete s).pkCap = s.pkCap := rfl
@[simp] theorem complete_pkLen : (complete s).pkLen = s.pkLen := rfl
@[simp] theorem complete_bb : (complete s).bb = s.bb := rfl
@[simp] theorem complete_tval : (complete s).tval = s.tval := rfl
@[simp] theorem complete_tlen : (complete s).tlen = s.tlen := rfl
@[simp] theorem complete_tmode : (complete s).tmode = s.tmode := rfl
@[simp] theorem complete_fval : (complete s).fval = s.fval := rfl
@[simp] theorem complete_flen : (complete s).flen = s.flen := rfl
@[simp] theorem complete_rstN : (complete s).rstN = s.rstN := rfl
@[simp] theorem complete_inbox : (complete s).inbox = s.inbox := rfl
@[simp] theorem complete_responses : (complete s).responses = s.responses := rfl
@[simp] theorem complete_draws : (complete s).draws = s.draws := rfl
@[simp] theorem complete_overtaken : (complete s).overtaken = s.overtaken := rfl
@[simp] theorem complete_seed : (complete s).seed = s.seed := rfl

/-! ### resetBlock -/

@[simp] theorem resetBlock_irqEn : (resetBlock s).irqEn = State.reset.irqEn := rfl
@[simp] theorem resetBlock_fault : (resetBlock s).fault = State.reset.fault := rfl
@[simp] theorem resetBlock_faultCode : (resetBlock s).faultCode = State.reset.faultCode := rfl
@[simp] theorem resetBlock_faultCmd : (resetBlock s).faultCmd = State.reset.faultCmd := rfl
@[simp] theorem resetBlock_pending : (resetBlock s).pending = State.reset.pending := rfl
@[simp] theorem resetBlock_result : (resetBlock s).result = State.reset.result := rfl
@[simp] theorem resetBlock_gfValid : (resetBlock s).gfValid = State.reset.gfValid := rfl
@[simp] theorem resetBlock_gfPoly : (resetBlock s).gfPoly = State.reset.gfPoly := rfl
@[simp] theorem resetBlock_gfM : (resetBlock s).gfM = State.reset.gfM := rfl
@[simp] theorem resetBlock_log : (resetBlock s).log = State.reset.log := rfl
@[simp] theorem resetBlock_alog : (resetBlock s).alog = State.reset.alog := rfl
@[simp] theorem resetBlock_rsValid : (resetBlock s).rsValid = State.reset.rsValid := rfl
@[simp] theorem resetBlock_rsNsym : (resetBlock s).rsNsym = State.reset.rsNsym := rfl
@[simp] theorem resetBlock_rsIndex : (resetBlock s).rsIndex = State.reset.rsIndex := rfl
@[simp] theorem resetBlock_rsCount : (resetBlock s).rsCount = State.reset.rsCount := rfl
@[simp] theorem resetBlock_g : (resetBlock s).g = State.reset.g := rfl
@[simp] theorem resetBlock_r : (resetBlock s).r = State.reset.r := rfl
@[simp] theorem resetBlock_pkState : (resetBlock s).pkState = State.reset.pkState := rfl
@[simp] theorem resetBlock_pkW : (resetBlock s).pkW = State.reset.pkW := rfl
@[simp] theorem resetBlock_pkCap : (resetBlock s).pkCap = State.reset.pkCap := rfl
@[simp] theorem resetBlock_pkLen : (resetBlock s).pkLen = State.reset.pkLen := rfl
@[simp] theorem resetBlock_bb : (resetBlock s).bb = State.reset.bb := rfl
@[simp] theorem resetBlock_tval : (resetBlock s).tval = State.reset.tval := rfl
@[simp] theorem resetBlock_tlen : (resetBlock s).tlen = State.reset.tlen := rfl
@[simp] theorem resetBlock_tmode : (resetBlock s).tmode = State.reset.tmode := rfl
@[simp] theorem resetBlock_fval : (resetBlock s).fval = State.reset.fval := rfl
@[simp] theorem resetBlock_flen : (resetBlock s).flen = State.reset.flen := rfl
@[simp] theorem resetBlock_rstN : (resetBlock s).rstN = s.rstN := rfl
@[simp] theorem resetBlock_inbox : (resetBlock s).inbox = s.inbox := rfl
@[simp] theorem resetBlock_responses : (resetBlock s).responses = s.responses := rfl
@[simp] theorem resetBlock_draws : (resetBlock s).draws = s.draws := rfl
@[simp] theorem resetBlock_overtaken : (resetBlock s).overtaken = s.overtaken := rfl
@[simp] theorem resetBlock_seed : (resetBlock s).seed = s.seed := rfl

/-! ### issue -/

@[simp] theorem issue_irqEn (v : Word) : (issue v s).irqEn = s.irqEn := rfl
@[simp] theorem issue_fault (v : Word) : (issue v s).fault = s.fault := rfl
@[simp] theorem issue_faultCode (v : Word) : (issue v s).faultCode = s.faultCode := rfl
@[simp] theorem issue_faultCmd (v : Word) : (issue v s).faultCmd = s.faultCmd := rfl
@[simp] theorem issue_pending (v : Word) : (issue v s).pending = some v := rfl
@[simp] theorem issue_result (v : Word) : (issue v s).result = s.result := rfl
@[simp] theorem issue_gfValid (v : Word) : (issue v s).gfValid = s.gfValid := rfl
@[simp] theorem issue_gfPoly (v : Word) : (issue v s).gfPoly = s.gfPoly := rfl
@[simp] theorem issue_gfM (v : Word) : (issue v s).gfM = s.gfM := rfl
@[simp] theorem issue_log (v : Word) : (issue v s).log = s.log := rfl
@[simp] theorem issue_alog (v : Word) : (issue v s).alog = s.alog := rfl
@[simp] theorem issue_rsValid (v : Word) : (issue v s).rsValid = s.rsValid := rfl
@[simp] theorem issue_rsNsym (v : Word) : (issue v s).rsNsym = s.rsNsym := rfl
@[simp] theorem issue_rsIndex (v : Word) : (issue v s).rsIndex = s.rsIndex := rfl
@[simp] theorem issue_rsCount (v : Word) : (issue v s).rsCount = s.rsCount := rfl
@[simp] theorem issue_g (v : Word) : (issue v s).g = s.g := rfl
@[simp] theorem issue_r (v : Word) : (issue v s).r = s.r := rfl
@[simp] theorem issue_pkState (v : Word) : (issue v s).pkState = s.pkState := rfl
@[simp] theorem issue_pkW (v : Word) : (issue v s).pkW = s.pkW := rfl
@[simp] theorem issue_pkCap (v : Word) : (issue v s).pkCap = s.pkCap := rfl
@[simp] theorem issue_pkLen (v : Word) : (issue v s).pkLen = s.pkLen := rfl
@[simp] theorem issue_bb (v : Word) : (issue v s).bb = s.bb := rfl
@[simp] theorem issue_tval (v : Word) : (issue v s).tval = s.tval := rfl
@[simp] theorem issue_tlen (v : Word) : (issue v s).tlen = s.tlen := rfl
@[simp] theorem issue_tmode (v : Word) : (issue v s).tmode = s.tmode := rfl
@[simp] theorem issue_fval (v : Word) : (issue v s).fval = s.fval := rfl
@[simp] theorem issue_flen (v : Word) : (issue v s).flen = s.flen := rfl
@[simp] theorem issue_rstN (v : Word) : (issue v s).rstN = s.rstN := rfl
@[simp] theorem issue_inbox (v : Word) : (issue v s).inbox = s.inbox := rfl
@[simp] theorem issue_responses (v : Word) : (issue v s).responses = s.responses := rfl
@[simp] theorem issue_draws (v : Word) : (issue v s).draws = s.draws + 1 := rfl
@[simp] theorem issue_overtaken (v : Word) : (issue v s).overtaken = 0 := rfl
@[simp] theorem issue_seed (v : Word) : (issue v s).seed = s.seed := rfl

/-! ### loadCommand -/

@[simp] theorem loadCommand_irqEn (w : Word) : (loadCommand w s).irqEn = s.irqEn := rfl
@[simp] theorem loadCommand_fault (w : Word) : (loadCommand w s).fault = s.fault := rfl
@[simp] theorem loadCommand_faultCode (w : Word) : (loadCommand w s).faultCode = s.faultCode := rfl
@[simp] theorem loadCommand_faultCmd (w : Word) : (loadCommand w s).faultCmd = s.faultCmd := rfl
@[simp] theorem loadCommand_pending (w : Word) : (loadCommand w s).pending = some w := rfl
@[simp] theorem loadCommand_result (w : Word) : (loadCommand w s).result = s.result := rfl
@[simp] theorem loadCommand_gfValid (w : Word) : (loadCommand w s).gfValid = s.gfValid := rfl
@[simp] theorem loadCommand_gfPoly (w : Word) : (loadCommand w s).gfPoly = s.gfPoly := rfl
@[simp] theorem loadCommand_gfM (w : Word) : (loadCommand w s).gfM = s.gfM := rfl
@[simp] theorem loadCommand_log (w : Word) : (loadCommand w s).log = s.log := rfl
@[simp] theorem loadCommand_alog (w : Word) : (loadCommand w s).alog = s.alog := rfl
@[simp] theorem loadCommand_rsValid (w : Word) : (loadCommand w s).rsValid = s.rsValid := rfl
@[simp] theorem loadCommand_rsNsym (w : Word) : (loadCommand w s).rsNsym = s.rsNsym := rfl
@[simp] theorem loadCommand_rsIndex (w : Word) : (loadCommand w s).rsIndex = s.rsIndex := rfl
@[simp] theorem loadCommand_rsCount (w : Word) : (loadCommand w s).rsCount = s.rsCount := rfl
@[simp] theorem loadCommand_g (w : Word) : (loadCommand w s).g = s.g := rfl
@[simp] theorem loadCommand_r (w : Word) : (loadCommand w s).r = s.r := rfl
@[simp] theorem loadCommand_pkState (w : Word) : (loadCommand w s).pkState = s.pkState := rfl
@[simp] theorem loadCommand_pkW (w : Word) : (loadCommand w s).pkW = s.pkW := rfl
@[simp] theorem loadCommand_pkCap (w : Word) : (loadCommand w s).pkCap = s.pkCap := rfl
@[simp] theorem loadCommand_pkLen (w : Word) : (loadCommand w s).pkLen = s.pkLen := rfl
@[simp] theorem loadCommand_bb (w : Word) : (loadCommand w s).bb = s.bb := rfl
@[simp] theorem loadCommand_tval (w : Word) : (loadCommand w s).tval = s.tval := rfl
@[simp] theorem loadCommand_tlen (w : Word) : (loadCommand w s).tlen = s.tlen := rfl
@[simp] theorem loadCommand_tmode (w : Word) : (loadCommand w s).tmode = s.tmode := rfl
@[simp] theorem loadCommand_fval (w : Word) : (loadCommand w s).fval = s.fval := rfl
@[simp] theorem loadCommand_flen (w : Word) : (loadCommand w s).flen = s.flen := rfl
@[simp] theorem loadCommand_rstN (w : Word) : (loadCommand w s).rstN = true := rfl
@[simp] theorem loadCommand_inbox (w : Word) : (loadCommand w s).inbox = [] := rfl
@[simp] theorem loadCommand_responses (w : Word) : (loadCommand w s).responses = s.responses := rfl
@[simp] theorem loadCommand_draws (w : Word) : (loadCommand w s).draws = s.draws := rfl
@[simp] theorem loadCommand_overtaken (w : Word) : (loadCommand w s).overtaken = s.overtaken := rfl
@[simp] theorem loadCommand_seed (w : Word) : (loadCommand w s).seed = s.seed := rfl

/-! ### post -/

@[simp] theorem post_irqEn (e : HostEvent) : (post e s).irqEn = s.irqEn := rfl
@[simp] theorem post_fault (e : HostEvent) : (post e s).fault = s.fault := rfl
@[simp] theorem post_faultCode (e : HostEvent) : (post e s).faultCode = s.faultCode := rfl
@[simp] theorem post_faultCmd (e : HostEvent) : (post e s).faultCmd = s.faultCmd := rfl
@[simp] theorem post_pending (e : HostEvent) : (post e s).pending = s.pending := rfl
@[simp] theorem post_result (e : HostEvent) : (post e s).result = s.result := rfl
@[simp] theorem post_gfValid (e : HostEvent) : (post e s).gfValid = s.gfValid := rfl
@[simp] theorem post_gfPoly (e : HostEvent) : (post e s).gfPoly = s.gfPoly := rfl
@[simp] theorem post_gfM (e : HostEvent) : (post e s).gfM = s.gfM := rfl
@[simp] theorem post_log (e : HostEvent) : (post e s).log = s.log := rfl
@[simp] theorem post_alog (e : HostEvent) : (post e s).alog = s.alog := rfl
@[simp] theorem post_rsValid (e : HostEvent) : (post e s).rsValid = s.rsValid := rfl
@[simp] theorem post_rsNsym (e : HostEvent) : (post e s).rsNsym = s.rsNsym := rfl
@[simp] theorem post_rsIndex (e : HostEvent) : (post e s).rsIndex = s.rsIndex := rfl
@[simp] theorem post_rsCount (e : HostEvent) : (post e s).rsCount = s.rsCount := rfl
@[simp] theorem post_g (e : HostEvent) : (post e s).g = s.g := rfl
@[simp] theorem post_r (e : HostEvent) : (post e s).r = s.r := rfl
@[simp] theorem post_pkState (e : HostEvent) : (post e s).pkState = s.pkState := rfl
@[simp] theorem post_pkW (e : HostEvent) : (post e s).pkW = s.pkW := rfl
@[simp] theorem post_pkCap (e : HostEvent) : (post e s).pkCap = s.pkCap := rfl
@[simp] theorem post_pkLen (e : HostEvent) : (post e s).pkLen = s.pkLen := rfl
@[simp] theorem post_bb (e : HostEvent) : (post e s).bb = s.bb := rfl
@[simp] theorem post_tval (e : HostEvent) : (post e s).tval = s.tval := rfl
@[simp] theorem post_tlen (e : HostEvent) : (post e s).tlen = s.tlen := rfl
@[simp] theorem post_tmode (e : HostEvent) : (post e s).tmode = s.tmode := rfl
@[simp] theorem post_fval (e : HostEvent) : (post e s).fval = s.fval := rfl
@[simp] theorem post_flen (e : HostEvent) : (post e s).flen = s.flen := rfl
@[simp] theorem post_rstN (e : HostEvent) : (post e s).rstN = s.rstN := rfl
@[simp] theorem post_inbox (e : HostEvent) : (post e s).inbox = s.inbox ++ [e] := rfl
@[simp] theorem post_responses (e : HostEvent) : (post e s).responses = s.responses := rfl
@[simp] theorem post_draws (e : HostEvent) : (post e s).draws = s.draws := rfl
@[simp] theorem post_overtaken (e : HostEvent) : (post e s).overtaken = s.overtaken := rfl
@[simp] theorem post_seed (e : HostEvent) : (post e s).seed = s.seed := rfl

end Sys2Proof.Machine
end

