-- ==== Sys2Proof/Laws/Bus.lean ====
section
/-! SUPPORT. The port: the offset of each kind of register, what an access does by its kind, and what a service leaves
of the host's side (20_memory.md R62 to R68). -/
namespace Sys2Proof.Machine

/-! ### The map (10_state.md R23) -/

/-! An index below the window's length puts the offset between the window's first offset and the next window's. -/

theorem regAt_logWin {k : Nat} (h : k < 256) : regAt (0x0400 + 4 * k) = .logWin k := by
  unfold regAt
  split_ifs <;> first | omega | (congr 1; omega)

theorem regAt_alogWin {k : Nat} (h : k < 256) : regAt (0x0800 + 4 * k) = .alogWin k := by
  unfold regAt
  split_ifs <;> first | omega | (congr 1; omega)

theorem regAt_gWin {k : Nat} (h : k < 256) : regAt (0x0C00 + 4 * k) = .gWin k := by
  unfold regAt
  split_ifs <;> first | omega | (congr 1; omega)

theorem regAt_rWin {k : Nat} (h : k < 256) : regAt (0x1000 + 4 * k) = .rWin k := by
  unfold regAt
  split_ifs <;> first | omega | (congr 1; omega)

theorem regAt_eccWin {k : Nat} (h : k < 256) : regAt (0x1400 + 4 * k) = .eccWin k := by
  unfold regAt
  split_ifs <;> first | omega | (congr 1; omega)

theorem regAt_cwWin {i : Nat} (h : i < 4096) : regAt (0x4000 + 4 * i) = .cwWin i := by
  unfold regAt
  split_ifs <;> first | omega | (congr 1; omega)

/-! ### One access -/

/-- An access that is no legal write changes nothing (R62, R63, R67). -/
theorem accessEffect_of_not_write {a : Access} {s : State} (h : (legal a && a.write) = false) :
    accessEffect a s = s := by
  unfold accessEffect; rw [h]; rfl

/-- A legal write does its RegWrite (R65). -/
theorem accessEffect_of_write {a : Access} {s : State} (h : (legal a && a.write) = true) :
    accessEffect a s = regWrite a.addr a.wdata s := by
  unfold accessEffect; rw [if_pos h]

/-- Everything a write to a register can do: reset, clear or set of the enable, issue, the two field stores, or
nothing (R65). -/
theorem writeReg_cases (r : Reg) (v : Word) (s : State) :
    (r = .ctrl ∧ writeReg r v s = ctrlWrite v s) ∨
    (r = .cmd ∧ writeReg r v s = issue v s) ∨
    (r = .pkTerm ∧ writeReg r v s =
      { s with tval := v.extractLsb' 0 16, tlen := v.extractLsb' 16 5, tmode := v.getLsbD 24 }) ∨
    (r = .pkFill ∧ writeReg r v s = { s with fval := v.extractLsb' 0 16, flen := v.extractLsb' 16 5 }) ∨
    writeReg r v s = s := by
  cases r <;> simp [writeReg]

/-- Everything a CTRL write can do (43_control.md R211). -/
theorem ctrlWrite_cases (v : Word) (s : State) :
    (v.getLsbD 9 = true ∧ ctrlWrite v s = resetBlock s) ∨
    (v.getLsbD 9 = false ∧ v.getLsbD 8 = true ∧ ctrlWrite v s = clearFault { s with irqEn := v.getLsbD 0 }) ∨
    (v.getLsbD 9 = false ∧ v.getLsbD 8 = false ∧ ctrlWrite v s = { s with irqEn := v.getLsbD 0 }) := by
  unfold ctrlWrite
  cases v.getLsbD 9 <;> cases v.getLsbD 8 <;> simp

/-- No write reaches the host's side of the port. -/
theorem regWrite_host (off : BitVec 15) (v : Word) (s : State) :
    (regWrite off v s).rstN = s.rstN ∧ (regWrite off v s).inbox = s.inbox ∧
      (regWrite off v s).responses = s.responses ∧ (regWrite off v s).seed = s.seed := by
  unfold regWrite
  rcases writeReg_cases (regAt off.toNat) v s with ⟨-, h⟩ | ⟨-, h⟩ | ⟨-, h⟩ | ⟨-, h⟩ | h <;> rw [h]
  · rcases ctrlWrite_cases v s with ⟨-, h⟩ | ⟨-, -, h⟩ | ⟨-, -, h⟩ <;> rw [h] <;> simp
  · simp
  · simp
  · simp
  · simp

theorem accessEffect_host (a : Access) (s : State) :
    (accessEffect a s).rstN = s.rstN ∧ (accessEffect a s).inbox = s.inbox ∧
      (accessEffect a s).responses = s.responses ∧ (accessEffect a s).seed = s.seed := by
  unfold accessEffect
  split
  · exact regWrite_host _ _ s
  · exact ⟨rfl, rfl, rfl, rfl⟩

@[simp] theorem serve_inbox (a : Access) (s : State) : (serve a s).inbox = s.inbox :=
  (accessEffect_host a s).2.1

@[simp] theorem serve_rstN (a : Access) (s : State) : (serve a s).rstN = s.rstN :=
  (accessEffect_host a s).1

@[simp] theorem serve_seed (a : Access) (s : State) : (serve a s).seed = s.seed :=
  (accessEffect_host a s).2.2.2

@[simp] theorem serve_responses (a : Access) (s : State) :
    (serve a s).responses = s.responses ++ [response a s] := rfl

@[simp] theorem countOvertaking_seed (s : State) : (countOvertaking s).seed = s.seed := by
  unfold countOvertaking; split <;> rfl

theorem countOvertaking_of_idle {s : State} (h : s.pending = none) : countOvertaking s = s := by
  unfold countOvertaking busy; rw [h]; rfl

theorem overtakes_iff (a : Access) :
    overtakes a = true ↔
      a.size = .word ∧ a.write = false ∧ (a.addr = 0x0000 ∨ a.addr = 0x0004 ∨ a.addr = 0x000C) := by
  have h0 : (0x0000 : BitVec 15).toNat % 4 = 0 := rfl
  have h4 : (0x0004 : BitVec 15).toNat % 4 = 0 := rfl
  have hC : (0x000C : BitVec 15).toNat % 4 = 0 := rfl
  simp only [overtakes, legal, Bool.and_eq_true, Bool.or_eq_true, beq_iff_eq, Bool.not_eq_true', or_assoc]
  constructor
  · rintro ⟨⟨⟨hs, -⟩, hw⟩, ha⟩; exact ⟨hs, hw, ha⟩
  · rintro ⟨hs, hw, ha⟩
    refine ⟨⟨⟨hs, ?_⟩, hw⟩, ha⟩
    rcases ha with h | h | h <;> rw [h] <;> assumption

end Sys2Proof.Machine
end

