-- ==== Sys2Proof/Laws/Effects.lean ====
section
/-! SUPPORT. What the effect of each command leaves in each field, true by rfl. -/
namespace Sys2Proof.Machine

variable (s : State)

/-! ### effectGfInit -/

@[simp] theorem effectGfInit_irqEn (poly : BitVec 16) : (effectGfInit poly s).irqEn = s.irqEn := rfl
@[simp] theorem effectGfInit_fault (poly : BitVec 16) : (effectGfInit poly s).fault = s.fault := rfl
@[simp] theorem effectGfInit_faultCode (poly : BitVec 16) : (effectGfInit poly s).faultCode = s.faultCode := rfl
@[simp] theorem effectGfInit_faultCmd (poly : BitVec 16) : (effectGfInit poly s).faultCmd = s.faultCmd := rfl
@[simp] theorem effectGfInit_pending (poly : BitVec 16) : (effectGfInit poly s).pending = s.pending := rfl
@[simp] theorem effectGfInit_result (poly : BitVec 16) : (effectGfInit poly s).result = s.result := rfl
@[simp] theorem effectGfInit_gfValid (poly : BitVec 16) : (effectGfInit poly s).gfValid = true := rfl
@[simp] theorem effectGfInit_gfPoly (poly : BitVec 16) : (effectGfInit poly s).gfPoly = poly := rfl
@[simp] theorem effectGfInit_gfM (poly : BitVec 16) : (effectGfInit poly s).gfM = BitVec.ofNat 4 (degree poly) := rfl
@[simp] theorem effectGfInit_log (poly : BitVec 16) : (effectGfInit poly s).log = logTable poly := rfl
@[simp] theorem effectGfInit_alog (poly : BitVec 16) : (effectGfInit poly s).alog = alogTable poly := rfl
@[simp] theorem effectGfInit_rsValid (poly : BitVec 16) : (effectGfInit poly s).rsValid = false := rfl
@[simp] theorem effectGfInit_rsNsym (poly : BitVec 16) : (effectGfInit poly s).rsNsym = s.rsNsym := rfl
@[simp] theorem effectGfInit_rsIndex (poly : BitVec 16) : (effectGfInit poly s).rsIndex = s.rsIndex := rfl
@[simp] theorem effectGfInit_rsCount (poly : BitVec 16) : (effectGfInit poly s).rsCount = s.rsCount := rfl
@[simp] theorem effectGfInit_g (poly : BitVec 16) : (effectGfInit poly s).g = s.g := rfl
@[simp] theorem effectGfInit_r (poly : BitVec 16) : (effectGfInit poly s).r = s.r := rfl
@[simp] theorem effectGfInit_pkState (poly : BitVec 16) : (effectGfInit poly s).pkState = s.pkState := rfl
@[simp] theorem effectGfInit_pkW (poly : BitVec 16) : (effectGfInit poly s).pkW = s.pkW := rfl
@[simp] theorem effectGfInit_pkCap (poly : BitVec 16) : (effectGfInit poly s).pkCap = s.pkCap := rfl
@[simp] theorem effectGfInit_pkLen (poly : BitVec 16) : (effectGfInit poly s).pkLen = s.pkLen := rfl
@[simp] theorem effectGfInit_bb (poly : BitVec 16) : (effectGfInit poly s).bb = s.bb := rfl
@[simp] theorem effectGfInit_tval (poly : BitVec 16) : (effectGfInit poly s).tval = s.tval := rfl
@[simp] theorem effectGfInit_tlen (poly : BitVec 16) : (effectGfInit poly s).tlen = s.tlen := rfl
@[simp] theorem effectGfInit_tmode (poly : BitVec 16) : (effectGfInit poly s).tmode = s.tmode := rfl
@[simp] theorem effectGfInit_fval (poly : BitVec 16) : (effectGfInit poly s).fval = s.fval := rfl
@[simp] theorem effectGfInit_flen (poly : BitVec 16) : (effectGfInit poly s).flen = s.flen := rfl
@[simp] theorem effectGfInit_rstN (poly : BitVec 16) : (effectGfInit poly s).rstN = s.rstN := rfl
@[simp] theorem effectGfInit_inbox (poly : BitVec 16) : (effectGfInit poly s).inbox = s.inbox := rfl
@[simp] theorem effectGfInit_responses (poly : BitVec 16) : (effectGfInit poly s).responses = s.responses := rfl
@[simp] theorem effectGfInit_draws (poly : BitVec 16) : (effectGfInit poly s).draws = s.draws := rfl
@[simp] theorem effectGfInit_overtaken (poly : BitVec 16) : (effectGfInit poly s).overtaken = s.overtaken := rfl
@[simp] theorem effectGfInit_seed (poly : BitVec 16) : (effectGfInit poly s).seed = s.seed := rfl

/-! ### effectGfMul -/

@[simp] theorem effectGfMul_irqEn (a b : Byte) : (effectGfMul a b s).irqEn = s.irqEn := rfl
@[simp] theorem effectGfMul_fault (a b : Byte) : (effectGfMul a b s).fault = s.fault := rfl
@[simp] theorem effectGfMul_faultCode (a b : Byte) : (effectGfMul a b s).faultCode = s.faultCode := rfl
@[simp] theorem effectGfMul_faultCmd (a b : Byte) : (effectGfMul a b s).faultCmd = s.faultCmd := rfl
@[simp] theorem effectGfMul_pending (a b : Byte) : (effectGfMul a b s).pending = s.pending := rfl
@[simp] theorem effectGfMul_result (a b : Byte) : (effectGfMul a b s).result = gfMul (currentField s) a b := rfl
@[simp] theorem effectGfMul_gfValid (a b : Byte) : (effectGfMul a b s).gfValid = s.gfValid := rfl
@[simp] theorem effectGfMul_gfPoly (a b : Byte) : (effectGfMul a b s).gfPoly = s.gfPoly := rfl
@[simp] theorem effectGfMul_gfM (a b : Byte) : (effectGfMul a b s).gfM = s.gfM := rfl
@[simp] theorem effectGfMul_log (a b : Byte) : (effectGfMul a b s).log = s.log := rfl
@[simp] theorem effectGfMul_alog (a b : Byte) : (effectGfMul a b s).alog = s.alog := rfl
@[simp] theorem effectGfMul_rsValid (a b : Byte) : (effectGfMul a b s).rsValid = s.rsValid := rfl
@[simp] theorem effectGfMul_rsNsym (a b : Byte) : (effectGfMul a b s).rsNsym = s.rsNsym := rfl
@[simp] theorem effectGfMul_rsIndex (a b : Byte) : (effectGfMul a b s).rsIndex = s.rsIndex := rfl
@[simp] theorem effectGfMul_rsCount (a b : Byte) : (effectGfMul a b s).rsCount = s.rsCount := rfl
@[simp] theorem effectGfMul_g (a b : Byte) : (effectGfMul a b s).g = s.g := rfl
@[simp] theorem effectGfMul_r (a b : Byte) : (effectGfMul a b s).r = s.r := rfl
@[simp] theorem effectGfMul_pkState (a b : Byte) : (effectGfMul a b s).pkState = s.pkState := rfl
@[simp] theorem effectGfMul_pkW (a b : Byte) : (effectGfMul a b s).pkW = s.pkW := rfl
@[simp] theorem effectGfMul_pkCap (a b : Byte) : (effectGfMul a b s).pkCap = s.pkCap := rfl
@[simp] theorem effectGfMul_pkLen (a b : Byte) : (effectGfMul a b s).pkLen = s.pkLen := rfl
@[simp] theorem effectGfMul_bb (a b : Byte) : (effectGfMul a b s).bb = s.bb := rfl
@[simp] theorem effectGfMul_tval (a b : Byte) : (effectGfMul a b s).tval = s.tval := rfl
@[simp] theorem effectGfMul_tlen (a b : Byte) : (effectGfMul a b s).tlen = s.tlen := rfl
@[simp] theorem effectGfMul_tmode (a b : Byte) : (effectGfMul a b s).tmode = s.tmode := rfl
@[simp] theorem effectGfMul_fval (a b : Byte) : (effectGfMul a b s).fval = s.fval := rfl
@[simp] theorem effectGfMul_flen (a b : Byte) : (effectGfMul a b s).flen = s.flen := rfl
@[simp] theorem effectGfMul_rstN (a b : Byte) : (effectGfMul a b s).rstN = s.rstN := rfl
@[simp] theorem effectGfMul_inbox (a b : Byte) : (effectGfMul a b s).inbox = s.inbox := rfl
@[simp] theorem effectGfMul_responses (a b : Byte) : (effectGfMul a b s).responses = s.responses := rfl
@[simp] theorem effectGfMul_draws (a b : Byte) : (effectGfMul a b s).draws = s.draws := rfl
@[simp] theorem effectGfMul_overtaken (a b : Byte) : (effectGfMul a b s).overtaken = s.overtaken := rfl
@[simp] theorem effectGfMul_seed (a b : Byte) : (effectGfMul a b s).seed = s.seed := rfl

/-! ### effectGfAdd -/

@[simp] theorem effectGfAdd_irqEn (a b : Byte) : (effectGfAdd a b s).irqEn = s.irqEn := rfl
@[simp] theorem effectGfAdd_fault (a b : Byte) : (effectGfAdd a b s).fault = s.fault := rfl
@[simp] theorem effectGfAdd_faultCode (a b : Byte) : (effectGfAdd a b s).faultCode = s.faultCode := rfl
@[simp] theorem effectGfAdd_faultCmd (a b : Byte) : (effectGfAdd a b s).faultCmd = s.faultCmd := rfl
@[simp] theorem effectGfAdd_pending (a b : Byte) : (effectGfAdd a b s).pending = s.pending := rfl
@[simp] theorem effectGfAdd_result (a b : Byte) : (effectGfAdd a b s).result = gfAdd a b := rfl
@[simp] theorem effectGfAdd_gfValid (a b : Byte) : (effectGfAdd a b s).gfValid = s.gfValid := rfl
@[simp] theorem effectGfAdd_gfPoly (a b : Byte) : (effectGfAdd a b s).gfPoly = s.gfPoly := rfl
@[simp] theorem effectGfAdd_gfM (a b : Byte) : (effectGfAdd a b s).gfM = s.gfM := rfl
@[simp] theorem effectGfAdd_log (a b : Byte) : (effectGfAdd a b s).log = s.log := rfl
@[simp] theorem effectGfAdd_alog (a b : Byte) : (effectGfAdd a b s).alog = s.alog := rfl
@[simp] theorem effectGfAdd_rsValid (a b : Byte) : (effectGfAdd a b s).rsValid = s.rsValid := rfl
@[simp] theorem effectGfAdd_rsNsym (a b : Byte) : (effectGfAdd a b s).rsNsym = s.rsNsym := rfl
@[simp] theorem effectGfAdd_rsIndex (a b : Byte) : (effectGfAdd a b s).rsIndex = s.rsIndex := rfl
@[simp] theorem effectGfAdd_rsCount (a b : Byte) : (effectGfAdd a b s).rsCount = s.rsCount := rfl
@[simp] theorem effectGfAdd_g (a b : Byte) : (effectGfAdd a b s).g = s.g := rfl
@[simp] theorem effectGfAdd_r (a b : Byte) : (effectGfAdd a b s).r = s.r := rfl
@[simp] theorem effectGfAdd_pkState (a b : Byte) : (effectGfAdd a b s).pkState = s.pkState := rfl
@[simp] theorem effectGfAdd_pkW (a b : Byte) : (effectGfAdd a b s).pkW = s.pkW := rfl
@[simp] theorem effectGfAdd_pkCap (a b : Byte) : (effectGfAdd a b s).pkCap = s.pkCap := rfl
@[simp] theorem effectGfAdd_pkLen (a b : Byte) : (effectGfAdd a b s).pkLen = s.pkLen := rfl
@[simp] theorem effectGfAdd_bb (a b : Byte) : (effectGfAdd a b s).bb = s.bb := rfl
@[simp] theorem effectGfAdd_tval (a b : Byte) : (effectGfAdd a b s).tval = s.tval := rfl
@[simp] theorem effectGfAdd_tlen (a b : Byte) : (effectGfAdd a b s).tlen = s.tlen := rfl
@[simp] theorem effectGfAdd_tmode (a b : Byte) : (effectGfAdd a b s).tmode = s.tmode := rfl
@[simp] theorem effectGfAdd_fval (a b : Byte) : (effectGfAdd a b s).fval = s.fval := rfl
@[simp] theorem effectGfAdd_flen (a b : Byte) : (effectGfAdd a b s).flen = s.flen := rfl
@[simp] theorem effectGfAdd_rstN (a b : Byte) : (effectGfAdd a b s).rstN = s.rstN := rfl
@[simp] theorem effectGfAdd_inbox (a b : Byte) : (effectGfAdd a b s).inbox = s.inbox := rfl
@[simp] theorem effectGfAdd_responses (a b : Byte) : (effectGfAdd a b s).responses = s.responses := rfl
@[simp] theorem effectGfAdd_draws (a b : Byte) : (effectGfAdd a b s).draws = s.draws := rfl
@[simp] theorem effectGfAdd_overtaken (a b : Byte) : (effectGfAdd a b s).overtaken = s.overtaken := rfl
@[simp] theorem effectGfAdd_seed (a b : Byte) : (effectGfAdd a b s).seed = s.seed := rfl

/-! ### effectRsInit -/

@[simp] theorem effectRsInit_irqEn (nsym index : BitVec 8) : (effectRsInit nsym index s).irqEn = s.irqEn := rfl
@[simp] theorem effectRsInit_fault (nsym index : BitVec 8) : (effectRsInit nsym index s).fault = s.fault := rfl
@[simp] theorem effectRsInit_faultCode (nsym index : BitVec 8) : (effectRsInit nsym index s).faultCode = s.faultCode := rfl
@[simp] theorem effectRsInit_faultCmd (nsym index : BitVec 8) : (effectRsInit nsym index s).faultCmd = s.faultCmd := rfl
@[simp] theorem effectRsInit_pending (nsym index : BitVec 8) : (effectRsInit nsym index s).pending = s.pending := rfl
@[simp] theorem effectRsInit_result (nsym index : BitVec 8) : (effectRsInit nsym index s).result = s.result := rfl
@[simp] theorem effectRsInit_gfValid (nsym index : BitVec 8) : (effectRsInit nsym index s).gfValid = s.gfValid := rfl
@[simp] theorem effectRsInit_gfPoly (nsym index : BitVec 8) : (effectRsInit nsym index s).gfPoly = s.gfPoly := rfl
@[simp] theorem effectRsInit_gfM (nsym index : BitVec 8) : (effectRsInit nsym index s).gfM = s.gfM := rfl
@[simp] theorem effectRsInit_log (nsym index : BitVec 8) : (effectRsInit nsym index s).log = s.log := rfl
@[simp] theorem effectRsInit_alog (nsym index : BitVec 8) : (effectRsInit nsym index s).alog = s.alog := rfl
@[simp] theorem effectRsInit_rsValid (nsym index : BitVec 8) : (effectRsInit nsym index s).rsValid = true := rfl
@[simp] theorem effectRsInit_rsNsym (nsym index : BitVec 8) : (effectRsInit nsym index s).rsNsym = nsym := rfl
@[simp] theorem effectRsInit_rsIndex (nsym index : BitVec 8) : (effectRsInit nsym index s).rsIndex = BitVec.ofNat 8 (reducedIndex s index) := rfl
@[simp] theorem effectRsInit_rsCount (nsym index : BitVec 8) : (effectRsInit nsym index s).rsCount = 0 := rfl
@[simp] theorem effectRsInit_g (nsym index : BitVec 8) : (effectRsInit nsym index s).g = genPoly (currentField s) nsym.toNat (reducedIndex s index) := rfl
@[simp] theorem effectRsInit_r (nsym index : BitVec 8) : (effectRsInit nsym index s).r = Table.zero := rfl
@[simp] theorem effectRsInit_pkState (nsym index : BitVec 8) : (effectRsInit nsym index s).pkState = s.pkState := rfl
@[simp] theorem effectRsInit_pkW (nsym index : BitVec 8) : (effectRsInit nsym index s).pkW = s.pkW := rfl
@[simp] theorem effectRsInit_pkCap (nsym index : BitVec 8) : (effectRsInit nsym index s).pkCap = s.pkCap := rfl
@[simp] theorem effectRsInit_pkLen (nsym index : BitVec 8) : (effectRsInit nsym index s).pkLen = s.pkLen := rfl
@[simp] theorem effectRsInit_bb (nsym index : BitVec 8) : (effectRsInit nsym index s).bb = s.bb := rfl
@[simp] theorem effectRsInit_tval (nsym index : BitVec 8) : (effectRsInit nsym index s).tval = s.tval := rfl
@[simp] theorem effectRsInit_tlen (nsym index : BitVec 8) : (effectRsInit nsym index s).tlen = s.tlen := rfl
@[simp] theorem effectRsInit_tmode (nsym index : BitVec 8) : (effectRsInit nsym index s).tmode = s.tmode := rfl
@[simp] theorem effectRsInit_fval (nsym index : BitVec 8) : (effectRsInit nsym index s).fval = s.fval := rfl
@[simp] theorem effectRsInit_flen (nsym index : BitVec 8) : (effectRsInit nsym index s).flen = s.flen := rfl
@[simp] theorem effectRsInit_rstN (nsym index : BitVec 8) : (effectRsInit nsym index s).rstN = s.rstN := rfl
@[simp] theorem effectRsInit_inbox (nsym index : BitVec 8) : (effectRsInit nsym index s).inbox = s.inbox := rfl
@[simp] theorem effectRsInit_responses (nsym index : BitVec 8) : (effectRsInit nsym index s).responses = s.responses := rfl
@[simp] theorem effectRsInit_draws (nsym index : BitVec 8) : (effectRsInit nsym index s).draws = s.draws := rfl
@[simp] theorem effectRsInit_overtaken (nsym index : BitVec 8) : (effectRsInit nsym index s).overtaken = s.overtaken := rfl
@[simp] theorem effectRsInit_seed (nsym index : BitVec 8) : (effectRsInit nsym index s).seed = s.seed := rfl

/-! ### effectRsClear -/

@[simp] theorem effectRsClear_irqEn : (effectRsClear s).irqEn = s.irqEn := rfl
@[simp] theorem effectRsClear_fault : (effectRsClear s).fault = s.fault := rfl
@[simp] theorem effectRsClear_faultCode : (effectRsClear s).faultCode = s.faultCode := rfl
@[simp] theorem effectRsClear_faultCmd : (effectRsClear s).faultCmd = s.faultCmd := rfl
@[simp] theorem effectRsClear_pending : (effectRsClear s).pending = s.pending := rfl
@[simp] theorem effectRsClear_result : (effectRsClear s).result = s.result := rfl
@[simp] theorem effectRsClear_gfValid : (effectRsClear s).gfValid = s.gfValid := rfl
@[simp] theorem effectRsClear_gfPoly : (effectRsClear s).gfPoly = s.gfPoly := rfl
@[simp] theorem effectRsClear_gfM : (effectRsClear s).gfM = s.gfM := rfl
@[simp] theorem effectRsClear_log : (effectRsClear s).log = s.log := rfl
@[simp] theorem effectRsClear_alog : (effectRsClear s).alog = s.alog := rfl
@[simp] theorem effectRsClear_rsValid : (effectRsClear s).rsValid = s.rsValid := rfl
@[simp] theorem effectRsClear_rsNsym : (effectRsClear s).rsNsym = s.rsNsym := rfl
@[simp] theorem effectRsClear_rsIndex : (effectRsClear s).rsIndex = s.rsIndex := rfl
@[simp] theorem effectRsClear_rsCount : (effectRsClear s).rsCount = 0 := rfl
@[simp] theorem effectRsClear_g : (effectRsClear s).g = s.g := rfl
@[simp] theorem effectRsClear_r : (effectRsClear s).r = Table.zero := rfl
@[simp] theorem effectRsClear_pkState : (effectRsClear s).pkState = s.pkState := rfl
@[simp] theorem effectRsClear_pkW : (effectRsClear s).pkW = s.pkW := rfl
@[simp] theorem effectRsClear_pkCap : (effectRsClear s).pkCap = s.pkCap := rfl
@[simp] theorem effectRsClear_pkLen : (effectRsClear s).pkLen = s.pkLen := rfl
@[simp] theorem effectRsClear_bb : (effectRsClear s).bb = s.bb := rfl
@[simp] theorem effectRsClear_tval : (effectRsClear s).tval = s.tval := rfl
@[simp] theorem effectRsClear_tlen : (effectRsClear s).tlen = s.tlen := rfl
@[simp] theorem effectRsClear_tmode : (effectRsClear s).tmode = s.tmode := rfl
@[simp] theorem effectRsClear_fval : (effectRsClear s).fval = s.fval := rfl
@[simp] theorem effectRsClear_flen : (effectRsClear s).flen = s.flen := rfl
@[simp] theorem effectRsClear_rstN : (effectRsClear s).rstN = s.rstN := rfl
@[simp] theorem effectRsClear_inbox : (effectRsClear s).inbox = s.inbox := rfl
@[simp] theorem effectRsClear_responses : (effectRsClear s).responses = s.responses := rfl
@[simp] theorem effectRsClear_draws : (effectRsClear s).draws = s.draws := rfl
@[simp] theorem effectRsClear_overtaken : (effectRsClear s).overtaken = s.overtaken := rfl
@[simp] theorem effectRsClear_seed : (effectRsClear s).seed = s.seed := rfl

/-! ### effectRsFeed -/

@[simp] theorem effectRsFeed_irqEn (d : Byte) : (effectRsFeed d s).irqEn = s.irqEn := rfl
@[simp] theorem effectRsFeed_fault (d : Byte) : (effectRsFeed d s).fault = s.fault := rfl
@[simp] theorem effectRsFeed_faultCode (d : Byte) : (effectRsFeed d s).faultCode = s.faultCode := rfl
@[simp] theorem effectRsFeed_faultCmd (d : Byte) : (effectRsFeed d s).faultCmd = s.faultCmd := rfl
@[simp] theorem effectRsFeed_pending (d : Byte) : (effectRsFeed d s).pending = s.pending := rfl
@[simp] theorem effectRsFeed_result (d : Byte) : (effectRsFeed d s).result = s.result := rfl
@[simp] theorem effectRsFeed_gfValid (d : Byte) : (effectRsFeed d s).gfValid = s.gfValid := rfl
@[simp] theorem effectRsFeed_gfPoly (d : Byte) : (effectRsFeed d s).gfPoly = s.gfPoly := rfl
@[simp] theorem effectRsFeed_gfM (d : Byte) : (effectRsFeed d s).gfM = s.gfM := rfl
@[simp] theorem effectRsFeed_log (d : Byte) : (effectRsFeed d s).log = s.log := rfl
@[simp] theorem effectRsFeed_alog (d : Byte) : (effectRsFeed d s).alog = s.alog := rfl
@[simp] theorem effectRsFeed_rsValid (d : Byte) : (effectRsFeed d s).rsValid = s.rsValid := rfl
@[simp] theorem effectRsFeed_rsNsym (d : Byte) : (effectRsFeed d s).rsNsym = s.rsNsym := rfl
@[simp] theorem effectRsFeed_rsIndex (d : Byte) : (effectRsFeed d s).rsIndex = s.rsIndex := rfl
@[simp] theorem effectRsFeed_rsCount (d : Byte) : (effectRsFeed d s).rsCount = s.rsCount + 1 := rfl
@[simp] theorem effectRsFeed_g (d : Byte) : (effectRsFeed d s).g = s.g := rfl
@[simp] theorem effectRsFeed_r (d : Byte) : (effectRsFeed d s).r = divStep (currentField s) s.g s.rsNsym.toNat s.r d := rfl
@[simp] theorem effectRsFeed_pkState (d : Byte) : (effectRsFeed d s).pkState = s.pkState := rfl
@[simp] theorem effectRsFeed_pkW (d : Byte) : (effectRsFeed d s).pkW = s.pkW := rfl
@[simp] theorem effectRsFeed_pkCap (d : Byte) : (effectRsFeed d s).pkCap = s.pkCap := rfl
@[simp] theorem effectRsFeed_pkLen (d : Byte) : (effectRsFeed d s).pkLen = s.pkLen := rfl
@[simp] theorem effectRsFeed_bb (d : Byte) : (effectRsFeed d s).bb = s.bb := rfl
@[simp] theorem effectRsFeed_tval (d : Byte) : (effectRsFeed d s).tval = s.tval := rfl
@[simp] theorem effectRsFeed_tlen (d : Byte) : (effectRsFeed d s).tlen = s.tlen := rfl
@[simp] theorem effectRsFeed_tmode (d : Byte) : (effectRsFeed d s).tmode = s.tmode := rfl
@[simp] theorem effectRsFeed_fval (d : Byte) : (effectRsFeed d s).fval = s.fval := rfl
@[simp] theorem effectRsFeed_flen (d : Byte) : (effectRsFeed d s).flen = s.flen := rfl
@[simp] theorem effectRsFeed_rstN (d : Byte) : (effectRsFeed d s).rstN = s.rstN := rfl
@[simp] theorem effectRsFeed_inbox (d : Byte) : (effectRsFeed d s).inbox = s.inbox := rfl
@[simp] theorem effectRsFeed_responses (d : Byte) : (effectRsFeed d s).responses = s.responses := rfl
@[simp] theorem effectRsFeed_draws (d : Byte) : (effectRsFeed d s).draws = s.draws := rfl
@[simp] theorem effectRsFeed_overtaken (d : Byte) : (effectRsFeed d s).overtaken = s.overtaken := rfl
@[simp] theorem effectRsFeed_seed (d : Byte) : (effectRsFeed d s).seed = s.seed := rfl

/-! ### effectRsFeedcw -/

@[simp] theorem effectRsFeedcw_irqEn (start count : BitVec 12) : (effectRsFeedcw start count s).irqEn = s.irqEn := rfl
@[simp] theorem effectRsFeedcw_fault (start count : BitVec 12) : (effectRsFeedcw start count s).fault = s.fault := rfl
@[simp] theorem effectRsFeedcw_faultCode (start count : BitVec 12) : (effectRsFeedcw start count s).faultCode = s.faultCode := rfl
@[simp] theorem effectRsFeedcw_faultCmd (start count : BitVec 12) : (effectRsFeedcw start count s).faultCmd = s.faultCmd := rfl
@[simp] theorem effectRsFeedcw_pending (start count : BitVec 12) : (effectRsFeedcw start count s).pending = s.pending := rfl
@[simp] theorem effectRsFeedcw_result (start count : BitVec 12) : (effectRsFeedcw start count s).result = s.result := rfl
@[simp] theorem effectRsFeedcw_gfValid (start count : BitVec 12) : (effectRsFeedcw start count s).gfValid = s.gfValid := rfl
@[simp] theorem effectRsFeedcw_gfPoly (start count : BitVec 12) : (effectRsFeedcw start count s).gfPoly = s.gfPoly := rfl
@[simp] theorem effectRsFeedcw_gfM (start count : BitVec 12) : (effectRsFeedcw start count s).gfM = s.gfM := rfl
@[simp] theorem effectRsFeedcw_log (start count : BitVec 12) : (effectRsFeedcw start count s).log = s.log := rfl
@[simp] theorem effectRsFeedcw_alog (start count : BitVec 12) : (effectRsFeedcw start count s).alog = s.alog := rfl
@[simp] theorem effectRsFeedcw_rsValid (start count : BitVec 12) : (effectRsFeedcw start count s).rsValid = s.rsValid := rfl
@[simp] theorem effectRsFeedcw_rsNsym (start count : BitVec 12) : (effectRsFeedcw start count s).rsNsym = s.rsNsym := rfl
@[simp] theorem effectRsFeedcw_rsIndex (start count : BitVec 12) : (effectRsFeedcw start count s).rsIndex = s.rsIndex := rfl
@[simp] theorem effectRsFeedcw_rsCount (start count : BitVec 12) : (effectRsFeedcw start count s).rsCount = s.rsCount + BitVec.ofNat 32 count.toNat := rfl
@[simp] theorem effectRsFeedcw_g (start count : BitVec 12) : (effectRsFeedcw start count s).g = s.g := rfl
@[simp] theorem effectRsFeedcw_r (start count : BitVec 12) : (effectRsFeedcw start count s).r = divSteps (currentField s) s.g s.rsNsym.toNat s.r (fedRange s start.toNat count.toNat) := rfl
@[simp] theorem effectRsFeedcw_pkState (start count : BitVec 12) : (effectRsFeedcw start count s).pkState = s.pkState := rfl
@[simp] theorem effectRsFeedcw_pkW (start count : BitVec 12) : (effectRsFeedcw start count s).pkW = s.pkW := rfl
@[simp] theorem effectRsFeedcw_pkCap (start count : BitVec 12) : (effectRsFeedcw start count s).pkCap = s.pkCap := rfl
@[simp] theorem effectRsFeedcw_pkLen (start count : BitVec 12) : (effectRsFeedcw start count s).pkLen = s.pkLen := rfl
@[simp] theorem effectRsFeedcw_bb (start count : BitVec 12) : (effectRsFeedcw start count s).bb = s.bb := rfl
@[simp] theorem effectRsFeedcw_tval (start count : BitVec 12) : (effectRsFeedcw start count s).tval = s.tval := rfl
@[simp] theorem effectRsFeedcw_tlen (start count : BitVec 12) : (effectRsFeedcw start count s).tlen = s.tlen := rfl
@[simp] theorem effectRsFeedcw_tmode (start count : BitVec 12) : (effectRsFeedcw start count s).tmode = s.tmode := rfl
@[simp] theorem effectRsFeedcw_fval (start count : BitVec 12) : (effectRsFeedcw start count s).fval = s.fval := rfl
@[simp] theorem effectRsFeedcw_flen (start count : BitVec 12) : (effectRsFeedcw start count s).flen = s.flen := rfl
@[simp] theorem effectRsFeedcw_rstN (start count : BitVec 12) : (effectRsFeedcw start count s).rstN = s.rstN := rfl
@[simp] theorem effectRsFeedcw_inbox (start count : BitVec 12) : (effectRsFeedcw start count s).inbox = s.inbox := rfl
@[simp] theorem effectRsFeedcw_responses (start count : BitVec 12) : (effectRsFeedcw start count s).responses = s.responses := rfl
@[simp] theorem effectRsFeedcw_draws (start count : BitVec 12) : (effectRsFeedcw start count s).draws = s.draws := rfl
@[simp] theorem effectRsFeedcw_overtaken (start count : BitVec 12) : (effectRsFeedcw start count s).overtaken = s.overtaken := rfl
@[simp] theorem effectRsFeedcw_seed (start count : BitVec 12) : (effectRsFeedcw start count s).seed = s.seed := rfl

/-! ### effectPkInit -/

@[simp] theorem effectPkInit_irqEn (w : BitVec 4) (cap : BitVec 12) : (effectPkInit w cap s).irqEn = s.irqEn := rfl
@[simp] theorem effectPkInit_fault (w : BitVec 4) (cap : BitVec 12) : (effectPkInit w cap s).fault = s.fault := rfl
@[simp] theorem effectPkInit_faultCode (w : BitVec 4) (cap : BitVec 12) : (effectPkInit w cap s).faultCode = s.faultCode := rfl
@[simp] theorem effectPkInit_faultCmd (w : BitVec 4) (cap : BitVec 12) : (effectPkInit w cap s).faultCmd = s.faultCmd := rfl
@[simp] theorem effectPkInit_pending (w : BitVec 4) (cap : BitVec 12) : (effectPkInit w cap s).pending = s.pending := rfl
@[simp] theorem effectPkInit_result (w : BitVec 4) (cap : BitVec 12) : (effectPkInit w cap s).result = s.result := rfl
@[simp] theorem effectPkInit_gfValid (w : BitVec 4) (cap : BitVec 12) : (effectPkInit w cap s).gfValid = s.gfValid := rfl
@[simp] theorem effectPkInit_gfPoly (w : BitVec 4) (cap : BitVec 12) : (effectPkInit w cap s).gfPoly = s.gfPoly := rfl
@[simp] theorem effectPkInit_gfM (w : BitVec 4) (cap : BitVec 12) : (effectPkInit w cap s).gfM = s.gfM := rfl
@[simp] theorem effectPkInit_log (w : BitVec 4) (cap : BitVec 12) : (effectPkInit w cap s).log = s.log := rfl
@[simp] theorem effectPkInit_alog (w : BitVec 4) (cap : BitVec 12) : (effectPkInit w cap s).alog = s.alog := rfl
@[simp] theorem effectPkInit_rsValid (w : BitVec 4) (cap : BitVec 12) : (effectPkInit w cap s).rsValid = s.rsValid := rfl
@[simp] theorem effectPkInit_rsNsym (w : BitVec 4) (cap : BitVec 12) : (effectPkInit w cap s).rsNsym = s.rsNsym := rfl
@[simp] theorem effectPkInit_rsIndex (w : BitVec 4) (cap : BitVec 12) : (effectPkInit w cap s).rsIndex = s.rsIndex := rfl
@[simp] theorem effectPkInit_rsCount (w : BitVec 4) (cap : BitVec 12) : (effectPkInit w cap s).rsCount = s.rsCount := rfl
@[simp] theorem effectPkInit_g (w : BitVec 4) (cap : BitVec 12) : (effectPkInit w cap s).g = s.g := rfl
@[simp] theorem effectPkInit_r (w : BitVec 4) (cap : BitVec 12) : (effectPkInit w cap s).r = s.r := rfl
@[simp] theorem effectPkInit_pkState (w : BitVec 4) (cap : BitVec 12) : (effectPkInit w cap s).pkState = .open := rfl
@[simp] theorem effectPkInit_pkW (w : BitVec 4) (cap : BitVec 12) : (effectPkInit w cap s).pkW = w := rfl
@[simp] theorem effectPkInit_pkCap (w : BitVec 4) (cap : BitVec 12) : (effectPkInit w cap s).pkCap = cap := rfl
@[simp] theorem effectPkInit_pkLen (w : BitVec 4) (cap : BitVec 12) : (effectPkInit w cap s).pkLen = 0 := rfl
@[simp] theorem effectPkInit_bb (w : BitVec 4) (cap : BitVec 12) : (effectPkInit w cap s).bb = 0 := rfl
@[simp] theorem effectPkInit_tval (w : BitVec 4) (cap : BitVec 12) : (effectPkInit w cap s).tval = s.tval := rfl
@[simp] theorem effectPkInit_tlen (w : BitVec 4) (cap : BitVec 12) : (effectPkInit w cap s).tlen = s.tlen := rfl
@[simp] theorem effectPkInit_tmode (w : BitVec 4) (cap : BitVec 12) : (effectPkInit w cap s).tmode = s.tmode := rfl
@[simp] theorem effectPkInit_fval (w : BitVec 4) (cap : BitVec 12) : (effectPkInit w cap s).fval = s.fval := rfl
@[simp] theorem effectPkInit_flen (w : BitVec 4) (cap : BitVec 12) : (effectPkInit w cap s).flen = s.flen := rfl
@[simp] theorem effectPkInit_rstN (w : BitVec 4) (cap : BitVec 12) : (effectPkInit w cap s).rstN = s.rstN := rfl
@[simp] theorem effectPkInit_inbox (w : BitVec 4) (cap : BitVec 12) : (effectPkInit w cap s).inbox = s.inbox := rfl
@[simp] theorem effectPkInit_responses (w : BitVec 4) (cap : BitVec 12) : (effectPkInit w cap s).responses = s.responses := rfl
@[simp] theorem effectPkInit_draws (w : BitVec 4) (cap : BitVec 12) : (effectPkInit w cap s).draws = s.draws := rfl
@[simp] theorem effectPkInit_overtaken (w : BitVec 4) (cap : BitVec 12) : (effectPkInit w cap s).overtaken = s.overtaken := rfl
@[simp] theorem effectPkInit_seed (w : BitVec 4) (cap : BitVec 12) : (effectPkInit w cap s).seed = s.seed := rfl

/-! ### effectPkAppend -/

@[simp] theorem effectPkAppend_irqEn (nm1 : BitVec 4) (val : BitVec 16) : (effectPkAppend nm1 val s).irqEn = s.irqEn := rfl
@[simp] theorem effectPkAppend_fault (nm1 : BitVec 4) (val : BitVec 16) : (effectPkAppend nm1 val s).fault = s.fault := rfl
@[simp] theorem effectPkAppend_faultCode (nm1 : BitVec 4) (val : BitVec 16) : (effectPkAppend nm1 val s).faultCode = s.faultCode := rfl
@[simp] theorem effectPkAppend_faultCmd (nm1 : BitVec 4) (val : BitVec 16) : (effectPkAppend nm1 val s).faultCmd = s.faultCmd := rfl
@[simp] theorem effectPkAppend_pending (nm1 : BitVec 4) (val : BitVec 16) : (effectPkAppend nm1 val s).pending = s.pending := rfl
@[simp] theorem effectPkAppend_result (nm1 : BitVec 4) (val : BitVec 16) : (effectPkAppend nm1 val s).result = s.result := rfl
@[simp] theorem effectPkAppend_gfValid (nm1 : BitVec 4) (val : BitVec 16) : (effectPkAppend nm1 val s).gfValid = s.gfValid := rfl
@[simp] theorem effectPkAppend_gfPoly (nm1 : BitVec 4) (val : BitVec 16) : (effectPkAppend nm1 val s).gfPoly = s.gfPoly := rfl
@[simp] theorem effectPkAppend_gfM (nm1 : BitVec 4) (val : BitVec 16) : (effectPkAppend nm1 val s).gfM = s.gfM := rfl
@[simp] theorem effectPkAppend_log (nm1 : BitVec 4) (val : BitVec 16) : (effectPkAppend nm1 val s).log = s.log := rfl
@[simp] theorem effectPkAppend_alog (nm1 : BitVec 4) (val : BitVec 16) : (effectPkAppend nm1 val s).alog = s.alog := rfl
@[simp] theorem effectPkAppend_rsValid (nm1 : BitVec 4) (val : BitVec 16) : (effectPkAppend nm1 val s).rsValid = s.rsValid := rfl
@[simp] theorem effectPkAppend_rsNsym (nm1 : BitVec 4) (val : BitVec 16) : (effectPkAppend nm1 val s).rsNsym = s.rsNsym := rfl
@[simp] theorem effectPkAppend_rsIndex (nm1 : BitVec 4) (val : BitVec 16) : (effectPkAppend nm1 val s).rsIndex = s.rsIndex := rfl
@[simp] theorem effectPkAppend_rsCount (nm1 : BitVec 4) (val : BitVec 16) : (effectPkAppend nm1 val s).rsCount = s.rsCount := rfl
@[simp] theorem effectPkAppend_g (nm1 : BitVec 4) (val : BitVec 16) : (effectPkAppend nm1 val s).g = s.g := rfl
@[simp] theorem effectPkAppend_r (nm1 : BitVec 4) (val : BitVec 16) : (effectPkAppend nm1 val s).r = s.r := rfl
@[simp] theorem effectPkAppend_pkState (nm1 : BitVec 4) (val : BitVec 16) : (effectPkAppend nm1 val s).pkState = s.pkState := rfl
@[simp] theorem effectPkAppend_pkW (nm1 : BitVec 4) (val : BitVec 16) : (effectPkAppend nm1 val s).pkW = s.pkW := rfl
@[simp] theorem effectPkAppend_pkCap (nm1 : BitVec 4) (val : BitVec 16) : (effectPkAppend nm1 val s).pkCap = s.pkCap := rfl
@[simp] theorem effectPkAppend_pkLen (nm1 : BitVec 4) (val : BitVec 16) : (effectPkAppend nm1 val s).pkLen = BitVec.ofNat 16 (s.pkLen.toNat + appendLength nm1) := rfl
@[simp] theorem effectPkAppend_bb (nm1 : BitVec 4) (val : BitVec 16) : (effectPkAppend nm1 val s).bb = writeBits (patternBit val (appendLength nm1)) s.pkLen.toNat (appendLength nm1) s.bb := rfl
@[simp] theorem effectPkAppend_tval (nm1 : BitVec 4) (val : BitVec 16) : (effectPkAppend nm1 val s).tval = s.tval := rfl
@[simp] theorem effectPkAppend_tlen (nm1 : BitVec 4) (val : BitVec 16) : (effectPkAppend nm1 val s).tlen = s.tlen := rfl
@[simp] theorem effectPkAppend_tmode (nm1 : BitVec 4) (val : BitVec 16) : (effectPkAppend nm1 val s).tmode = s.tmode := rfl
@[simp] theorem effectPkAppend_fval (nm1 : BitVec 4) (val : BitVec 16) : (effectPkAppend nm1 val s).fval = s.fval := rfl
@[simp] theorem effectPkAppend_flen (nm1 : BitVec 4) (val : BitVec 16) : (effectPkAppend nm1 val s).flen = s.flen := rfl
@[simp] theorem effectPkAppend_rstN (nm1 : BitVec 4) (val : BitVec 16) : (effectPkAppend nm1 val s).rstN = s.rstN := rfl
@[simp] theorem effectPkAppend_inbox (nm1 : BitVec 4) (val : BitVec 16) : (effectPkAppend nm1 val s).inbox = s.inbox := rfl
@[simp] theorem effectPkAppend_responses (nm1 : BitVec 4) (val : BitVec 16) : (effectPkAppend nm1 val s).responses = s.responses := rfl
@[simp] theorem effectPkAppend_draws (nm1 : BitVec 4) (val : BitVec 16) : (effectPkAppend nm1 val s).draws = s.draws := rfl
@[simp] theorem effectPkAppend_overtaken (nm1 : BitVec 4) (val : BitVec 16) : (effectPkAppend nm1 val s).overtaken = s.overtaken := rfl
@[simp] theorem effectPkAppend_seed (nm1 : BitVec 4) (val : BitVec 16) : (effectPkAppend nm1 val s).seed = s.seed := rfl

/-! ### effectPkFinish -/

@[simp] theorem effectPkFinish_irqEn : (effectPkFinish s).irqEn = s.irqEn := rfl
@[simp] theorem effectPkFinish_fault : (effectPkFinish s).fault = s.fault := rfl
@[simp] theorem effectPkFinish_faultCode : (effectPkFinish s).faultCode = s.faultCode := rfl
@[simp] theorem effectPkFinish_faultCmd : (effectPkFinish s).faultCmd = s.faultCmd := rfl
@[simp] theorem effectPkFinish_pending : (effectPkFinish s).pending = s.pending := rfl
@[simp] theorem effectPkFinish_result : (effectPkFinish s).result = s.result := rfl
@[simp] theorem effectPkFinish_gfValid : (effectPkFinish s).gfValid = s.gfValid := rfl
@[simp] theorem effectPkFinish_gfPoly : (effectPkFinish s).gfPoly = s.gfPoly := rfl
@[simp] theorem effectPkFinish_gfM : (effectPkFinish s).gfM = s.gfM := rfl
@[simp] theorem effectPkFinish_log : (effectPkFinish s).log = s.log := rfl
@[simp] theorem effectPkFinish_alog : (effectPkFinish s).alog = s.alog := rfl
@[simp] theorem effectPkFinish_rsValid : (effectPkFinish s).rsValid = s.rsValid := rfl
@[simp] theorem effectPkFinish_rsNsym : (effectPkFinish s).rsNsym = s.rsNsym := rfl
@[simp] theorem effectPkFinish_rsIndex : (effectPkFinish s).rsIndex = s.rsIndex := rfl
@[simp] theorem effectPkFinish_rsCount : (effectPkFinish s).rsCount = s.rsCount := rfl
@[simp] theorem effectPkFinish_g : (effectPkFinish s).g = s.g := rfl
@[simp] theorem effectPkFinish_r : (effectPkFinish s).r = s.r := rfl
@[simp] theorem effectPkFinish_pkState : (effectPkFinish s).pkState = .done := rfl
@[simp] theorem effectPkFinish_pkW : (effectPkFinish s).pkW = s.pkW := rfl
@[simp] theorem effectPkFinish_pkCap : (effectPkFinish s).pkCap = s.pkCap := rfl
@[simp] theorem effectPkFinish_pkLen : (effectPkFinish s).pkLen = BitVec.ofNat 16 (totalBits s) := rfl
@[simp] theorem effectPkFinish_bb : (effectPkFinish s).bb = writeBits (fillBit s) (s.pkLen.toNat + terminatorBits s) (totalBits s - (s.pkLen.toNat + terminatorBits s)) (writeBits (patternBit s.tval s.tlen.toNat) s.pkLen.toNat (terminatorBits s) s.bb) := rfl
@[simp] theorem effectPkFinish_tval : (effectPkFinish s).tval = s.tval := rfl
@[simp] theorem effectPkFinish_tlen : (effectPkFinish s).tlen = s.tlen := rfl
@[simp] theorem effectPkFinish_tmode : (effectPkFinish s).tmode = s.tmode := rfl
@[simp] theorem effectPkFinish_fval : (effectPkFinish s).fval = s.fval := rfl
@[simp] theorem effectPkFinish_flen : (effectPkFinish s).flen = s.flen := rfl
@[simp] theorem effectPkFinish_rstN : (effectPkFinish s).rstN = s.rstN := rfl
@[simp] theorem effectPkFinish_inbox : (effectPkFinish s).inbox = s.inbox := rfl
@[simp] theorem effectPkFinish_responses : (effectPkFinish s).responses = s.responses := rfl
@[simp] theorem effectPkFinish_draws : (effectPkFinish s).draws = s.draws := rfl
@[simp] theorem effectPkFinish_overtaken : (effectPkFinish s).overtaken = s.overtaken := rfl
@[simp] theorem effectPkFinish_seed : (effectPkFinish s).seed = s.seed := rfl

end Sys2Proof.Machine
end

