-- ==== Sys2Proof/Laws/Ops.lean ====
section
/-! SUPPORT. What the shared operations do, said once: a table and a run of buffer bits after a write, and a command
after its discard, its fault or its effect. -/
namespace Sys2Proof.Machine

/-! ### Tables -/

theorem Table.get_of_lt (t : Table) {k : Nat} (h : k < 256) : t.get k = t[k] := by
  simp [Table.get, h]

@[simp] theorem Table.get_of_ge (t : Table) {k : Nat} (h : 256 ≤ k) : t.get k = 0 := by
  simp [Table.get, Nat.not_lt.mpr h]

theorem Table.get_put (t : Table) (j k : Nat) (v : Byte) :
    (t.put j v).get k = if k = j ∧ j < 256 then v else t.get k := by
  unfold Table.get Table.put
  by_cases hk : k < 256
  · by_cases hj : j < 256
    · rw [dif_pos hk, dif_pos hj, dif_pos hk, Vector.getElem_set]
      exact if_congr (by omega) rfl rfl
    · rw [dif_neg hj, if_neg (by omega)]
  · rw [dif_neg hk, dif_neg hk, if_neg (by omega)]

@[simp] theorem Table.get_zero (k : Nat) : Table.zero.get k = 0 := by
  unfold Table.get Table.zero
  split
  · exact Vector.getElem_replicate _
  · rfl

/-- Two tables with the same entries are the same table. -/
theorem Table.ext_get {t u : Table} (h : ∀ k, t.get k = u.get k) : t = u := by
  ext k hk : 1
  simpa [Table.get, hk] using h k

/-! ### The bit buffer -/

/-- One bit of a one-bit mask. -/
theorem getLsbD_one_shiftLeft {n : Nat} (i j : Nat) :
    (1#n <<< i).getLsbD j = decide (j = i ∧ i < n) := by
  rw [BitVec.getLsbD_shiftLeft, BitVec.getLsbD_one, Bool.eq_iff_iff]
  simp only [Bool.and_eq_true, Bool.not_eq_true', decide_eq_true_eq, decide_eq_false_iff_not]
  omega

/-- Setting one bit of a vector by a mask, for any width. -/
theorem getLsbD_maskBit {n : Nat} (v : BitVec n) (i j : Nat) (b : Bool) :
    (if b then v ||| (1#n <<< i) else v &&& ~~~(1#n <<< i)).getLsbD j =
      if j = i ∧ i < n then b else v.getLsbD j := by
  by_cases hj : j < n
  · cases b <;>
      simp only [BitVec.getLsbD_or, BitVec.getLsbD_and, BitVec.getLsbD_not, getLsbD_one_shiftLeft, if_true, if_false,
        Bool.false_eq_true] <;>
      by_cases hji : j = i <;> simp_all
  · rw [BitVec.getLsbD_of_ge _ j (by omega), BitVec.getLsbD_of_ge _ j (by omega), if_neg (by omega)]

theorem getLsbD_setBit (bb : BitBuffer) (i j : Nat) (b : Bool) :
    (setBit bb i b).getLsbD j = if j = i ∧ i < 32760 then b else bb.getLsbD j :=
  getLsbD_maskBit bb i j b

/-- A run of bits: inside it the bits written, outside it the bits as they were. -/
theorem getLsbD_writeBits (bit : Nat → Bool) (base n : Nat) (bb : BitBuffer) (j : Nat) :
    (writeBits bit base n bb).getLsbD j =
      if base ≤ j ∧ j < base + n ∧ j < 32760 then bit (j - base) else bb.getLsbD j := by
  induction n with
  | zero => rw [writeBits, if_neg (by omega)]
  | succ n ih =>
    rw [writeBits, getLsbD_setBit, ih]
    by_cases hj : j = base + n
    · subst hj
      by_cases hb : base + n < 32760 <;> simp [hb]
    · have : (base ≤ j ∧ j < base + (n + 1) ∧ j < 32760) ↔ (base ≤ j ∧ j < base + n ∧ j < 32760) := by omega
      simp only [hj, this, false_and, if_false]

/-! ### A command -/

section
variable {w : Word} {check : State → Option FaultCode} {effect : State → State} {s t : State}

theorem command_discarded (h : s.fault = true) : command w check effect s = .next (complete s) := by
  simp [command, h]

theorem command_faults {c : FaultCode} (h : s.fault = false) (hc : check s = some c) :
    command w check effect s = .next (complete (raiseFault c w s)) := by
  simp [command, attempt, h, hc]

theorem command_passes (h : s.fault = false) (hc : check s = none) :
    command w check effect s = .next (complete (effect s)) := by
  simp [command, attempt, h, hc]

/-- Everything a command can do: it is discarded, or records the fault of its first failing check, or has its effect;
and it completes. -/
theorem command_cases (h : command w check effect s = .next t) :
    (s.fault = true ∧ t = complete s) ∨
    (s.fault = false ∧ ∃ c, check s = some c ∧ t = complete (raiseFault c w s)) ∨
    (s.fault = false ∧ check s = none ∧ t = complete (effect s)) := by
  cases hf : s.fault with
  | true => exact .inl ⟨rfl, by simpa [command, hf] using h.symm⟩
  | false =>
    cases hc : check s with
    | some c => exact .inr (.inl ⟨rfl, c, rfl, by simpa [command, attempt, hf, hc] using h.symm⟩)
    | none => exact .inr (.inr ⟨rfl, rfl, by simpa [command, attempt, hf, hc] using h.symm⟩)

end

/-- The check of each command (60_exceptions.md R234). -/
def checkOf : Instr → State → Option FaultCode
  | .nop => fun _ => none
  | .gfInit poly => checkGfInit poly
  | .gfMul a b => checkGfOperands a b
  | .gfAdd a b => checkGfOperands a b
  | .rsInit nsym _ => checkRsInit nsym
  | .rsClear => checkRsClear
  | .rsFeed d => checkRsFeed d
  | .rsFeedcw start count => checkRsFeedcw start count
  | .pkInit w cap => checkPkInit w cap
  | .pkAppend nm1 _ => checkPkAppend nm1
  | .pkFinish => checkPkFinish

/-- The effect of each command. -/
def effectOf : Instr → State → State
  | .nop => id
  | .gfInit poly => effectGfInit poly
  | .gfMul a b => effectGfMul a b
  | .gfAdd a b => effectGfAdd a b
  | .rsInit nsym index => effectRsInit nsym index
  | .rsClear => effectRsClear
  | .rsFeed d => effectRsFeed d
  | .rsFeedcw start count => effectRsFeedcw start count
  | .pkInit w cap => effectPkInit w cap
  | .pkAppend nm1 val => effectPkAppend nm1 val
  | .pkFinish => effectPkFinish

/-- Every meaning is a command with its own word, checks and effect. -/
theorem exec_eq_command (i : Instr) (s : State) : exec i s = command (encode i) (checkOf i) (effectOf i) s := by
  cases i <;> rfl

/-- No meaning faults the host's way or refuses. -/
theorem exec_next (i : Instr) (s : State) :
    exec i s = .next (complete (if s.fault then s else attempt (encode i) (checkOf i) (effectOf i) s)) :=
  exec_eq_command i s

end Sys2Proof.Machine
end

