-- ==== Sys2Proof/Laws/Gf.lean ====
section
/-! SUPPORT. The GF unit: the degree of a legal polynomial, the power sequence as powers of x, and the tables entry by
entry (41_gf.md R151 to R154). -/
namespace Sys2Proof.Machine

/-! ### The degree -/

/-- A value below 2^(k+1) that is not 0 has its highest set bit where topBit says. -/
theorem topBit_spec (v : BitVec 16) (k : Nat) (h0 : v.toNat ≠ 0) (h : v.toNat < 2 ^ (k + 1)) :
    2 ^ topBit v k ≤ v.toNat ∧ v.toNat < 2 ^ (topBit v k + 1) := by
  induction k with
  | zero => simp only [topBit]; omega
  | succ k ih =>
    unfold topBit
    split
    · rename_i hb
      exact ⟨Nat.ge_two_pow_of_testBit hb, h⟩
    · rename_i hb
      refine ih ?_
      by_contra hge
      have hb' : v.toNat.testBit (k + 1) = false := by simpa [BitVec.getLsbD] using hb
      have : v.toNat / 2 ^ (k + 1) = 1 := by
        apply Nat.div_eq_of_lt_le <;> [omega; (have := Nat.pow_succ 2 (k + 1); omega)]
      simp [Nat.testBit, Nat.shiftRight_eq_div_pow, this] at hb'

/-- R152: 2^m ≤ POLY < 2^(m+1) for the degree m. -/
theorem degree_spec (poly : BitVec 16) (h : poly.toNat ≠ 0) :
    2 ^ degree poly ≤ poly.toNat ∧ poly.toNat < 2 ^ (degree poly + 1) :=
  topBit_spec poly 15 h (by have := poly.isLt; omega)

/-- The degree is the only m with 2^m ≤ POLY < 2^(m+1). -/
theorem degree_unique {poly : BitVec 16} {m : Nat} (h : 2 ^ m ≤ poly.toNat) (h' : poly.toNat < 2 ^ (m + 1)) :
    degree poly = m := by
  obtain ⟨h1, h2⟩ := degree_spec poly (by have := Nat.two_pow_pos m; omega)
  have a := (Nat.pow_lt_pow_iff_right (a := 2) (by decide)).mp (Nat.lt_of_le_of_lt h h2)
  have b := (Nat.pow_lt_pow_iff_right (a := 2) (by decide)).mp (Nat.lt_of_le_of_lt h1 h')
  omega

theorem legalPoly_iff (poly : BitVec 16) : legalPoly poly = true ↔ 4 ≤ poly.toNat ∧ poly.toNat ≤ 511 := by
  simp [legalPoly]

/-- R152: legal degrees are 2..8. -/
theorem degree_of_legal {poly : BitVec 16} (h : legalPoly poly = true) : 2 ≤ degree poly ∧ degree poly ≤ 8 := by
  rw [legalPoly_iff] at h
  obtain ⟨h1, h2⟩ := degree_spec poly (by omega)
  constructor
  · by_contra hlt
    have : 2 ^ (degree poly + 1) ≤ 2 ^ 2 := Nat.pow_le_pow_right (by decide) (by omega)
    omega
  · by_contra hlt
    have : 2 ^ 9 ≤ 2 ^ degree poly := Nat.pow_le_pow_right (by decide) (by omega)
    omega

/-! ### The power sequence -/

theorem powersFrom_xPow (poly : BitVec 16) (m n e : Nat) :
    powersFrom poly m n (xPow poly m e) = (List.range n).map fun v => xPow poly m (e + v) := by
  induction n generalizing e with
  | zero => rfl
  | succ n ih =>
    rw [powersFrom, List.range_succ_eq_map, List.map_cons, List.map_map]
    have : timesX poly m (xPow poly m e) = xPow poly m (e + 1) := rfl
    rw [this, ih]
    simp only [Nat.add_zero, List.cons.injEq, true_and]
    exact List.map_congr_left fun v _ => by simp [Nat.add_assoc, Nat.add_comm 1]

/-- R153: a[v] = x^v mod P. -/
theorem powerSequence_eq (poly : BitVec 16) :
    powerSequence poly = (List.range (logMod (degree poly))).map (xPow poly (degree poly)) := by
  have := powersFrom_xPow poly (degree poly) (logMod (degree poly)) 0
  simpa [powerSequence, xPow] using this

@[simp] theorem powerSequence_length (poly : BitVec 16) :
    (powerSequence poly).length = logMod (degree poly) := by simp [powerSequence_eq]

theorem distinct_iff (l : List (BitVec 16)) : distinct l = true ↔ l.Nodup := by
  induction l with
  | nil => simp [distinct]
  | cons x xs ih => simp [distinct, ih]

/-- R153, R154: what GF_INIT accepts, in terms of the powers of x. -/
theorem isPrimitive_iff (poly : BitVec 16) :
    isPrimitive poly = true ↔
      (∀ i j, i < logMod (degree poly) → j < logMod (degree poly) →
        xPow poly (degree poly) i = xPow poly (degree poly) j → i = j) ∧
      ∀ i, i < logMod (degree poly) → xPow poly (degree poly) i ≠ 0 := by
  simp only [isPrimitive, Bool.and_eq_true, distinct_iff, powerSequence_eq, Bool.not_eq_true', List.contains_eq_mem,
    decide_eq_false_iff_not, List.mem_map, List.mem_range, not_exists, not_and]
  refine and_congr ?_ Iff.rfl
  rw [List.nodup_map_iff_inj_on List.nodup_range]
  simp only [List.mem_range]
  exact ⟨fun h i j hi hj => h i hi j hj, fun h i hi j hj => h i j hi hj⟩

/-- R153: doubling and reducing stays below 2^m. -/
theorem timesX_lt {poly : BitVec 16} {m : Nat} (hm : m < 15) (h1 : 2 ^ m ≤ poly.toNat) (h2 : poly.toNat < 2 ^ (m + 1))
    {p : BitVec 16} (hp : p.toNat < 2 ^ m) : (timesX poly m p).toNat < 2 ^ m := by
  have hpow : 2 ^ (m + 1) = 2 * 2 ^ m := by rw [Nat.pow_succ, Nat.mul_comm]
  have hle : 2 ^ (m + 1) ≤ 2 ^ 15 := Nat.pow_le_pow_right (by decide) (by omega)
  have hq : (p <<< 1).toNat = 2 * p.toNat := by
    rw [BitVec.toNat_shiftLeft, Nat.shiftLeft_eq, Nat.mod_eq_of_lt (by omega)]; omega
  have htop : ∀ v : BitVec 16, v.toNat < 2 ^ (m + 1) → (v.toNat < 2 ^ m ↔ v.getLsbD m = false) := by
    intro v hv
    rw [BitVec.getLsbD, Nat.testBit, Nat.shiftRight_eq_div_pow]
    by_cases hlt : v.toNat < 2 ^ m
    · simp [hlt, Nat.div_eq_of_lt hlt]
    · have : v.toNat / 2 ^ m = 1 := Nat.div_eq_of_lt_le (by omega) (by omega)
      simp [hlt, this]
  unfold timesX
  simp only
  split
  · rename_i hb
    have hx : (p <<< 1 ^^^ poly).toNat < 2 ^ (m + 1) := by
      rw [BitVec.toNat_xor]; exact Nat.xor_lt_two_pow (by omega) h2
    rw [htop _ hx, BitVec.getLsbD_xor, hb]
    have : poly.getLsbD m ≠ false := fun h => by have := (htop poly h2).mpr h; omega
    simp [Bool.eq_true_of_not_eq_false this]
  · rename_i hb
    exact (htop _ (by omega)).mpr (by simpa using hb)

theorem xPow_lt {poly : BitVec 16} {m : Nat} (hm : 1 ≤ m) (hm' : m < 15) (h1 : 2 ^ m ≤ poly.toNat)
    (h2 : poly.toNat < 2 ^ (m + 1)) (e : Nat) : (xPow poly m e).toNat < 2 ^ m := by
  induction e with
  | zero => simpa [xPow] using Nat.one_lt_two_pow (by omega)
  | succ e ih => exact timesX_lt hm' h1 h2 ih

/-! ### The tables -/

theorem fillAlog_get (v : Nat) (xs : List (BitVec 16)) (t : Table) (k : Nat) :
    (fillAlog v xs t).get k =
      if h : v ≤ k ∧ k < v + xs.length ∧ k < 256 then (xs[k - v]'(by omega)).setWidth 8 else t.get k := by
  induction xs generalizing v t with
  | nil => rw [fillAlog, dif_neg (by simp only [List.length_nil]; omega)]
  | cons x xs ih =>
    rw [fillAlog, ih, Table.get_put]
    by_cases hk : k = v
    · subst hk
      by_cases hlt : k < 256 <;> simp [hlt]
    · by_cases hin : v + 1 ≤ k ∧ k < v + 1 + xs.length ∧ k < 256
      · have hin' : v ≤ k ∧ k < v + (x :: xs).length ∧ k < 256 := by simp only [List.length_cons]; omega
        rw [dif_pos hin, dif_pos hin']
        have : k - v = (k - (v + 1)) + 1 := by omega
        simp only [this, List.getElem_cons_succ]
      · have hin' : ¬(v ≤ k ∧ k < v + (x :: xs).length ∧ k < 256) := by simp only [List.length_cons]; omega
        rw [dif_neg hin, dif_neg hin', if_neg (by omega)]

/-- R42: ALOG[e] = α^e below LOGMOD, and 0 from there. -/
theorem alogTable_get {poly : BitVec 16} (h : legalPoly poly = true) (e : Nat) :
    (alogTable poly).get e =
      if e < logMod (degree poly) then (xPow poly (degree poly) e).setWidth 8 else 0 := by
  have hlm : logMod (degree poly) ≤ 255 := by
    have : 2 ^ degree poly ≤ 2 ^ 8 := Nat.pow_le_pow_right (by decide) (degree_of_legal h).2
    simp only [logMod]; omega
  rw [alogTable, fillAlog_get]
  by_cases he : e < logMod (degree poly)
  · rw [dif_pos (by simp only [powerSequence_length]; omega), if_pos he]
    simp [powerSequence_eq]
  · rw [dif_neg (by simp only [powerSequence_length]; omega), if_neg he, Table.get_zero]

/-- Entries of LOG at no value of the sequence keep what they were. -/
theorem fillLog_get_of_notMem (v : Nat) (xs : List (BitVec 16)) (t : Table) (k : Nat)
    (h : ∀ x ∈ xs, x.toNat ≠ k) : (fillLog v xs t).get k = t.get k := by
  induction xs generalizing v t with
  | nil => rfl
  | cons x xs ih =>
    rw [fillLog, ih _ _ fun y hy => h y (List.mem_cons_of_mem x hy), Table.get_put,
      if_neg fun hk => h x List.mem_cons_self hk.1.symm]

/-- LOG at the value of the sequence at place i holds its number. -/
theorem fillLog_get_getElem (v : Nat) (xs : List (BitVec 16)) (t : Table) (hn : xs.Nodup) (i : Nat)
    (hi : i < xs.length) (hx : xs[i].toNat < 256) :
    (fillLog v xs t).get xs[i].toNat = BitVec.ofNat 8 (v + i) := by
  induction xs generalizing v t i with
  | nil => simp at hi
  | cons x xs ih =>
    rw [fillLog]
    cases i with
    | zero =>
      rw [List.getElem_cons_zero] at hx ⊢
      rw [fillLog_get_of_notMem, Table.get_put, if_pos ⟨rfl, hx⟩, Nat.add_zero]
      intro y hy hyx
      exact (List.nodup_cons.mp hn).1 (BitVec.eq_of_toNat_eq hyx ▸ hy)
    | succ i =>
      simp only [List.getElem_cons_succ] at hx ⊢
      rw [ih _ _ (List.nodup_cons.mp hn).2 i (by simpa using hi) hx]
      congr 1; omega

/-- R41: LOG[α^e] = e. -/
theorem logTable_get_xPow {poly : BitVec 16} (h : legalPoly poly = true) (hp : isPrimitive poly = true) {e : Nat}
    (he : e < logMod (degree poly)) :
    (logTable poly).get (xPow poly (degree poly) e).toNat = BitVec.ofNat 8 e := by
  obtain ⟨hm1, hm2⟩ := degree_of_legal h
  obtain ⟨h1, h2⟩ := degree_spec poly (by have := (legalPoly_iff poly).mp h; omega)
  have hlt := xPow_lt (by omega) (by omega) h1 h2 e
  have h256 : 2 ^ degree poly ≤ 2 ^ 8 := Nat.pow_le_pow_right (by decide) hm2
  have hn : (powerSequence poly).Nodup := by
    rw [isPrimitive, Bool.and_eq_true, distinct_iff] at hp; exact hp.1
  have hget : (powerSequence poly)[e]'(by simpa using he) = xPow poly (degree poly) e := by simp [powerSequence_eq]
  have := fillLog_get_getElem 0 (powerSequence poly) Table.zero hn e (by simpa using he) (by rw [hget]; omega)
  rwa [hget, Nat.zero_add] at this

/-- R41: LOG is 0 at every value that is no power of x. -/
theorem logTable_get_of_notPower {poly : BitVec 16} {a : Nat}
    (h : ∀ e, e < logMod (degree poly) → (xPow poly (degree poly) e).toNat ≠ a) : (logTable poly).get a = 0 := by
  rw [logTable, fillLog_get_of_notMem, Table.get_zero]
  intro x hx
  rw [powerSequence_eq, List.mem_map] at hx
  obtain ⟨e, he, rfl⟩ := hx
  exact h e (List.mem_range.mp he)

/-! ### Field operations -/

@[simp] theorem gfMul_zero_left (f : GaloisField) (b : Byte) : gfMul f 0 b = 0 := by simp [gfMul]

@[simp] theorem gfMul_zero_right (f : GaloisField) (a : Byte) : gfMul f a 0 = 0 := by simp [gfMul]

theorem gfMul_comm (f : GaloisField) (a b : Byte) : gfMul f a b = gfMul f b a := by
  simp only [gfMul, or_comm (a := a = 0), Nat.add_comm (f.log.get a.toNat).toNat]

/-- A product is 0 or an entry of ALOG, so it is an element wherever ALOG holds elements. -/
theorem gfMul_lt (f : GaloisField) (h : ∀ k, (f.alog.get k).toNat < 2 ^ f.m) (a b : Byte) :
    (gfMul f a b).toNat < 2 ^ f.m := by
  unfold gfMul
  split
  · simp
  · exact h _

@[simp] theorem gfAdd_zero (a : Byte) : gfAdd a 0 = a := BitVec.xor_zero

@[simp] theorem gfAdd_self (a : Byte) : gfAdd a a = 0 := BitVec.xor_self

theorem gfAdd_lt {m : Nat} {a b : Byte} (ha : a.toNat < 2 ^ m) (hb : b.toNat < 2 ^ m) :
    (gfAdd a b).toNat < 2 ^ m := by
  rw [gfAdd, BitVec.toNat_xor]; exact Nat.xor_lt_two_pow ha hb

/-- The entries of ALOG are elements of the field. -/
theorem alogTable_lt {poly : BitVec 16} (h : legalPoly poly = true) (k : Nat) :
    ((alogTable poly).get k).toNat < 2 ^ degree poly := by
  obtain ⟨hm1, hm2⟩ := degree_of_legal h
  obtain ⟨h1, h2⟩ := degree_spec poly (by have := (legalPoly_iff poly).mp h; omega)
  rw [alogTable_get h]
  split
  · have := xPow_lt (by omega) (by omega) h1 h2 k
    have h256 : 2 ^ degree poly ≤ 2 ^ 8 := Nat.pow_le_pow_right (by decide) hm2
    rw [BitVec.toNat_setWidth, Nat.mod_eq_of_lt (by omega)]; exact this
  · simp

end Sys2Proof.Machine
end

