-- ==== Sys2Proof/Laws/Packer.lean ====
section
/-! SUPPORT. The packer: the slicer as a binary number, and what the packer's effects leave of each bit of the buffer
(40_packer.md R123 to R128). -/
namespace Sys2Proof.Machine

/-- The first n of a codeword's w bits make a multiple of 2^(w-n) below 2^w. -/
theorem sliceSum_bound (bb : BitBuffer) (base w n : Nat) (h : n ≤ w) :
    sliceSum bb base w n + 2 ^ (w - n) ≤ 2 ^ w := by
  induction n with
  | zero => simp [sliceSum]
  | succ n ih =>
    have hpow : 2 ^ (w - n) = 2 * 2 ^ (w - (n + 1)) := by
      rw [← Nat.pow_succ', show w - n = w - (n + 1) + 1 by omega]
    have := ih (by omega)
    have hb : (bb.getLsbD (base + n)).toNat ≤ 1 := Bool.toNat_le _
    have he : w - 1 - n = w - (n + 1) := by omega
    rw [sliceSum, Nat.shiftLeft_eq, he]
    have : (bb.getLsbD (base + n)).toNat * 2 ^ (w - (n + 1)) ≤ 2 ^ (w - (n + 1)) := by
      simpa using Nat.mul_le_mul_right (2 ^ (w - (n + 1))) hb
    omega

/-- R128: every codeword is below 2^w. -/
theorem sliceSum_lt (bb : BitBuffer) (base w : Nat) : sliceSum bb base w w < 2 ^ w := by
  have := sliceSum_bound bb base w w (Nat.le_refl w)
  simp only [Nat.sub_self, Nat.pow_zero] at this
  omega

/-- Buffers that agree on a codeword's bits slice to the same codeword. -/
theorem sliceSum_congr {bb bb' : BitBuffer} {base w n : Nat}
    (h : ∀ b, b < n → bb.getLsbD (base + b) = bb'.getLsbD (base + b)) :
    sliceSum bb base w n = sliceSum bb' base w n := by
  induction n with
  | zero => rfl
  | succ n ih => rw [sliceSum, sliceSum, ih fun b hb => h b (by omega), h n (by omega)]

/-- The whole buffer's TOTAL bits fit BB when the width is legal (R121). -/
theorem totalBits_le (s : State) (h : s.pkW.toNat ≤ 8) : totalBits s ≤ 32760 := by
  have hc : s.pkCap.toNat ≤ 4095 := by have := s.pkCap.isLt; omega
  calc totalBits s ≤ 4095 * 8 := Nat.mul_le_mul hc h
    _ = 32760 := rfl

/-- The terminator fits the room left (R125). -/
theorem terminatorBits_le (s : State) : terminatorBits s ≤ totalBits s - s.pkLen.toNat := by
  unfold terminatorBits
  split
  · exact Nat.min_le_right _ _
  · split
    · exact Nat.zero_le _
    · exact Nat.min_le_right _ _

/-- Bit i of BB after PK_APPEND (R124). -/
theorem effectPkAppend_bit (nm1 : BitVec 4) (val : BitVec 16) (s : State) (i : Nat) :
    (effectPkAppend nm1 val s).bb.getLsbD i =
      if s.pkLen.toNat ≤ i ∧ i < s.pkLen.toNat + appendLength nm1 ∧ i < 32760 then
        patternBit val (appendLength nm1) (i - s.pkLen.toNat)
      else s.bb.getLsbD i := by
  rw [effectPkAppend_bb, getLsbD_writeBits]

/-- Bit i of BB after PK_FINISH on a stream within TOTAL (R125). -/
theorem effectPkFinish_bit (s : State) (i : Nat) (hw : s.pkW.toNat ≤ 8) (hlen : s.pkLen.toNat ≤ totalBits s) :
    (effectPkFinish s).bb.getLsbD i =
      if i < s.pkLen.toNat then s.bb.getLsbD i
      else if i < s.pkLen.toNat + terminatorBits s then patternBit s.tval s.tlen.toNat (i - s.pkLen.toNat)
      else if i < totalBits s then fillBit s (i - (s.pkLen.toNat + terminatorBits s))
      else s.bb.getLsbD i := by
  have ht := terminatorBits_le s
  have hT := totalBits_le s hw
  rw [effectPkFinish_bb, getLsbD_writeBits, getLsbD_writeBits]
  by_cases h1 : i < s.pkLen.toNat
  · rw [if_pos h1, if_neg (by omega), if_neg (by omega)]
  · by_cases h2 : i < s.pkLen.toNat + terminatorBits s
    · rw [if_neg h1, if_pos h2, if_neg (by omega), if_pos (by omega)]
    · by_cases h3 : i < totalBits s
      · rw [if_neg h1, if_neg h2, if_pos h3, if_pos (by omega)]
      · rw [if_neg h1, if_neg h2, if_neg h3, if_neg (by omega), if_neg (by omega)]

/-- PK_APPEND that fits lengthens the stream by n. -/
theorem effectPkAppend_length (nm1 : BitVec 4) (val : BitVec 16) (s : State) (hw : s.pkW.toNat ≤ 8)
    (h : s.pkLen.toNat + appendLength nm1 ≤ totalBits s) :
    (effectPkAppend nm1 val s).pkLen.toNat = s.pkLen.toNat + appendLength nm1 := by
  have := totalBits_le s hw
  rw [effectPkAppend_pkLen, BitVec.toNat_ofNat, Nat.mod_eq_of_lt (by omega)]

/-- PK_FINISH makes the stream TOTAL bits long. -/
theorem effectPkFinish_length (s : State) (hw : s.pkW.toNat ≤ 8) :
    (effectPkFinish s).pkLen.toNat = totalBits s := by
  have := totalBits_le s hw
  rw [effectPkFinish_pkLen, BitVec.toNat_ofNat, Nat.mod_eq_of_lt (by omega)]

end Sys2Proof.Machine
end

