-- ==== Sys2Proof/Laws/PerInstr.lean ====
section
/-! SUPPORT. A family of facts about every command as syntax: its word lies on its own row of the opcode map
(30_encoding.md R101), so its reserved bits are 0 and its OPC is the row's. -/
namespace Sys2Proof.Laws.EncodingMatchesRow

/-- The word of a command matches the row of the command. -/
def Statement (i : Instr) : Prop := rowMatches (rowOf i) (encode i) = true

theorem nop : Statement .nop := by unfold Statement; decide

theorem gfInit (poly : BitVec 16) : Statement (.gfInit poly) := by
  simp only [Statement, rowMatches, rowOf, encode, beq_iff_eq]
  refine BitVec.eq_of_getLsbD_eq fun i hi => ?_
  simp only [BitVec.getLsbD_and, BitVec.getLsbD_append]
  interval_cases i <;> simp

theorem gfMul (a b : BitVec 8) : Statement (.gfMul a b) := by
  simp only [Statement, rowMatches, rowOf, encode, beq_iff_eq]
  refine BitVec.eq_of_getLsbD_eq fun i hi => ?_
  simp only [BitVec.getLsbD_and, BitVec.getLsbD_append]
  interval_cases i <;> simp

theorem gfAdd (a b : BitVec 8) : Statement (.gfAdd a b) := by
  simp only [Statement, rowMatches, rowOf, encode, beq_iff_eq]
  refine BitVec.eq_of_getLsbD_eq fun i hi => ?_
  simp only [BitVec.getLsbD_and, BitVec.getLsbD_append]
  interval_cases i <;> simp

theorem rsInit (nsym index : BitVec 8) : Statement (.rsInit nsym index) := by
  simp only [Statement, rowMatches, rowOf, encode, beq_iff_eq]
  refine BitVec.eq_of_getLsbD_eq fun i hi => ?_
  simp only [BitVec.getLsbD_and, BitVec.getLsbD_append]
  interval_cases i <;> simp

theorem rsClear : Statement .rsClear := by unfold Statement; decide

theorem rsFeed (d : BitVec 8) : Statement (.rsFeed d) := by
  simp only [Statement, rowMatches, rowOf, encode, beq_iff_eq]
  refine BitVec.eq_of_getLsbD_eq fun i hi => ?_
  simp only [BitVec.getLsbD_and, BitVec.getLsbD_append]
  interval_cases i <;> simp

theorem rsFeedcw (start count : BitVec 12) : Statement (.rsFeedcw start count) := by
  simp only [Statement, rowMatches, rowOf, encode, beq_iff_eq]
  refine BitVec.eq_of_getLsbD_eq fun i hi => ?_
  simp only [BitVec.getLsbD_and, BitVec.getLsbD_append]
  interval_cases i <;> simp

theorem pkInit (w : BitVec 4) (cap : BitVec 12) : Statement (.pkInit w cap) := by
  simp only [Statement, rowMatches, rowOf, encode, beq_iff_eq]
  refine BitVec.eq_of_getLsbD_eq fun i hi => ?_
  simp only [BitVec.getLsbD_and, BitVec.getLsbD_append]
  interval_cases i <;> simp

theorem pkAppend (nm1 : BitVec 4) (val : BitVec 16) : Statement (.pkAppend nm1 val) := by
  simp only [Statement, rowMatches, rowOf, encode, beq_iff_eq]
  refine BitVec.eq_of_getLsbD_eq fun i hi => ?_
  simp only [BitVec.getLsbD_and, BitVec.getLsbD_append]
  interval_cases i <;> simp

theorem pkFinish : Statement .pkFinish := by unfold Statement; decide

end Sys2Proof.Laws.EncodingMatchesRow
end

