-- ==== Sys2Proof/Laws/Rs.lean ====
section
/-! SUPPORT. The RS unit: each loop of 42_rs.md R182 and R186 runs downward, so every coefficient it writes is computed
from the old ones; said here entry by entry, so that no later proof runs a loop. -/
namespace Sys2Proof.Machine

variable (f : GaloisField)

/-- The inner loop of GenPoly: every coefficient from the old ones. -/
theorem genInner_get (root : Byte) (n : Nat) (g : Table) (k : Nat) (hn : n < 256) :
    (genInner f root n g).get k =
      if 1 ≤ k ∧ k ≤ n then gfAdd (gfMul f (g.get k) root) (g.get (k - 1)) else g.get k := by
  induction n generalizing g with
  | zero => rw [genInner, if_neg (by omega)]
  | succ n ih =>
    rw [genInner, ih _ (by omega)]
    simp only [Table.get_put]
    by_cases hk : k = n + 1
    · subst hk
      simp [show n + 1 < 256 by omega]
    · by_cases hin : 1 ≤ k ∧ k ≤ n
      · rw [if_pos hin, if_neg (show ¬(k = n + 1 ∧ n + 1 < 256) by omega),
          if_neg (show ¬(k - 1 = n + 1 ∧ n + 1 < 256) by omega), if_pos (show 1 ≤ k ∧ k ≤ n + 1 by omega)]
      · rw [if_neg hin, if_neg (by omega), if_neg (by omega)]

/-- Pass i of GenPoly multiplies a polynomial of degree i-1 by (x ⊕ root). -/
theorem genPass_get (root : Byte) (i : Nat) (g : Table) (k : Nat) (hi : 1 ≤ i) (hi' : i < 256) :
    (genPass f root i g).get k =
      if k = 0 then gfMul f (g.get 0) root
      else if k < i then gfAdd (gfMul f (g.get k) root) (g.get (k - 1))
      else if k = i then 1
      else g.get k := by
  have hinner : ∀ j, (genInner f root (i - 1) (g.put i 1)).get j =
      if 1 ≤ j ∧ j ≤ i - 1 then gfAdd (gfMul f (g.get j) root) (g.get (j - 1)) else (g.put i 1).get j := by
    intro j
    rw [genInner_get f root (i - 1) _ j (by omega)]
    by_cases hj : 1 ≤ j ∧ j ≤ i - 1
    · rw [if_pos hj, if_pos hj, Table.get_put, Table.get_put, if_neg (by omega), if_neg (by omega)]
    · rw [if_neg hj, if_neg hj]
  simp only [genPass, Table.get_put, hinner]
  by_cases h0 : k = 0
  · subst h0; simp [show ¬(0 = i) by omega]
  · by_cases hlt : k < i
    · rw [if_neg (by omega), if_pos (by omega), if_neg h0, if_pos hlt]
    · by_cases heq : k = i
      · subst heq; rw [if_neg (by omega), if_neg (by omega), if_pos ⟨rfl, hi'⟩, if_neg h0, if_neg hlt, if_pos rfl]
      · rw [if_neg (by omega), if_neg (by omega), if_neg (by omega), if_neg h0, if_neg hlt, if_neg heq]

/-- The start of GenPoly: the polynomial 1. -/
theorem genStart_get (k : Nat) : (Table.zero.put 0 1).get k = if k = 0 then 1 else 0 := by
  simp [Table.get_put]

/-- After n passes the polynomial is monic of degree n and 0 above (R182, 10_state.md R43). -/
theorem genPasses_top (idx n k : Nat) (hn : n < 256) (hk : n ≤ k) :
    (genPasses f idx n (Table.zero.put 0 1)).get k = if k = n then 1 else 0 := by
  induction n generalizing k with
  | zero => exact genStart_get k
  | succ n ih =>
    rw [genPasses, genPass_get f _ _ _ _ (by omega) hn, if_neg (by omega), if_neg (by omega)]
    by_cases h : k = n + 1
    · rw [if_pos h, if_pos h]
    · rw [if_neg h, if_neg h, ih k (by omega) (by omega), if_neg (by omega)]

/-- The inner loop of DivStep: every coefficient from the old ones. -/
theorem divInner_get (g : Table) (fb : Byte) (n : Nat) (r : Table) (k : Nat) (hn : n < 256) :
    (divInner f g fb n r).get k =
      if 1 ≤ k ∧ k ≤ n then gfAdd (r.get (k - 1)) (gfMul f fb (g.get k)) else r.get k := by
  induction n generalizing r with
  | zero => rw [divInner, if_neg (by omega)]
  | succ n ih =>
    rw [divInner, ih _ (by omega)]
    simp only [Table.get_put]
    by_cases hk : k = n + 1
    · subst hk
      simp [show n + 1 < 256 by omega]
    · by_cases hin : 1 ≤ k ∧ k ≤ n
      · rw [if_pos hin, if_neg (show ¬(k - 1 = n + 1 ∧ n + 1 < 256) by omega),
          if_pos (show 1 ≤ k ∧ k ≤ n + 1 by omega)]
      · rw [if_neg hin, if_neg (by omega), if_neg (by omega)]

/-- R186: the remainder shifts up one degree and the feedback symbol times the generator is subtracted. -/
theorem divStep_get (g : Table) (nsym : Nat) (r : Table) (d : Byte) (k : Nat) (h1 : 1 ≤ nsym) (h2 : nsym ≤ 256) :
    (divStep f g nsym r d).get k =
      if k = 0 then gfMul f (gfAdd (r.get (nsym - 1)) d) (g.get 0)
      else if k < nsym then gfAdd (r.get (k - 1)) (gfMul f (gfAdd (r.get (nsym - 1)) d) (g.get k))
      else r.get k := by
  simp only [divStep, Table.get_put]
  by_cases h0 : k = 0
  · rw [if_pos ⟨h0, by decide⟩, if_pos h0]
  · rw [if_neg (by omega), if_neg h0, divInner_get f g _ (nsym - 1) r k (by omega)]
    by_cases hlt : k < nsym
    · rw [if_pos (by omega), if_pos hlt]
    · rw [if_neg (by omega), if_neg hlt]

@[simp] theorem divSteps_nil (g : Table) (nsym : Nat) (r : Table) : divSteps f g nsym r [] = r := rfl

@[simp] theorem divSteps_cons (g : Table) (nsym : Nat) (r : Table) (d : Byte) (ds : List Byte) :
    divSteps f g nsym r (d :: ds) = divSteps f g nsym (divStep f g nsym r d) ds := rfl

theorem divSteps_append (g : Table) (nsym : Nat) (r : Table) (ds es : List Byte) :
    divSteps f g nsym r (ds ++ es) = divSteps f g nsym (divSteps f g nsym r ds) es := by
  simp [divSteps, List.foldl_append]

/-- What holds of a remainder and is kept by every step holds after all of them. -/
theorem divSteps_induction {P : Table → Prop} {g : Table} {nsym : Nat} {ds : List Byte} {r : Table}
    (h : ∀ r, P r → ∀ d ∈ ds, P (divStep f g nsym r d)) (h0 : P r) : P (divSteps f g nsym r ds) := by
  induction ds generalizing r with
  | nil => exact h0
  | cons d ds ih =>
    exact ih (fun r hr e he => h r hr e (List.mem_cons_of_mem d he)) (h r h0 d List.mem_cons_self)

theorem cwRange_eq_map (s : State) (start count : Nat) :
    cwRange s start count = (List.range count).map fun j => cwWin s (start + j) := by
  induction count generalizing start with
  | zero => rfl
  | succ n ih =>
    rw [cwRange, List.range_succ_eq_map, List.map_cons, List.map_map, ih, Nat.add_zero]
    congr 1
    exact List.map_congr_left fun j _ => by simp [Nat.add_assoc, Nat.add_comm 1]

theorem fedRange_eq_map (s : State) (start count : Nat) :
    fedRange s start count = (List.range count).map fun j => (cwWin s (start + j)).setWidth 8 := by
  simp [fedRange, cwRange_eq_map, Function.comp_def]

/-- With a generator, the ECC window in order is the remainder from its highest degree down (R189). -/
theorem eccWords_eq {s : State} (h : s.rsValid = true) :
    eccWords s = (eccList s.r s.rsNsym.toNat).map (BitVec.setWidth 32) := by
  simp only [eccWords, eccList, List.map_map]
  exact List.map_congr_left fun j hj => by simp [eccWin, h, List.mem_range.mp hj]

/-! ### What an effect leaves of the field -/

@[simp] theorem currentField_complete (s : State) : currentField (complete s) = currentField s := rfl

@[simp] theorem currentField_effectRsInit (s : State) (nsym index : BitVec 8) :
    currentField (effectRsInit nsym index s) = currentField s := rfl

@[simp] theorem currentField_effectRsFeed (s : State) (d : Byte) :
    currentField (effectRsFeed d s) = currentField s := rfl

theorem currentField_effectGfInit (s : State) {poly : BitVec 16} (h : legalPoly poly = true) :
    currentField (effectGfInit poly s) = fieldOf poly := by
  have := (degree_of_legal h).2
  have hm : (BitVec.ofNat 4 (degree poly)).toNat = degree poly := by
    rw [BitVec.toNat_ofNat]; omega
  simp [currentField, fieldOf, hm]

end Sys2Proof.Machine
end

