-- ==== Sys2Proof/Laws/Step.lean ====
section
/-! SUPPORT. What a step can do, said once: the completion of the command in flight, the service of one host event, or
waiting; each with what decides it. -/
namespace Sys2Proof.Machine

/-- The word in flight completes as a command of its own, known or illegal; never the host's fault or refusal. -/
theorem completeWord_next (w : Word) (s : State) :
    ∃ check effect w', completeWord w s = .next (complete (if s.fault then s else attempt w' check effect s)) := by
  unfold completeWord
  cases decode w with
  | error _ => exact ⟨fun _ => some .illegalCmd, id, w, rfl⟩
  | ok i => exact ⟨checkOf i, effectOf i, encode i, exec_next i s⟩

/-- The completion of a word: discarded, a fault recorded, or the effect of its command; then pending is empty. -/
theorem completeWord_cases {w : Word} {s t : State} (h : completeWord w s = .next t) :
    (s.fault = true ∧ t = complete s) ∨
    (s.fault = false ∧ (∃ r, decode w = .error r) ∧ t = complete (raiseFault .illegalCmd w s)) ∨
    (s.fault = false ∧ ∃ i, decode w = .ok i ∧
      ((∃ c, checkOf i s = some c ∧ t = complete (raiseFault c (encode i) s)) ∨
        (checkOf i s = none ∧ t = complete (effectOf i s)))) := by
  unfold completeWord at h
  cases hd : decode w with
  | error r =>
    rw [hd] at h
    rcases command_cases h with ⟨hf, ht⟩ | ⟨hf, c, hc, ht⟩ | ⟨-, hc, -⟩
    · exact .inl ⟨hf, ht⟩
    · cases hc; exact .inr (.inl ⟨hf, ⟨r, rfl⟩, ht⟩)
    · cases hc
  | ok i =>
    rw [hd] at h
    simp only [exec_eq_command] at h
    rcases command_cases h with ⟨hf, ht⟩ | ⟨hf, c, hc, ht⟩ | ⟨hf, hc, ht⟩
    · exact .inl ⟨hf, ht⟩
    · exact .inr (.inr ⟨hf, i, rfl, .inl ⟨c, hc, ht⟩⟩)
    · exact .inr (.inr ⟨hf, i, rfl, .inr ⟨hc, ht⟩⟩)

/-- No effect reaches the fault record, pending, IRQ_EN, the terminator and fill registers or the host's side. -/
theorem effectOf_keeps (i : Instr) (s : State) :
    (effectOf i s).fault = s.fault ∧ (effectOf i s).faultCode = s.faultCode ∧ (effectOf i s).faultCmd = s.faultCmd ∧
    (effectOf i s).irqEn = s.irqEn ∧ (effectOf i s).rstN = s.rstN ∧ (effectOf i s).inbox = s.inbox ∧
    (effectOf i s).responses = s.responses ∧ (effectOf i s).draws = s.draws ∧
    (effectOf i s).overtaken = s.overtaken ∧ (effectOf i s).seed = s.seed := by
  cases i <;> simp [effectOf]

/-- Which move comes next with rst_n = 1, and what decides it (70_reset_and_hazards.md R265, R266). -/
theorem nextMove_cases (s : State) :
    (s.pending = none ∧ s.inbox = [] ∧ nextMove s = .idle) ∨
    (∃ e rest, s.inbox = e :: rest ∧ nextMove s = .host e rest ∧
      (s.pending = none ∨ e = .assertReset ∨ e = .releaseReset ∨ ∃ a, e = .access a ∧ overtakes a = true ∧
        s.overtaken < Config.latency s.seed s.draws)) ∨
    (∃ w, s.pending = some w ∧ nextMove s = .complete w ∧
      (s.inbox = [] ∨ ∃ a rest, s.inbox = .access a :: rest ∧
        (overtakes a = false ∨ Config.latency s.seed s.draws ≤ s.overtaken))) := by
  unfold nextMove
  cases hp : s.pending with
  | none =>
    cases hi : s.inbox with
    | nil => exact .inl ⟨rfl, rfl, rfl⟩
    | cons e rest => exact .inr (.inl ⟨e, rest, rfl, rfl, .inl rfl⟩)
  | some w =>
    cases hi : s.inbox with
    | nil => exact .inr (.inr ⟨w, rfl, rfl, .inl rfl⟩)
    | cons e rest =>
      cases e with
      | assertReset => exact .inr (.inl ⟨_, rest, rfl, rfl, .inr (.inl rfl)⟩)
      | releaseReset => exact .inr (.inl ⟨_, rest, rfl, rfl, .inr (.inr (.inl rfl))⟩)
      | access a =>
        by_cases h : (overtakes a && decide (s.overtaken < Config.latency s.seed s.draws)) = true
        · simp only [Bool.and_eq_true, decide_eq_true_eq] at h
          exact .inr (.inl ⟨_, rest, rfl, by simp [h], .inr (.inr (.inr ⟨a, rfl, h.1, h.2⟩))⟩)
        · refine .inr (.inr ⟨w, rfl, by simp [h], .inr ⟨a, rest, rfl, ?_⟩⟩)
          simp only [Bool.and_eq_true, decide_eq_true_eq, not_and_or, Bool.not_eq_true] at h
          exact h.imp id (by omega)

/-- Everything a step can do when it answers a next state. -/
theorem step_cases {s t : State} (h : step s = .next t) :
    (s.rstN = true ∧ s.pending = none ∧ s.inbox = [] ∧ t = s) ∨
    (s.rstN = true ∧ ∃ e rest, s.inbox = e :: rest ∧ t = serveEvent e { s with inbox := rest }) ∨
    (s.rstN = true ∧ ∃ w, s.pending = some w ∧ completeWord w s = .next t) ∨
    (s.rstN = false ∧ (s.inbox = [] ∧ t = resetBlock s ∨
      ∃ e rest, s.inbox = e :: rest ∧
        (e = .assertReset ∧ t = { resetBlock s with inbox := rest } ∨
          e = .releaseReset ∧ t = { resetBlock s with inbox := rest, rstN := true }))) := by
  unfold step at h
  split at h
  · rename_i hr
    unfold runningStep at h
    rcases nextMove_cases s with ⟨hp, hi, hm⟩ | ⟨e, rest, hi, hm, -⟩ | ⟨w, hp, hm, -⟩ <;> rw [hm] at h
    · exact .inl ⟨hr, hp, hi, by cases h; rfl⟩
    · exact .inr (.inl ⟨hr, e, rest, hi, by cases h; rfl⟩)
    · exact .inr (.inr (.inl ⟨hr, w, hp, h⟩))
  · rename_i hr
    refine .inr (.inr (.inr ⟨by simpa using hr, ?_⟩))
    unfold heldInReset at h
    split at h
    · rename_i hi; exact .inl ⟨hi, by cases h; rfl⟩
    · rename_i rest hi; exact .inr ⟨_, rest, hi, .inl ⟨rfl, by cases h; rfl⟩⟩
    · rename_i rest hi; exact .inr ⟨_, rest, hi, .inr ⟨rfl, by cases h; rfl⟩⟩
    · cases h

/-- The seed of the block's free values is fixed for a run. -/
theorem step_seed {s t : State} (h : step s = .next t) : t.seed = s.seed := by
  rcases step_cases h with ⟨-, -, -, rfl⟩ | ⟨-, e, rest, -, rfl⟩ | ⟨-, w, -, hw⟩ | ⟨-, ht⟩
  · rfl
  · cases e <;> simp [serveEvent]
  · rcases completeWord_cases hw with ⟨-, rfl⟩ | ⟨-, -, rfl⟩ | ⟨-, i, -, ⟨c, -, rfl⟩ | ⟨-, rfl⟩⟩
    · rfl
    · rfl
    · rfl
    · exact (effectOf_keeps i s).2.2.2.2.2.2.2.2.2
  · rcases ht with ⟨-, rfl⟩ | ⟨e, rest, -, ⟨-, rfl⟩ | ⟨-, rfl⟩⟩ <;> rfl

end Sys2Proof.Machine
end

