-- ==== Sys2Proof/Tests/Slice0.lean ====
section
/-! SUPPORT. The model's own tests. Every expected value is the spec's: 95_test_vectors.md by its vector's name, or the
rule named. Then one witness per statement that has hypotheses: values that meet them together. -/
namespace Sys2Proof.Tests.Slice0

open Sys2Proof Sys2Proof.Machine

/-! One theorem at a time: many evaluations waiting at once would each hold a thread. -/
set_option Elab.async false

/-! ### Helpers -/

def nextState (o : Host.Outcome State Fault Refusal) : Option State :=
  match o with
  | .next s => some s
  | .fault _ => none
  | .refused _ => none

/-- A field of the state after a command. -/
def after {α : Type} (i : Instr) (s : State) (field : State → α) : Option α := (nextState (exec i s)).map field

/-- GF(2^2) and GF(2^4) built. -/
def gf4 : State := effectGfInit 0x7 State.reset
def gf16 : State := effectGfInit 0x13 State.reset
/-- GF(2^4) with a generator of 2 check symbols. -/
def rs16 : State := effectRsInit 2 0 gf16
/-- The packer open, and open with the bits of PK-10. -/
def open73 : State := effectPkInit 7 3 State.reset
def open73bits : State := effectPkAppend 9 123 open73
/-- rs16 with two 8-bit codewords 0x0F, 0x10 in a finished packer (the setup of RS-22). -/
def done22 : State := effectPkFinish (effectPkAppend 15 0x0F10 (effectPkInit 8 2 rs16))
/-- A state with a command in flight and an access waiting. -/
def flight (w : Word) (a : Access) : State := { State.reset with pending := some w, inbox := [.access a] }
def asks (a : Access) : State := { State.reset with inbox := [.access a] }
def faulted : State := raiseFault .gfNotReady 0x02000101 State.reset

/-! ### Well-formedness: one ill-formed line for each check of R106 -/

theorem test_wf_refuses_poly : (Asm.gfInit 0x10000).wellFormed = false := by decide
theorem test_wf_refuses_mul_a : (Asm.gfMul 0x100 0).wellFormed = false := by decide
theorem test_wf_refuses_mul_b : (Asm.gfMul 0 0x100).wellFormed = false := by decide
theorem test_wf_refuses_add_a : (Asm.gfAdd 0x100 0).wellFormed = false := by decide
theorem test_wf_refuses_add_b : (Asm.gfAdd 0 0x100).wellFormed = false := by decide
theorem test_wf_refuses_nsym : (Asm.rsInit 0x100 0).wellFormed = false := by decide
theorem test_wf_refuses_index : (Asm.rsInit 0 0x100).wellFormed = false := by decide
theorem test_wf_refuses_d : (Asm.rsFeed 0x100).wellFormed = false := by decide
theorem test_wf_refuses_start : (Asm.rsFeedcw 0x1000 0).wellFormed = false := by decide
theorem test_wf_refuses_count : (Asm.rsFeedcw 0 0x1000).wellFormed = false := by decide
/-- E-22 -/
theorem test_wf_refuses_w : (Asm.pkInit 16 1).wellFormed = false := by decide
theorem test_wf_refuses_cap : (Asm.pkInit 0 0x1000).wellFormed = false := by decide
theorem test_wf_refuses_n_zero : (Asm.pkAppend 0 0).wellFormed = false := by decide
/-- E-21 -/
theorem test_wf_refuses_n : (Asm.pkAppend 17 0).wellFormed = false := by decide
theorem test_wf_refuses_val : (Asm.pkAppend 1 0x10000).wellFormed = false := by decide

/-! ### Decoding: words of 95_test_vectors.md E-1 to E-19, and the illegal words D-1 to D-9 -/

theorem test_decode_nop : decode 0x00000000 = .ok .nop := by decide
theorem test_decode_gfInit : decode 0x0100011D = .ok (.gfInit 0x11D) := by decide
theorem test_decode_gfMul : decode 0x02000280 = .ok (.gfMul 2 0x80) := by decide
theorem test_decode_gfAdd : decode 0x030053CA = .ok (.gfAdd 0x53 0xCA) := by decide
theorem test_decode_rsInit : decode 0x10000105 = .ok (.rsInit 5 1) := by decide
theorem test_decode_rsClear : decode 0x11000000 = .ok .rsClear := by decide
theorem test_decode_rsFeed : decode 0x12000001 = .ok (.rsFeed 1) := by decide
theorem test_decode_rsFeedcw : decode 0x13003003 = .ok (.rsFeedcw 3 3) := by decide
theorem test_decode_pkInit : decode 0x20800FFF = .ok (.pkInit 8 4095) := by decide
theorem test_decode_pkAppend : decode 0x2109007B = .ok (.pkAppend 9 123) := by decide
theorem test_decode_pkFinish : decode 0x22000000 = .ok .pkFinish := by decide
theorem test_decode_unassigned :
    decode 0x04000000 = .error .unassignedOpcode ∧ decode 0xFF000000 = .error .unassignedOpcode := by decide
theorem test_decode_reserved :
    decode 0x00000001 = .error .reservedBits ∧ decode 0x11000001 = .error .reservedBits ∧
    decode 0x12000100 = .error .reservedBits ∧ decode 0x20010001 = .error .reservedBits ∧
    decode 0x21100000 = .error .reservedBits ∧ decode 0x22000080 = .error .reservedBits ∧
    decode 0x02010000 = .error .reservedBits := by decide
theorem test_decodeTableWord : decodeTableWord 32 0x1000FF04 = some (.rsInit 4 255) := by decide

/-! ### Commands -/

/-- C-8 -/
theorem test_nop : after .nop gf4 statusWord = some 0x00000004 := by decide +kernel
/-- GF-2 -/
theorem test_gfInit_tables :
    after (.gfInit 0x7) State.reset (fun s => [0x0804, 0x0808, 0x080C, 0x040C].map fun o => regRead s o) =
      some [2, 3, 0, 2] := by decide +kernel
/-- GF-11 -/
theorem test_gfInit_notPrimitive : after (.gfInit 0x11B) State.reset statusWord = some 0x00000302 := by
  decide +kernel
/-- GF-26 -/
theorem test_gfMul : after (.gfMul 9 9) gf16 State.result = some 0xD := by decide +kernel
/-- GF-27 -/
theorem test_gfMul_range : after (.gfMul 1 0xFF) gf16 statusWord = some 0x00000506 := by decide +kernel
/-- GF-29 in the field of GF-26 -/
theorem test_gfAdd : after (.gfAdd 9 3) gf16 State.result = some 0xA := by decide +kernel
/-- GF-30 -/
theorem test_gfAdd_range : after (.gfAdd 0x10 1) gf16 statusWord = some 0x00000506 := by decide +kernel
/-- RS-6 -/
theorem test_rsInit :
    after (.rsInit 4 20) gf16 (fun s => (s.rsIndex, (List.range 6).map fun k => s.g.get k)) =
      some (5, [14, 1, 9, 4, 1, 0]) := by decide +kernel
/-- RS-12 -/
theorem test_rsInit_notReady : after (.rsInit 2 0) State.reset statusWord = some 0x00000402 := by decide +kernel
/-- RS-18 -/
theorem test_rsClear : after .rsClear (effectRsFeed 1 rs16) (fun s => (s.r.get 0, s.r.get 1, s.rsCount)) =
    some (0, 0, 0) := by decide +kernel
/-- RS-22: the ECC of 0x0F -/
theorem test_rsFeed : after (.rsFeed 0xF) rs16 (fun s => (eccWin s 0, eccWin s 1, s.rsCount)) = some (2, 13, 1) := by
  decide +kernel
/-- RS-15 -/
theorem test_rsFeed_range : after (.rsFeed 16) rs16 statusWord = some 0x0000050E := by decide +kernel
/-- RS-22 -/
theorem test_rsFeedcw : after (.rsFeedcw 0 1) done22 (fun s => (eccWin s 0, eccWin s 1, s.rsCount)) =
    some (2, 13, 1) := by decide +kernel
/-- RS-22 -/
theorem test_rsFeedcw_range : after (.rsFeedcw 1 1) done22 (fun s => (statusWord s, s.rsCount)) =
    some (0x0000052E, 0) := by decide +kernel
/-- PK-1 -/
theorem test_pkInit : after (.pkInit 7 3) State.reset statusWord = some 0x00000010 := by decide +kernel
/-- PK-2 -/
theorem test_pkInit_width : after (.pkInit 9 3) State.reset statusWord = some 0x00000802 := by decide +kernel
/-- PK-3 -/
theorem test_pkAppend : after (.pkAppend 9 123) open73 (fun s => (s.pkLen, cwWin s 0, cwWin s 1)) =
    some (10, 15, 48) := by decide +kernel
/-- PK-8 -/
theorem test_pkAppend_overflow :
    after (.pkAppend 0 0) (effectPkAppend 7 0xAB (effectPkInit 8 1 State.reset))
      (fun s => (statusWord s, s.pkLen, cwWin s 0)) = some (0x00000912, 8, 171) := by decide +kernel
/-- PK-10 -/
theorem test_pkFinish :
    after .pkFinish { open73bits with tval := 0xF, tlen := 4, fval := 0b10, flen := 2 }
      (fun s => (s.pkLen, (List.range 3).map fun i => cwWin s i)) = some (21, [15, 63, 85]) := by decide +kernel
/-- PK-12 -/
theorem test_pkFinish_boundary :
    after .pkFinish { effectPkAppend 3 0xA (effectPkInit 4 3 State.reset) with tval := 0xF, tlen := 4, tmode := true }
      (fun s => (List.range 3).map fun i => cwWin s i) = some [10, 0, 0] := by decide +kernel

/-! ### The port, the fault record and reset -/

/-- D-9 -/
theorem test_illegal_word : (nextState (step (State.reset.withFetchWord 32 0x02010000))).map
    (fun s => (statusWord s, s.faultCmd)) = some (0x00000102, 0x02010000) := by decide +kernel
/-- C-1 -/
theorem test_discard : after (.gfInit 0x11D) faulted (fun s => (statusWord s, s.gfPoly)) = some (0x00000402, 0) := by
  decide +kernel
/-- C-5 and C-6: SOFT_RESET wins; CLR_FAULT clears and writes IRQ_EN = 0. -/
theorem test_ctrl : regRead (regWrite 0x0008 0xFFFFFFFE faulted) 0x0008 = 0 ∧
    irq (regWrite 0x0008 1 faulted) = true ∧ irq (regWrite 0x0008 0x100 (regWrite 0x0008 1 faulted)) = false := by
  decide +kernel
/-- B-1 and B-2 -/
theorem test_bus_errors :
    (nextState (step (asks ⟨false, 0x000C, .byte, 0⟩))).map State.responses = some [.error] ∧
    (nextState (step (asks ⟨true, 0x0012, .word, 0x0100011D⟩))).map (fun s => (s.responses, s.pending)) =
      some ([.error], none) := by decide +kernel
/-- B-7: the read of GF_M keeps its place while the command completes. -/
theorem test_stall : (nextState (step (flight 0x01000007 ⟨false, 0x0020, .word, 0⟩))).map
    (fun s => (regRead s 0x0020, s.inbox.length, s.responses.length)) = some (2, 1, 0) := by decide +kernel
/-- C-10 and the parameters of R6 -/
theorem test_param : regRead State.reset 0x0004 =
    BitVec.ofNat 4 0 ++ BitVec.ofNat 12 Config.capMax ++ BitVec.ofNat 8 Config.nsymMax ++
      BitVec.ofNat 4 Config.wMax ++ BitVec.ofNat 4 Config.mMax ∧
    Config.bbBits = Config.capMax * Config.wMax ∧ Config.tableN = 2 ^ Config.mMax := by decide +kernel
/-- E-20 -/
theorem test_pkValue : expand (.pkValue 32 0x01020304) =
    some [.command (.pkAppend 16 0x0102), .command (.pkAppend 16 0x0304)] := by decide
/-- R108: 17 bits are a chunk of 16, its first bit the most significant, and a chunk of one. -/
theorem test_pkBits : parseLine "PK_BITS \"10000000000000111\"".toList =
    some [.command (.pkAppend 16 0x8003), .command (.pkAppend 1 1)] := by decide +kernel
/-- P1's line `R GF_M -> 0x0000_0008`, and a command with a comment -/
theorem test_parse :
    parseLine "R GF_M -> 0x0000_0008".toList = some [.read .gfM 8] ∧
    parseLine "RS_INIT 10, 0   # 0x1000_000A".toList = some [.command (.rsInit 10 0)] := by decide +kernel
/-- R185's example, whose products are below 2^4 and so the same in GF(2^4) -/
theorem test_systematicCodeword : after (.rsFeed 1) rs16 (systematicCodeword [1]) = some [1, 3, 2] := by
  decide +kernel

/-! ### Witnesses: the hypotheses of each statement are met together -/

theorem witness_EncodeOfDecodeIsTheWord : ∃ w i, decode w = .ok i := ⟨_, _, test_decode_rsFeedcw⟩

theorem witness_FieldsStandWhereTheFormatsPutThem :
    decode 0x13ABC123 = .ok (.rsFeedcw 0xABC 0x123) ∧ decode 0x20F00FFF = .ok (.pkInit 0xF 0xFFF) := by decide

theorem witness_IllegalWordRaisesIllegalCmd :
    (∀ w ∈ [0x04000000#32, 0x0FFFFFFF, 0x14000000, 0x1F000000, 0x23000000, 0xFFFFFFFF],
      (0x04 ≤ (w >>> 24).toNat ∧ (w >>> 24).toNat ≤ 0x0F) ∨ (0x14 ≤ (w >>> 24).toNat ∧ (w >>> 24).toNat ≤ 0x1F) ∨
        0x23 ≤ (w >>> 24).toNat) ∧
    ∃ (w : Word) (s : State), (∀ row ∈ opcodeMap, w &&& row.2 ≠ row.1) ∧
      s.rstN = true ∧ s.pending = some w ∧ s.fault = false ∧ s.inbox = [] :=
  ⟨by intro w hw; fin_cases hw <;> decide, 0x12000100, loadCommand 0x12000100 State.reset,
    by intro row hrow; fin_cases hrow <;> decide, rfl, rfl, rfl, rfl⟩

/-- Each bound of R106, on both sides. -/
theorem witness_AssemblerRefusesWhatDoesNotFit :
    assemble (.gfInit 0xFFFF) ≠ none ∧ assemble (.gfInit 0x10000) = none ∧
    assemble (.gfMul 0xFF 0xFF) ≠ none ∧ assemble (.gfAdd 0x100 0xFF) = none ∧
    assemble (.rsInit 0xFF 0xFF) ≠ none ∧ assemble (.rsInit 0xFF 0x100) = none ∧
    assemble (.rsFeed 0xFF) ≠ none ∧ assemble (.rsFeed 0x100) = none ∧
    assemble (.rsFeedcw 0xFFF 0xFFF) ≠ none ∧ assemble (.rsFeedcw 0xFFF 0x1000) = none ∧
    assemble (.pkInit 0xF 0xFFF) ≠ none ∧ assemble (.pkInit 0x10 0xFFF) = none ∧
    assemble (.pkAppend 1 0xFFFF) ≠ none ∧ assemble (.pkAppend 16 0xFFFF) ≠ none ∧
    assemble (.pkAppend 0 0) = none ∧ assemble (.pkAppend 17 0) = none := by decide

theorem witness_StepRunsTheDecodedCommand :
    (∃ (s : State) (w : Word) (i : Instr), s.rstN = true ∧ s.pending = some w ∧ decode w = .ok i ∧
      ∃ a rest, s.inbox = .access a :: rest ∧ overtakes a = false) ∧
    ∃ (nbits w : Nat) (i : Instr), decodeTableWord nbits w = some i :=
  ⟨⟨flight 0x11000000 ⟨false, 0x0018, .word, 0⟩, _, _, rfl, rfl, test_decode_rsClear, _, [], rfl, by decide⟩,
    _, _, _, test_decodeTableWord⟩

theorem witness_OnlyAnAccessDuringResetStopsARun :
    ∃ (s : State) (a : Access) (rest : List HostEvent), s.rstN = false ∧ s.inbox = .access a :: rest :=
  ⟨{ asks ⟨false, 0, .word, 0⟩ with rstN := false }, _, _, rfl, rfl⟩

theorem witness_OtherAccessesWaitForTheCommand :
    ∃ (s : State) (w : Word) (a : Access) (rest : List HostEvent),
      s.rstN = true ∧ s.pending = some w ∧ s.inbox = .access a :: rest ∧
      ¬(a.size = .word ∧ a.write = false ∧ (a.addr = 0x0000 ∨ a.addr = 0x0004 ∨ a.addr = 0x000C)) :=
  ⟨flight 0x11000000 ⟨false, 0x0008, .word, 0⟩, _, _, _, rfl, rfl, rfl, by decide⟩

theorem witness_StatusReadMayOvertakeTheCommand :
    ∃ (s : State) (w wd : Word) (rest : List HostEvent),
      s.rstN = true ∧ s.pending = some w ∧ s.inbox = .access ⟨false, 0x000C, .word, wd⟩ :: rest :=
  ⟨flight 0x0100011D ⟨false, 0x000C, .word, 0⟩, _, _, _, rfl, rfl, rfl⟩

theorem witness_EveryCommandCompletes :
    ∃ (s : State) (w : Word), s.rstN = true ∧ s.pending = some w ∧ s.inbox ≠ [] ∧
      ∀ e ∈ s.inbox, ∃ a, e = .access a :=
  ⟨flight 0x0100011D ⟨false, 0x000C, .word, 0⟩, _, rfl, rfl, by simp [flight], by simp [flight]⟩

theorem witness_IllegalAccessGetsAnErrorResponse :
    (∃ (s : State) (a : Access) (rest : List HostEvent), s.rstN = true ∧ s.pending = none ∧
      s.inbox = .access a :: rest ∧ a.size ≠ .word) ∧
    ∃ (s : State) (a : Access) (rest : List HostEvent), s.rstN = true ∧ s.pending = none ∧
      s.inbox = .access a :: rest ∧ a.size = .word ∧ a.addr.toNat % 4 ≠ 0 :=
  ⟨⟨asks ⟨false, 0x000C, .reserved, 0⟩, _, _, rfl, rfl, rfl, by decide⟩,
    asks ⟨true, 0x7FFF, .word, 0⟩, _, _, rfl, rfl, rfl, rfl, by decide⟩

theorem witness_ReadsHaveNoSideEffect :
    (∃ (s : State) (off : BitVec 15) (wd : Word) (rest : List HostEvent), s.rstN = true ∧
      s.inbox = .access ⟨false, off, .word, wd⟩ :: rest ∧ off.toNat % 4 = 0 ∧ s.pending = none) ∧
    ∃ (s : State) (off : BitVec 15) (wd : Word) (rest : List HostEvent) (w : Word), s.rstN = true ∧
      s.inbox = .access ⟨false, off, .word, wd⟩ :: rest ∧ off.toNat % 4 = 0 ∧ s.pending = some w :=
  ⟨⟨asks ⟨false, 0x7FFC, .word, 0⟩, _, _, _, rfl, rfl, by decide, rfl⟩,
    { asks ⟨false, 0x000C, .word, 0⟩ with pending := some 0 }, _, _, _, _, rfl, rfl, by decide, rfl⟩

theorem witness_OnlyFourRegistersActOnAWrite :
    (∃ (s : State) (v : Word) (rest : List HostEvent), s.rstN = true ∧ s.pending = none ∧
      s.inbox = .access ⟨true, 0x0010, .word, v⟩ :: rest ∧ (0x0010 : BitVec 15).toNat % 4 = 0) ∧
    ∃ (s : State) (off : BitVec 15) (v : Word) (rest : List HostEvent), s.rstN = true ∧ s.pending = none ∧
      s.inbox = .access ⟨true, off, .word, v⟩ :: rest ∧ off.toNat % 4 = 0 ∧
      off ≠ 0x0008 ∧ off ≠ 0x0010 ∧ off ≠ 0x003C ∧ off ≠ 0x0040 :=
  ⟨⟨asks ⟨true, 0x0010, .word, 0⟩, _, _, rfl, rfl, rfl, by decide⟩,
    asks ⟨true, 0x0024, .word, 5⟩, _, _, _, rfl, rfl, rfl, by decide⟩

theorem witness_CmdWritePutsTheWordInFlight :
    ∃ (s : State) (v : Word) (rest : List HostEvent), s.rstN = true ∧ s.pending = none ∧
      s.inbox = .access ⟨true, 0x0010, .word, v⟩ :: rest :=
  ⟨asks ⟨true, 0x0010, .word, 0x0100011D⟩, _, _, rfl, rfl, rfl⟩

theorem witness_RegisterReadsFollowTheMap :
    ∀ off ∈ [0x0044#15, 0x03FC, 0x1800, 0x3FFC], off.toNat % 4 = 0 ∧
      ((0x0044 ≤ off.toNat ∧ off.toNat ≤ 0x03FC) ∨ (0x1800 ≤ off.toNat ∧ off.toNat ≤ 0x3FFC)) := by
  intro off hoff; fin_cases hoff <;> decide

theorem witness_CodewordWindowSlicesTheBuffer :
    (open73bits.pkW.toNat ≤ 8 ∧ open73bits.pkState ≠ .idle ∧ 2 < open73bits.pkCap.toNat) ∧
    (¬(open73bits.pkState ≠ .idle ∧ 3 < open73bits.pkCap.toNat)) ∧
    ¬(State.reset.pkState ≠ .idle ∧ 0 < State.reset.pkCap.toNat) := by decide +kernel

theorem witness_CtrlWriteActs :
    (0x00000201#32).getLsbD 9 = true ∧
    ((0x00000101#32).getLsbD 9 = false ∧ (0x00000101#32).getLsbD 8 = true) ∧
    ((0x00000001#32).getLsbD 9 = false ∧ (0x00000001#32).getLsbD 8 = false) := by decide

theorem witness_FirstFailingCheckIsReported :
    faulted.fault = true ∧ State.reset.fault = false ∧
    (decode 0x0100_0003 = .ok (.gfInit 3) ∧ decode 0x0100_0200 = .ok (.gfInit 0x200)) ∧
    (decode 0x0200_0101 = .ok (.gfMul 1 1) ∧ State.reset.gfValid = false ∧ gf16.gfValid = true ∧ gf16.fault = false) ∧
    (rs16.rsValid = true ∧ rs16.pkState ≠ .done) ∧
    (done22.rsValid = true ∧ done22.pkState = .done ∧ 1 + 2 > done22.pkCap.toNat) ∧
    (open73bits.pkState = .open ∧ open73bits.pkLen.toNat + (10 + 1) = totalBits open73bits ∧
      open73bits.pkLen.toNat + (11 + 1) > totalBits open73bits) := by decide +kernel

theorem witness_FaultsArePrecise : ∃ s t : State, s.fault = false ∧ step s = .next t ∧ t.fault = true :=
  ⟨loadCommand 0x02000101 State.reset, _, rfl, rfl, by decide +kernel⟩

theorem witness_CommandsAreDiscardedWhileFault :
    ∃ (s : State) (w : Word), s.rstN = true ∧ s.pending = some w ∧ s.fault = true ∧ s.inbox = [] :=
  ⟨loadCommand 0x0100011D faulted, _, rfl, rfl, rfl, rfl⟩

theorem witness_InterruptFollowsEnableAndFault :
    (∃ s t : State, step s = .next t ∧ s.fault = false ∧ t.fault = true ∧ s.irqEn = true) ∧
    (faulted.fault = true ∧ (1#32).getLsbD 9 = false ∧ (1#32).getLsbD 8 = false ∧ (1#32).getLsbD 0 = true) ∧
    (0x200#32).getLsbD 9 = true ∧ (0x101#32).getLsbD 8 = true :=
  ⟨⟨loadCommand 0x02000101 { State.reset with irqEn := true }, _, rfl, rfl, by decide +kernel, rfl⟩, by decide,
    by decide, by decide⟩

/-- The smallest degree, and the largest. -/
theorem witness_PowersOfXReduceByThePolynomial :
    (1 ≤ 1 ∧ 2 ^ 1 ≤ (0x3#16).toNat ∧ (0x3#16).toNat < 2 ^ 2 ∧ (1#16).toNat < 2 ^ 1) ∧
    1 ≤ 15 ∧ 2 ^ 15 ≤ (0xFFFF#16).toNat ∧ (0xFFFF#16).toNat < 2 ^ 16 ∧ (0x7FFF#16).toNat < 2 ^ 15 := by decide

theorem witness_GfInitRefusesABadPolynomial :
    ((0x3#16).toNat < 4 ∧ 511 < (0x200#16).toNat) ∧
    (2 ^ 2 ≤ (0x5#16).toNat ∧ (0x5#16).toNat < 2 ^ 3 ∧ xPow 0x5 2 0 = xPow 0x5 2 2) ∧
    (2 ^ 2 ≤ (0x4#16).toNat ∧ (0x4#16).toNat < 2 ^ 3 ∧ xPow 0x4 2 2 = 0) := by decide +kernel

theorem witness_GfMulGivesTheTableProduct :
    (State.reset.fault = false ∧ State.reset.gfValid = false) ∧ gf16.fault = false ∧ gf16.gfValid = true ∧
    2 ^ gf16.gfM.toNat ≤ (0x10#8).toNat ∧ (0xF#8).toNat < 2 ^ gf16.gfM.toNat := by decide +kernel

theorem witness_GfAddGivesTheExclusiveOr :
    (State.reset.fault = false ∧ State.reset.gfValid = false) ∧ gf16.fault = false ∧ gf16.gfValid = true ∧
    2 ^ gf16.gfM.toNat ≤ (0x10#8).toNat ∧ (0xF#8).toNat < 2 ^ gf16.gfM.toNat := by decide +kernel

theorem witness_RsInitBuildsTheGenerator :
    (State.reset.fault = false ∧ State.reset.gfValid = false) ∧ gf16.fault = false ∧ gf16.gfValid = true ∧
    (255#8) ≠ 0 := by decide +kernel

theorem witness_GeneratorIsTheProductOfItsFactors :
    AcceptedPoly 0x7 ∧ 1 ≤ 255 ∧ 255 ≤ 255 ∧ 2 < logMod (degree 0x7) := by decide +kernel

theorem witness_RsClearRestartsTheBlock :
    (State.reset.fault = false ∧ State.reset.rsValid = false) ∧ rs16.fault = false ∧ rs16.rsValid = true := by
  decide +kernel

theorem witness_RsFeedDividesOneSymbol :
    (rs16.fault = false ∧ 1 ≤ rs16.rsNsym.toNat ∧ rs16.rsValid = true ∧ 2 ^ rs16.gfM.toNat ≤ (0x10#8).toNat ∧
      (0xF#8).toNat < 2 ^ rs16.gfM.toNat) ∧
    ∃ s : State, s.fault = false ∧ 1 ≤ s.rsNsym.toNat ∧ s.rsValid = false :=
  ⟨by decide +kernel, effectGfInit 0x7 rs16, by decide +kernel⟩

theorem witness_RsFeedcwIsThatManyFeeds :
    done22.fault = false ∧ done22.rsValid = true ∧ done22.pkState = .done ∧ done22.gfM.toNat ≤ 8 ∧
    (0#12).toNat + (1#12).toNat ≤ done22.pkCap.toNat ∧
    (∀ j, j < (1#12).toNat → (cwWin done22 ((0#12).toNat + j)).toNat < 2 ^ done22.gfM.toNat) ∧
    (2#12).toNat + (0#12).toNat ≤ done22.pkCap.toNat := by decide +kernel

theorem witness_SystematicCodewordIsDataThenEcc :
    done22.fault = false ∧ done22.rsValid = true ∧ IsElement done22.gfM.toNat 0xF ∧
    done22.pkState = .done ∧ done22.gfM.toNat ≤ 8 ∧ (0#12).toNat + (1#12).toNat ≤ done22.pkCap.toNat ∧
    ∀ j, j < (1#12).toNat → (cwWin done22 ((0#12).toNat + j)).toNat < 2 ^ done22.gfM.toNat := by decide +kernel

theorem witness_RsFeedcwChecksEverythingFirst :
    (State.reset.fault = false ∧ State.reset.rsValid = false) ∧
    (rs16.fault = false ∧ rs16.rsValid = true ∧ rs16.pkState ≠ .done) ∧
    done22.fault = false ∧ done22.rsValid = true ∧ done22.pkState = .done ∧
    done22.pkCap.toNat < (1#12).toNat + (2#12).toNat ∧ (1#12).toNat + (1#12).toNat ≤ done22.pkCap.toNat ∧
    2 ^ done22.gfM.toNat ≤ (cwWin done22 1).toNat := by decide +kernel

theorem witness_CodewordIsAMultipleOfTheGenerator :
    AcceptedPoly 0x13 ∧ 1 ≤ 255 ∧ 0 < logMod (degree 0x13) ∧ ∀ d ∈ [0xF#8, 0], IsElement (degree 0x13) d := by
  refine ⟨by decide +kernel, by decide, by decide +kernel, ?_⟩
  intro d hd; fin_cases hd <;> decide +kernel

theorem witness_RootsAndLinearityOfTheCode :
    AcceptedPoly 0x13 ∧ 14 < logMod (degree 0x13) ∧ (0 : Nat) < 1 ∧ [0xF#8, 0].length = [1#8, 2].length ∧
    (∀ d ∈ [0xF#8, 0], IsElement (degree 0x13) d) ∧ ∀ d ∈ [1#8, 2], IsElement (degree 0x13) d := by
  refine ⟨by decide +kernel, by decide +kernel, by decide, rfl, ?_, ?_⟩ <;> intro d hd <;> fin_cases hd <;>
    decide +kernel

theorem witness_PkInitOpensAnEmptyBuffer :
    State.reset.fault = false ∧ (0#4).toNat < 1 ∧ 8 < (9#4).toNat ∧ (0#12).toNat = 0 ∧
    (1 ≤ (1#4).toNat ∧ (8#4).toNat ≤ 8 ∧ (4095#12).toNat ≠ 0) := by decide

theorem witness_PkAppendAddsBitsMostSignificantFirst :
    (State.reset.fault = false ∧ State.reset.pkW.toNat ≤ 8 ∧ State.reset.pkState ≠ .open) ∧
    open73bits.fault = false ∧ open73bits.pkW.toNat ≤ 8 ∧ open73bits.pkState = .open ∧
    open73bits.pkLen.toNat + ((10#4).toNat + 1) = open73bits.pkCap.toNat * open73bits.pkW.toNat ∧
    open73bits.pkCap.toNat * open73bits.pkW.toNat < open73bits.pkLen.toNat + ((11#4).toNat + 1) := by decide +kernel

theorem witness_PkFinishTerminatesAndFills :
    (State.reset.fault = false ∧ State.reset.pkLen.toNat ≤ State.reset.pkCap.toNat * State.reset.pkW.toNat ∧
      State.reset.pkState ≠ .open) ∧
    (open73bits.fault = false ∧ open73bits.pkW.toNat ≤ 8 ∧ open73bits.pkState = .open ∧
      open73bits.pkLen.toNat ≤ open73bits.pkCap.toNat * open73bits.pkW.toNat ∧
      open73bits.tlen.toNat ≤ 16 ∧ 1 ≤ open73bits.flen.toNat ∧ open73bits.flen.toNat ≤ 16) ∧
    (16 < (17#5).toNat ∧ (0#5).toNat = 0) := by decide +kernel

theorem witness_CommandsOnlyAppend :
    ∃ (i : Instr) (s t : State), (∀ w cap, i ≠ .pkInit w cap) ∧ s.pkState ≠ .idle ∧ s.pkW.toNat ≤ 8 ∧
      s.pkLen.toNat ≤ s.pkCap.toNat * s.pkW.toNat ∧ exec i s = .next t ∧ (0 + 1) * s.pkW.toNat ≤ s.pkLen.toNat :=
  ⟨.pkFinish, open73bits, _, (by intro w cap h; cases h), by decide +kernel, by decide +kernel, by decide +kernel, rfl,
    by decide +kernel⟩

theorem witness_PkValueAppendsItsBits :
    (16 < 17 ∧ 32 ≤ 32 ∧ 0xFFFFFFFF < 2 ^ 32) ∧
    (let s := effectPkInit 8 4 State.reset
     s.fault = false ∧ s.pkState = .open ∧ s.pkW.toNat ≤ 8 ∧ s.pkLen.toNat + 32 ≤ s.pkCap.toNat * s.pkW.toNat) := by
  decide +kernel

theorem witness_GfCommandsFrame :
    (∃ t, exec (.gfInit 0x7) State.reset = .next t) ∧ ∃ t, exec (.gfMul 2 3) gf4 = .next t := ⟨⟨_, rfl⟩, _, rfl⟩

theorem witness_RsCommandsFrame :
    (∃ t, exec (.rsInit 2 0) gf16 = .next t) ∧ ∃ t, exec (.rsFeed 1) rs16 = .next t := ⟨⟨_, rfl⟩, _, rfl⟩

theorem witness_PkCommandsFrame :
    (∃ t, exec (.pkInit 7 3) State.reset = .next t) ∧ (∃ t, exec (.pkAppend 9 123) open73 = .next t) ∧
    ∃ t, exec .pkFinish open73bits = .next t := ⟨⟨_, rfl⟩, ⟨_, rfl⟩, _, rfl⟩

theorem witness_FlagsHaveOnlyTheirWriters :
    (∃ (i : Instr) (s t : State), exec i s = .next t ∧ s.rsValid = true ∧ t.rsValid = false) ∧
    ∃ (i : Instr) (s t : State), exec i s = .next t ∧ s.rsValid = true ∧ t.fault = true :=
  ⟨⟨.gfInit 0x7, rs16, _, rfl, rfl, by decide +kernel⟩, .gfInit 0x3, rs16, _, rfl, rfl, by decide +kernel⟩

theorem witness_ResetValues : (0x7FFC : BitVec 15).toNat % 4 = 0 := by decide

theorem witness_ResetInputAbandonsTheCommand :
    (∃ (s : State) (rest : List HostEvent), s.rstN = true ∧ s.inbox = .assertReset :: rest ∧ s.pending.isSome) ∧
    (∃ (s : State) (rest : List HostEvent), s.rstN = false ∧ s.inbox = .releaseReset :: rest) ∧
    ∃ s : State, s.rstN = false ∧ s.inbox = [] :=
  ⟨⟨{ loadCommand 0x0100011D rs16 with inbox := [.assertReset] }, _, rfl, rfl, rfl⟩,
    ⟨{ State.reset with rstN := false, inbox := [.releaseReset] }, _, rfl, rfl⟩,
    { State.reset with rstN := false }, rfl, rfl⟩

/-- A block with a field, a generator and an open packer, a command in flight, and some RESULT. -/
def busyBlock (v : Byte) : State := loadCommand 0x12000001 (effectPkInit 7 3 { rs16 with result := v })

theorem getLsbD_ofZero {n : Nat} (i : Nat) : (0 : BitVec n).getLsbD i = false := BitVec.getLsbD_zero

theorem busyBlock_bb (v : Byte) : (busyBlock v).bb = 0 := by
  simp only [busyBlock, loadCommand_bb, effectPkInit_bb]

theorem rs16_generator : rs16.g = genPoly (currentField rs16) rs16.rsNsym.toNat rs16.rsIndex.toNat := by
  have h : rs16.rsIndex.toNat = reducedIndex gf16 0 := by decide +kernel
  have hf : currentField rs16 = currentField gf16 := by
    simp only [rs16, currentField, effectRsInit_gfM, effectRsInit_log, effectRsInit_alog]
  rw [h, hf]
  simp only [rs16, effectRsInit_g, effectRsInit_rsNsym]

theorem busyBlock_inv (v : Byte) : Inv (busyBlock v) where
  field _ := by
    refine ⟨by show AcceptedPoly 0x13; decide +kernel, ?_, rfl, rfl⟩
    show (BitVec.ofNat 4 (degree 0x13)).toNat = degree 0x13
    decide +kernel
  generator _ := by
    refine ⟨rfl, by show 1 ≤ (2#8).toNat; decide, ?_, ?_⟩
    · show (BitVec.ofNat 8 (reducedIndex gf16 0)).toNat < logMod (BitVec.ofNat 4 (degree 0x13)).toNat
      decide +kernel
    · have h : currentField (busyBlock v) = currentField rs16 := by
        simp only [busyBlock, currentField, loadCommand_gfM, loadCommand_log, loadCommand_alog, effectPkInit_gfM,
          effectPkInit_log, effectPkInit_alog]
      rw [h]
      simpa only [busyBlock, loadCommand_g, loadCommand_rsNsym, loadCommand_rsIndex, effectPkInit_g,
        effectPkInit_rsNsym, effectPkInit_rsIndex] using rs16_generator
  remainder _ k := by
    have h : (busyBlock v).r.get k = 0 := Table.get_zero k
    exact ⟨by rw [h]; exact Nat.two_pow_pos _, fun _ => h⟩
  packer _ := by
    refine ⟨by show 1 ≤ (7#4).toNat ∧ (7#4).toNat ≤ 8; decide, by show 1 ≤ (3#12).toNat; decide, ?_, fun _ _ => ?_⟩
    · show (0#16).toNat ≤ (3#12).toNat * (7#4).toNat; decide
    · rw [busyBlock_bb]; exact getLsbD_ofZero _
  finished h := by cases h
  clear _ := ⟨rfl, rfl⟩
  recorded h := by cases h
  heldInReset h := by cases h

theorem witness_EveryStepKeepsTheInvariant : ∃ s t : State, Inv s ∧ step s = .next t :=
  ⟨busyBlock 0, _, busyBlock_inv 0, rfl⟩

theorem witness_ReachableStatesMeetTheInvariants : ∃ s : State, Reachable s :=
  ⟨_, Reachable.post (.access ⟨true, 0x0010, .word, 0x0100011D⟩) (Reachable.reset 0)⟩

/-- Another remainder behind a gated window is another state that looks the same. -/
theorem witness_UnspecifiedContentsAreUnobservable :
    ∃ s s' : State, s ≠ s' ∧ (s.rsValid = true → s.gfValid = true) ∧ SameVisible s s' :=
  ⟨State.reset, { State.reset with r := Table.zero.put 0 1 }, by
      intro h
      have := congrArg (fun s => s.r.get 0) h
      revert this
      decide +kernel,
    fun h => absurd h (by decide), ⟨rfl, fun _ => ⟨rfl, rfl⟩, fun h => absurd h (by decide), fun _ => rfl⟩⟩

theorem witness_AJobForgetsEarlierSequences :
    ∃ s s' : State, s ≠ s' ∧ Inv s ∧ Inv s' ∧ s.fault = false ∧ s'.fault = false ∧ AcceptedPoly 0x7 ∧
      (1#8) ≠ 0 ∧ 1 ≤ (8#4).toNat ∧ (8#4).toNat ≤ 8 ∧ (1#12) ≠ 0 :=
  ⟨busyBlock 0, busyBlock 1, fun h => absurd (congrArg State.result h) (by show ¬(0#8 = 1#8); decide),
    busyBlock_inv 0, busyBlock_inv 1, rfl, rfl, by decide +kernel⟩

theorem witness_InstancesAreIndependent :
    (∃ (p p' : List Instance) (k : Nat), stepInstance k p = .next p' ∧ 1 < p.length) ∧
    ∃ (p : List Instance) (addr j : Nat) (i : Instance), p[j]? = some i ∧
      ¬(i.base ≤ addr ∧ addr < i.base + 0x8000) :=
  ⟨⟨[.atReset 0 1 0 0, .atReset 0x8000 2 0 1], _, 1, rfl, by decide⟩,
    [.atReset 0 1 0 0], 0x8000, 0, _, rfl, by decide⟩

/-! ### Witnesses over the largest field -/

theorem accepted7 : AcceptedPoly 0x7 := by decide +kernel

theorem accepted11D : AcceptedPoly 0x11D := by decide +kernel

theorem witness_GfInitBuildsTheField :
    ∀ pm ∈ [(0x7#16, 2), (0x11D, 8)], (2 ≤ pm.2 ∧ pm.2 ≤ 8) ∧ (2 ^ pm.2 ≤ pm.1.toNat ∧ pm.1.toNat < 2 ^ (pm.2 + 1)) ∧
      (∀ i j, i < 2 ^ pm.2 - 1 → j < 2 ^ pm.2 - 1 → xPow pm.1 pm.2 i = xPow pm.1 pm.2 j → i = j) ∧
      ∀ i, i < 2 ^ pm.2 - 1 → xPow pm.1 pm.2 i ≠ 0 := by
  have h7 := (isPrimitive_iff 0x7).mp accepted7.2
  have h1D := (isPrimitive_iff 0x11D).mp accepted11D.2
  intro pm hpm
  simp only [List.mem_cons, List.not_mem_nil, or_false] at hpm
  rcases hpm with rfl | rfl
  · exact ⟨by decide, by decide, h7.1, h7.2⟩
  · exact ⟨by decide, by decide, h1D.1, h1D.2⟩

theorem witness_TableProductIsThePolynomialProduct :
    (AcceptedPoly 0x7 ∧ IsElement (degree 0x7) 3) ∧ AcceptedPoly 0x11D ∧ IsElement (degree 0x11D) 0xFF :=
  ⟨⟨accepted7, by decide⟩, accepted11D, by decide⟩

theorem witness_FieldLawsHold :
    (AcceptedPoly 0x7 ∧ IsElement (degree 0x7) 3 ∧ 2 < 2 ^ degree 0x7 - 1) ∧
    AcceptedPoly 0x11D ∧ IsElement (degree 0x11D) 0xFF ∧ 254 < 2 ^ degree 0x11D - 1 :=
  ⟨⟨accepted7, by decide⟩, accepted11D, by decide⟩

theorem witness_GeneratorIsMonic :
    AcceptedPoly 0x11D ∧ 1 ≤ 255 ∧ 255 ≤ 255 ∧ 254 < logMod (degree 0x11D) := ⟨accepted11D, by decide⟩

end Sys2Proof.Tests.Slice0
end

section
/-! SUPPORT. Rules the proofs below share: when the checks of a command pass (60_exceptions.md R234), which fields the
effects write, the registers CMD, PK_TERM and PK_FILL, and the service of an access while no command is in flight. -/
namespace Sys2Proof.Machine

/-! ### The checks that pass -/

/-- A chain of checks passes when its first condition is false and the rest passes. -/
theorem ite_some_eq_none_iff {α : Type} {p : Prop} [Decidable p] {c : α} {x : Option α} :
    (if p then some c else x) = none ↔ ¬p ∧ x = none := by
  split <;> simp [*]

theorem checkGfInit_eq_none_iff (poly : BitVec 16) (s : State) : checkGfInit poly s = none ↔ AcceptedPoly poly := by
  simp [checkGfInit, ite_some_eq_none_iff]

theorem checkRsInit_eq_none_iff (nsym : BitVec 8) (s : State) :
    checkRsInit nsym s = none ↔ s.gfValid = true ∧ nsym ≠ 0 := by
  simp [checkRsInit, ite_some_eq_none_iff]

theorem checkPkInit_eq_none_iff (w : BitVec 4) (cap : BitVec 12) (s : State) :
    checkPkInit w cap s = none ↔ 1 ≤ w.toNat ∧ w.toNat ≤ 8 ∧ cap ≠ 0 := by
  simp only [checkPkInit, ite_some_eq_none_iff, not_or, Nat.not_lt, and_true, ne_eq]

theorem checkPkAppend_eq_none_iff (nm1 : BitVec 4) (s : State) :
    checkPkAppend nm1 s = none ↔ s.pkState = .open ∧ s.pkLen.toNat + appendLength nm1 ≤ totalBits s := by
  simp only [checkPkAppend, ite_some_eq_none_iff, ne_eq, not_not, Nat.not_lt, and_true]

/-- PK_FINISH passes only on an open packer. -/
theorem pkState_of_checkPkFinish {s : State} (h : checkPkFinish s = none) : s.pkState = .open := by
  simpa using (ite_some_eq_none_iff.mp h).1

/-! ### Which effect writes which flag -/

theorem effectOf_gfValid (i : Instr) (s : State) :
    (effectOf i s).gfValid = s.gfValid ∨ ((effectOf i s).gfValid = true ∧ ∃ poly, i = .gfInit poly) := by
  cases i with
  | gfInit poly => exact .inr ⟨rfl, poly, rfl⟩
  | _ => exact .inl rfl

theorem effectOf_rsValid (i : Instr) (s : State) :
    (effectOf i s).rsValid = s.rsValid ∨
    ((effectOf i s).rsValid = true ∧ ∃ nsym index, i = .rsInit nsym index) ∨
    ((effectOf i s).rsValid = false ∧ (effectOf i s).gfValid = true ∧ ∃ poly, i = .gfInit poly) := by
  cases i with
  | gfInit poly => exact .inr (.inr ⟨rfl, rfl, poly, rfl⟩)
  | rsInit nsym index => exact .inr (.inl ⟨rfl, nsym, index, rfl⟩)
  | _ => exact .inl rfl

theorem effectOf_pkState (i : Instr) (s : State) :
    (effectOf i s).pkState = s.pkState ∨
    ((effectOf i s).pkState = .open ∧ ∃ w cap, i = .pkInit w cap) ∨
    ((effectOf i s).pkState = .done ∧ i = .pkFinish) := by
  cases i with
  | pkInit w cap => exact .inr (.inl ⟨rfl, w, cap, rfl⟩)
  | pkFinish => exact .inr (.inr ⟨rfl, rfl⟩)
  | _ => exact .inl rfl

theorem effectOf_result (i : Instr) (s : State) :
    (effectOf i s).result = s.result ∨ (∃ a b, i = .gfMul a b) ∨ ∃ a b, i = .gfAdd a b := by
  cases i with
  | gfMul a b => exact .inr (.inl ⟨a, b, rfl⟩)
  | gfAdd a b => exact .inr (.inr ⟨a, b, rfl⟩)
  | _ => exact .inl rfl

/-- No effect reaches the two registers a host writes whole, PK_TERM and PK_FILL, or IRQ_EN. -/
theorem effectOf_hostRegisters (i : Instr) (s : State) :
    (effectOf i s).irqEn = s.irqEn ∧ (effectOf i s).tval = s.tval ∧ (effectOf i s).tlen = s.tlen ∧
    (effectOf i s).tmode = s.tmode ∧ (effectOf i s).fval = s.fval ∧ (effectOf i s).flen = s.flen := by
  cases i <;> exact ⟨rfl, rfl, rfl, rfl, rfl, rfl⟩

/-! ### Writes at the port (20_memory.md R65) -/

theorem regWrite_cmd (v : Word) (s : State) : regWrite 0x0010 v s = issue v s := rfl

theorem regWrite_pkTerm (v : Word) (s : State) :
    regWrite 0x003C v s =
      { s with tval := v.extractLsb' 0 16, tlen := v.extractLsb' 16 5, tmode := v.getLsbD 24 } := rfl

theorem regWrite_pkFill (v : Word) (s : State) :
    regWrite 0x0040 v s = { s with fval := v.extractLsb' 0 16, flen := v.extractLsb' 16 5 } := rfl

/-- PK_TERM reads back what was written without its reserved bits (10_state.md R39). -/
theorem regRead_regWrite_pkTerm (v : Word) (s : State) : regRead (regWrite 0x003C v s) 0x003C = v &&& 0x011FFFFF := by
  show 0#7 ++ flag (v.getLsbD 24) ++ 0#3 ++ v.extractLsb' 16 5 ++ v.extractLsb' 0 16 = v &&& 0x011FFFFF
  refine BitVec.eq_of_getLsbD_eq fun i hi => ?_
  simp only [flag, BitVec.getLsbD_and, BitVec.getLsbD_append]
  interval_cases i <;> simp

/-- PK_FILL reads back what was written without its reserved bits (10_state.md R40). -/
theorem regRead_regWrite_pkFill (v : Word) (s : State) : regRead (regWrite 0x0040 v s) 0x0040 = v &&& 0x001FFFFF := by
  show 0#11 ++ v.extractLsb' 16 5 ++ v.extractLsb' 0 16 = v &&& 0x001FFFFF
  refine BitVec.eq_of_getLsbD_eq fun i hi => ?_
  simp only [BitVec.getLsbD_and, BitVec.getLsbD_append]
  interval_cases i <;> simp

theorem legal_iff (a : Access) : legal a = true ↔ a.size = .word ∧ a.addr.toNat % 4 = 0 := by
  simp [legal]

/-- A legal write answers and does its RegWrite (R65). -/
theorem serve_write {a : Access} (s : State) (hl : legal a = true) (hw : a.write = true) :
    serve a s = { regWrite a.addr a.wdata s with responses := s.responses ++ [.written] } := by
  rw [serve, accessEffect_of_write (by rw [hl, hw]; rfl), response, if_pos hl, if_pos hw]

@[simp] theorem countOvertaking_rstN (s : State) : (countOvertaking s).rstN = s.rstN := by
  unfold countOvertaking; split <;> rfl

/-- A port with no command in flight serves the access at the head of its inbox at once. -/
theorem step_of_idle_access {s : State} {a : Access} {rest : List HostEvent} (hr : s.rstN = true)
    (hp : s.pending = none) (hi : s.inbox = .access a :: rest) :
    step s = .next (serve a { s with inbox := rest }) := by
  have hmove : nextMove s = .host (.access a) rest := by simp only [nextMove, hp, hi]
  have hcount : countOvertaking { s with inbox := rest } = { s with inbox := rest } := countOvertaking_of_idle hp
  rw [step, if_pos hr, runningStep, hmove]
  exact congrArg (fun u => Host.Outcome.next (serve a u)) hcount

end Sys2Proof.Machine
end

section
/-! SUPPORT. Elements of the field stay elements: the entries of LOG, of the generator and of the remainder
(41_gf.md R151, 42_rs.md R182 and R186). -/
namespace Sys2Proof.Machine

/-- What Inv says of R: elements everywhere, and zeros from nsym up (10_state.md R44). -/
def IsRemainder (m nsym : Nat) (r : Table) : Prop := ∀ k, IsElement m (r.get k) ∧ (nsym ≤ k → r.get k = 0)

theorem isElement_zero (m : Nat) : IsElement m 0 := Nat.two_pow_pos m

theorem isElement_one {m : Nat} (h : 1 ≤ m) : IsElement m 1 := Nat.one_lt_two_pow (by omega)

theorem isRemainder_zero (m nsym : Nat) : IsRemainder m nsym Table.zero := fun k => by
  rw [Table.get_zero]
  exact ⟨isElement_zero m, fun _ => rfl⟩

/-- LOGMOD of a legal degree is a byte and not 0. -/
theorem logMod_bounds {m : Nat} (h : 2 ≤ m ∧ m ≤ 8) : 3 ≤ logMod m ∧ logMod m ≤ 255 := by
  have h1 : 2 ^ 2 ≤ 2 ^ m := Nat.pow_le_pow_right (by decide) h.1
  have h2 : 2 ^ m ≤ 2 ^ 8 := Nat.pow_le_pow_right (by decide) h.2
  unfold logMod
  omega

/-- The entries of LOG are exponents below LOGMOD, so elements of the field. -/
theorem logTable_lt {poly : BitVec 16} (h : AcceptedPoly poly) (k : Nat) :
    IsElement (degree poly) ((logTable poly).get k) := by
  by_cases hk : ∃ e, e < logMod (degree poly) ∧ (xPow poly (degree poly) e).toNat = k
  · obtain ⟨e, he, rfl⟩ := hk
    rw [logTable_get_xPow h.1 h.2 he, IsElement, BitVec.toNat_ofNat]
    exact lt_of_le_of_lt (Nat.mod_le e _) (lt_of_lt_of_le he (Nat.sub_le _ 1))
  · rw [logTable_get_of_notPower fun e he hek => hk ⟨e, he, hek⟩]
    exact isElement_zero _

variable {f : GaloisField}

/-- Every pass of GenPoly multiplies and adds elements. -/
theorem genPasses_lt (hm : 1 ≤ f.m) (ha : ∀ k, IsElement f.m (f.alog.get k)) (idx : Nat) {n : Nat} (hn : n < 256)
    (k : Nat) : IsElement f.m ((genPasses f idx n (Table.zero.put 0 1)).get k) := by
  induction n generalizing k with
  | zero =>
    rw [genPasses, genStart_get]
    split
    · exact isElement_one hm
    · exact isElement_zero _
  | succ n ih =>
    rw [genPasses, genPass_get f _ _ _ _ (by omega) hn]
    split_ifs
    · exact gfMul_lt f ha _ _
    · exact gfAdd_lt (gfMul_lt f ha _ _) (ih (by omega) _)
    · exact isElement_one hm
    · exact ih (by omega) k

/-- The coefficients of the generator are elements (10_state.md R43). -/
theorem genPoly_lt (hm : 1 ≤ f.m) (ha : ∀ k, IsElement f.m (f.alog.get k)) {nsym : Nat} (hn : nsym < 256)
    (idx k : Nat) : IsElement f.m ((genPoly f nsym idx).get k) :=
  genPasses_lt hm ha idx hn k

/-- One division step leaves a remainder, whatever the generator's table holds. -/
theorem divStep_isRemainder (ha : ∀ k, IsElement f.m (f.alog.get k)) {g r : Table} {nsym : Nat} {d : Byte}
    (h1 : 1 ≤ nsym) (h2 : nsym ≤ 256) (hr : IsRemainder f.m nsym r) :
    IsRemainder f.m nsym (divStep f g nsym r d) := fun k => by
  rw [divStep_get f g nsym r d k h1 h2]
  split_ifs with h0 hlt
  · exact ⟨gfMul_lt f ha _ _, by omega⟩
  · exact ⟨gfAdd_lt (hr _).1 (gfMul_lt f ha _ _), by omega⟩
  · exact hr k

end Sys2Proof.Machine
end

section
/-! SUPPORT. The invariant, operation by operation: the fault record, reset, completion, each effect, the port. -/
namespace Sys2Proof.Machine

variable {s : State}

/-! ### What the invariant says of the field -/

theorem currentField_of_inv (h : Inv s) (hv : s.gfValid = true) : currentField s = fieldOf s.gfPoly := by
  obtain ⟨-, hm, hlog, halog⟩ := h.field hv
  rw [currentField, fieldOf, hm, hlog, halog]

theorem gfM_bounds_of_inv (h : Inv s) (hv : s.gfValid = true) : 2 ≤ s.gfM.toNat ∧ s.gfM.toNat ≤ 8 := by
  obtain ⟨hp, hm, -⟩ := h.field hv
  exact hm ▸ degree_of_legal hp.1

theorem alog_lt_of_inv (h : Inv s) (hv : s.gfValid = true) (k : Nat) : IsElement s.gfM.toNat (s.alog.get k) := by
  obtain ⟨hp, hm, -, halog⟩ := h.field hv
  rw [hm, halog]
  exact alogTable_lt hp.1 k

/-- Division of any symbols leaves a remainder. -/
theorem divSteps_isRemainder (h : Inv s) (hv : s.rsValid = true) (ds : List Byte) :
    IsRemainder s.gfM.toNat s.rsNsym.toNat (divSteps (currentField s) s.g s.rsNsym.toNat s.r ds) := by
  obtain ⟨hgf, hn, -, -⟩ := h.generator hv
  have hn' : s.rsNsym.toNat ≤ 256 := by have := s.rsNsym.isLt; omega
  exact divSteps_induction (currentField s) (P := IsRemainder s.gfM.toNat s.rsNsym.toNat)
    (fun r hrem d _ => divStep_isRemainder (alog_lt_of_inv h hgf) hn hn' hrem) (h.remainder hv)

/-! ### The shared operations -/

/-- Reset leaves every flag down, so only the clauses on the fault record and on the held block say anything. -/
theorem resetBlock_inv (s : State) : Inv (resetBlock s) where
  field h := by cases h
  generator h := by cases h
  remainder h := by cases h
  packer h := absurd rfl h
  finished h := by cases h
  clear _ := ⟨rfl, rfl⟩
  recorded h := by cases h
  heldInReset _ := rfl

theorem post_keeps_inv (h : Inv s) (e : HostEvent) : Inv (post e s) :=
  { h with heldInReset := fun hr => congrArg (post e) (h.heldInReset hr) }

/-- Outside reset the invariant's clause on a block held in reset says nothing. -/
theorem heldInReset_of_running (hr : s.rstN = true) (h : s.rstN = false) : s = resetBlock s :=
  absurd (hr.symm.trans h) (by decide)

section
variable (h : Inv s) (hr : s.rstN = true)
include h hr

theorem complete_keeps_inv : Inv (complete s) :=
  { h with heldInReset := heldInReset_of_running hr }

theorem raiseFault_keeps_inv (c : FaultCode) (w : Word) : Inv (raiseFault c w s) :=
  { h with
    clear := fun h' => by cases h'
    recorded := fun _ => ⟨c, rfl⟩
    heldInReset := heldInReset_of_running hr }

theorem clearFault_keeps_inv : Inv (clearFault s) :=
  { h with
    clear := fun _ => ⟨rfl, rfl⟩
    recorded := fun h' => by cases h'
    heldInReset := heldInReset_of_running hr }

/-! ### The effects of the GF unit -/

theorem effectGfMul_keeps_inv (a b : Byte) : Inv (effectGfMul a b s) :=
  { h with heldInReset := heldInReset_of_running hr }

theorem effectGfAdd_keeps_inv (a b : Byte) : Inv (effectGfAdd a b s) :=
  { h with heldInReset := heldInReset_of_running hr }

theorem effectGfInit_keeps_inv {poly : BitVec 16} (hp : AcceptedPoly poly) : Inv (effectGfInit poly s) :=
  { h with
    field := fun _ => ⟨hp, congrArg GaloisField.m (currentField_effectGfInit s hp.1), rfl, rfl⟩
    generator := fun h' => by cases h'
    remainder := fun h' => by cases h'
    heldInReset := heldInReset_of_running hr }

/-! ### The effects of the RS unit -/

theorem effectRsInit_keeps_inv {nsym : BitVec 8} (index : BitVec 8) (hv : s.gfValid = true) (hn : nsym ≠ 0) :
    Inv (effectRsInit nsym index s) := by
  obtain ⟨hl1, hl2⟩ := logMod_bounds (gfM_bounds_of_inv h hv)
  have hlt : reducedIndex s index < logMod s.gfM.toNat := Nat.mod_lt _ (by omega)
  have hindex : (effectRsInit nsym index s).rsIndex.toNat = reducedIndex s index := by
    rw [effectRsInit_rsIndex, BitVec.toNat_ofNat, Nat.mod_eq_of_lt (by omega)]
  have hnsym : nsym.toNat ≠ 0 := fun h0 => hn (BitVec.eq_of_toNat_eq h0)
  exact
    { h with
      generator := fun _ => by
        rw [hindex]
        exact ⟨hv, Nat.one_le_iff_ne_zero.mpr hnsym, hlt, rfl⟩
      remainder := fun _ => isRemainder_zero _ _
      heldInReset := heldInReset_of_running hr }

theorem effectRsClear_keeps_inv : Inv (effectRsClear s) :=
  { h with
    remainder := fun _ => isRemainder_zero _ _
    heldInReset := heldInReset_of_running hr }

theorem effectRsFeed_keeps_inv (d : Byte) : Inv (effectRsFeed d s) :=
  { h with
    remainder := fun hv => divSteps_isRemainder h hv [d]
    heldInReset := heldInReset_of_running hr }

theorem effectRsFeedcw_keeps_inv (start count : BitVec 12) : Inv (effectRsFeedcw start count s) :=
  { h with
    remainder := fun hv => divSteps_isRemainder h hv _
    heldInReset := heldInReset_of_running hr }

/-! ### The effects of the packer -/

theorem effectPkInit_keeps_inv {w : BitVec 4} {cap : BitVec 12} (hw : 1 ≤ w.toNat ∧ w.toNat ≤ 8) (hc : cap ≠ 0) :
    Inv (effectPkInit w cap s) :=
  have hcap : cap.toNat ≠ 0 := fun h0 => hc (BitVec.eq_of_toNat_eq h0)
  { h with
    packer := fun _ => ⟨hw, Nat.one_le_iff_ne_zero.mpr hcap, Nat.zero_le _, fun i _ => by
      rw [effectPkInit_bb]; exact BitVec.getLsbD_zero⟩
    finished := fun h' => by cases h'
    heldInReset := heldInReset_of_running hr }

theorem effectPkAppend_keeps_inv {nm1 : BitVec 4} (val : BitVec 16) (ho : s.pkState = .open)
    (hfit : s.pkLen.toNat + appendLength nm1 ≤ totalBits s) : Inv (effectPkAppend nm1 val s) := by
  obtain ⟨hw, hc, -, hz⟩ := h.packer (by simp [ho])
  have hlen := effectPkAppend_length nm1 val s hw.2 hfit
  exact
    { h with
      packer := fun _ => by
        rw [hlen]
        refine ⟨hw, hc, hfit, fun i hi => ?_⟩
        rw [effectPkAppend_bit, if_neg (by omega)]
        exact hz i (by omega)
      finished := fun h' => by simp [ho] at h'
      heldInReset := heldInReset_of_running hr }

theorem effectPkFinish_keeps_inv (ho : s.pkState = .open) : Inv (effectPkFinish s) := by
  obtain ⟨hw, hc, hle, hz⟩ := h.packer (by simp [ho])
  have hlen := effectPkFinish_length s hw.2
  have ht := terminatorBits_le s
  exact
    { h with
      packer := fun _ => by
        rw [hlen]
        refine ⟨hw, hc, le_rfl, fun i hi => ?_⟩
        have hi' : totalBits s ≤ i := hi
        rw [effectPkFinish_bit s i hw.2 hle, if_neg (by omega), if_neg (by omega), if_neg (by omega)]
        exact hz i (by omega)
      finished := fun _ => hlen
      heldInReset := heldInReset_of_running hr }

/-! ### A command -/

theorem effectOf_keeps_inv {i : Instr} (hc : checkOf i s = none) : Inv (effectOf i s) := by
  cases i with
  | nop => exact h
  | gfInit poly => exact effectGfInit_keeps_inv h hr ((checkGfInit_eq_none_iff poly s).mp hc)
  | gfMul a b => exact effectGfMul_keeps_inv h hr a b
  | gfAdd a b => exact effectGfAdd_keeps_inv h hr a b
  | rsInit nsym index =>
    obtain ⟨hv, hn⟩ := (checkRsInit_eq_none_iff nsym s).mp hc
    exact effectRsInit_keeps_inv h hr index hv hn
  | rsClear => exact effectRsClear_keeps_inv h hr
  | rsFeed d => exact effectRsFeed_keeps_inv h hr d
  | rsFeedcw start count => exact effectRsFeedcw_keeps_inv h hr start count
  | pkInit w cap =>
    obtain ⟨hw, hw', hcap⟩ := (checkPkInit_eq_none_iff w cap s).mp hc
    exact effectPkInit_keeps_inv h hr ⟨hw, hw'⟩ hcap
  | pkAppend nm1 val =>
    obtain ⟨ho, hfit⟩ := (checkPkAppend_eq_none_iff nm1 s).mp hc
    exact effectPkAppend_keeps_inv h hr val ho hfit
  | pkFinish => exact effectPkFinish_keeps_inv h hr (pkState_of_checkPkFinish hc)

theorem completeWord_keeps_inv {w : Word} {t : State} (ht : completeWord w s = .next t) : Inv t := by
  rcases completeWord_cases ht with ⟨-, rfl⟩ | ⟨-, -, rfl⟩ | ⟨-, i, -, ⟨c, -, rfl⟩ | ⟨hc, rfl⟩⟩
  · exact complete_keeps_inv h hr
  · exact complete_keeps_inv (raiseFault_keeps_inv h hr _ w) hr
  · exact complete_keeps_inv (raiseFault_keeps_inv h hr c _) hr
  · obtain ⟨-, -, -, -, hr', -⟩ := effectOf_keeps i s
    exact complete_keeps_inv (effectOf_keeps_inv h hr hc) (hr'.trans hr)

/-! ### The port -/

theorem writeReg_keeps_inv (r : Reg) (v : Word) : Inv (writeReg r v s) := by
  rcases writeReg_cases r v s with ⟨-, heq⟩ | ⟨-, heq⟩ | ⟨-, heq⟩ | ⟨-, heq⟩ | heq <;> rw [heq]
  · have henable : Inv { s with irqEn := v.getLsbD 0 } := { h with heldInReset := heldInReset_of_running hr }
    rcases ctrlWrite_cases v s with ⟨-, heq⟩ | ⟨-, -, heq⟩ | ⟨-, -, heq⟩ <;> rw [heq]
    · exact resetBlock_inv s
    · exact clearFault_keeps_inv henable hr
    · exact henable
  · exact { h with heldInReset := heldInReset_of_running hr }
  · exact { h with heldInReset := heldInReset_of_running hr }
  · exact { h with heldInReset := heldInReset_of_running hr }
  · exact h

theorem serve_keeps_inv (a : Access) : Inv (serve a s) := by
  have heff : Inv (accessEffect a s) := by
    unfold accessEffect
    split
    · exact writeReg_keeps_inv h hr _ _
    · exact h
  have hr' : (accessEffect a s).rstN = true := (accessEffect_host a s).1.trans hr
  exact { heff with heldInReset := heldInReset_of_running hr' }

theorem countOvertaking_keeps_inv : Inv (countOvertaking s) := by
  unfold countOvertaking
  split
  · exact { h with heldInReset := heldInReset_of_running hr }
  · exact h

theorem serveEvent_keeps_inv (e : HostEvent) : Inv (serveEvent e s) := by
  cases e with
  | access a => exact serve_keeps_inv (countOvertaking_keeps_inv h hr) ((countOvertaking_rstN s).trans hr) a
  | assertReset => exact resetBlock_inv { s with rstN := false }
  | releaseReset => exact h

end

end Sys2Proof.Machine
end

section
/-! SUPPORT. The invariant along a run, and what R49 says of every state that has it. -/
namespace Sys2Proof.Machine

theorem step_keeps_inv {s t : State} (h : Inv s) (ht : step s = .next t) : Inv t := by
  rcases step_cases ht with ⟨-, -, -, rfl⟩ | ⟨hr, e, rest, -, rfl⟩ | ⟨hr, w, -, hw⟩ | ⟨-, ht⟩
  · exact h
  · exact serveEvent_keeps_inv (s := { s with inbox := rest }) { h with heldInReset := heldInReset_of_running hr } hr e
  · exact completeWord_keeps_inv h hr hw
  · rcases ht with ⟨-, rfl⟩ | ⟨e, rest, -, ⟨-, rfl⟩ | ⟨-, rfl⟩⟩
    · exact resetBlock_inv s
    · exact resetBlock_inv { s with inbox := rest }
    · exact resetBlock_inv { s with inbox := rest, rstN := true }

theorem reset_inv (n : Nat) : Inv { State.reset with seed := n } :=
  resetBlock_inv { State.reset with seed := n }

theorem inv_of_reachable {s : State} (h : Reachable s) : Inv s := by
  induction h with
  | reset seed => exact reset_inv seed
  | step _ hstep ih => exact step_keeps_inv ih hstep
  | post e _ ih => exact post_keeps_inv ih e

/-- The numbers of the fault codes are 0x01 to 0x0B (60_exceptions.md R232). -/
theorem faultCode_number_bounds (c : FaultCode) : 0x01 ≤ c.number.toNat ∧ c.number.toNat ≤ 0x0B := by
  cases c <;> decide

theorem reachableInvariants_of_inv {s : State} (h : Inv s) : ReachableInvariants s where
  a hv := by
    obtain ⟨hgf, -, -, hg⟩ := h.generator hv
    exact ⟨hgf, currentField_of_inv h hgf ▸ hg⟩
  b hv := by
    obtain ⟨hp, hm, -⟩ := h.field hv
    refine ⟨gfM_bounds_of_inv h hv, ?_⟩
    rw [hm]
    exact degree_spec s.gfPoly (by have := (legalPoly_iff s.gfPoly).mp hp.1; omega)
  c hv := by
    obtain ⟨-, hn, hi, -⟩ := h.generator hv
    exact ⟨⟨hn, Nat.le_of_lt_succ s.rsNsym.isLt⟩, hi⟩
  d hs := by
    obtain ⟨hw, hc, hlen, -⟩ := h.packer hs
    exact ⟨hw, ⟨hc, Nat.le_of_lt_succ s.pkCap.isLt⟩, hlen⟩
  e := h.finished
  f := h.clear
  g hf := by
    obtain ⟨c, hc⟩ := h.recorded hf
    exact hc ▸ faultCode_number_bounds c
  h := by
    refine ⟨fun hv k => ⟨?_, alog_lt_of_inv h hv k⟩, fun hv k => ⟨?_, (h.remainder hv k).1⟩⟩
    · obtain ⟨hp, hm, hlog, -⟩ := h.field hv
      rw [hm, hlog]
      exact logTable_lt hp k
    · obtain ⟨hgf, -, -, hg⟩ := h.generator hv
      have hm : 1 ≤ s.gfM.toNat := by have := (gfM_bounds_of_inv h hgf).1; omega
      rw [hg]
      exact genPoly_lt (f := currentField s) hm (alog_lt_of_inv h hgf) s.rsNsym.isLt _ k

end Sys2Proof.Machine
end

section
/-! PROOFS. The statements of 10_state.md. -/
namespace Sys2Proof.Machine

/-- Settles O55, from the invariant of each move of the block and of the host. -/
theorem everyStepKeepsTheInvariant : Obligations.EveryStepKeepsTheInvariant :=
  fun _ _ h ht => step_keeps_inv h ht

/-- Settles O51, from the fields each effect writes; a discarded or faulting command writes none of them. -/
theorem flagsHaveOnlyTheirWriters : Obligations.FlagsHaveOnlyTheirWriters := by
  intro i s t h
  rw [exec_eq_command] at h
  rcases command_cases h with ⟨-, rfl⟩ | ⟨-, c, -, rfl⟩ | ⟨hf, hc, rfl⟩
  · exact ⟨.inl rfl, .inl rfl, .inl rfl, .inl rfl, fun _ => ⟨rfl, rfl, rfl, rfl⟩, rfl, rfl, rfl, rfl, rfl, rfl⟩
  · exact ⟨.inl rfl, .inl rfl, .inl rfl, .inl rfl, fun _ => ⟨rfl, rfl, rfl, rfl⟩, rfl, rfl, rfl, rfl, rfl, rfl⟩
  · have hf' : (effectOf i s).fault = false := (effectOf_keeps i s).1.trans hf
    refine ⟨?_, ?_, ?_, ?_, fun h' => absurd (hf'.symm.trans h') (by decide), effectOf_hostRegisters i s⟩
    · exact (effectOf_gfValid i s).imp id fun ⟨hv, hi⟩ => ⟨hv, hf', hi⟩
    · exact (effectOf_rsValid i s).imp id
        (.imp (fun ⟨hv, hi⟩ => ⟨hv, hf', hi⟩) fun ⟨hv, hg, hi⟩ => ⟨hv, hg, hf', hi⟩)
    · refine (effectOf_pkState i s).imp id (.imp (fun ⟨hv, hi⟩ => ⟨hv, hf', hi⟩) fun ⟨hv, hi⟩ => ?_)
      subst hi
      exact ⟨pkState_of_checkPkFinish hc, hv, hf', rfl⟩
    · exact (effectOf_result i s).imp id fun hi => ⟨hf', hi⟩

/-- Settles O56, from the stronger invariant that every step and every request keep. -/
theorem reachableStatesMeetTheInvariants : Obligations.ReachableStatesMeetTheInvariants :=
  fun _ h => reachableInvariants_of_inv (inv_of_reachable h)

/-- Settles O16, by the service of the access on an idle block. -/
theorem cmdWritePutsTheWordInFlight : Obligations.CmdWritePutsTheWordInFlight := by
  intro s v rest hr hp hi
  have hoff : (0x0010 : BitVec 15).toNat % 4 = 0 := by decide
  have hlegal : legal ⟨true, 0x0010, .word, v⟩ = true := (legal_iff _).mpr ⟨rfl, hoff⟩
  have hserve := serve_write { s with inbox := rest } hlegal rfl
  exact ⟨_, step_of_idle_access hr hp hi, congrArg busy hserve, hserve⟩

/-- Settles O19, bit by bit for the two register words. -/
theorem termAndFillStoreTheirFields : Obligations.TermAndFillStoreTheirFields := fun s v =>
  ⟨regWrite_pkTerm v s, regRead_regWrite_pkTerm v s, regWrite_pkFill v s, regRead_regWrite_pkFill v s⟩

/-- Settles O54: the reset state of any seed is the reset of a block. -/
theorem invariantHoldsAtReset : Obligations.InvariantHoldsAtReset := ⟨reset_inv 0, reset_inv⟩

end Sys2Proof.Machine
end

section
/-! SUPPORT. What the port does with an access by its kind, what each offset reads, and which offsets act on a write
(20_memory.md R62 to R68). -/
namespace Sys2Proof.Machine

/-! ### The service of an access that changes nothing -/

/-- A sub-word or misaligned access is answered by an error response (R62, R63). -/
theorem serve_illegal {a : Access} (s : State) (hl : legal a = false) :
    serve a s = { s with responses := s.responses ++ [.error] } := by
  have hresp : response a s = .error := by rw [response, hl]; rfl
  rw [serve, accessEffect_of_not_write (by rw [hl]; rfl), hresp]

/-- A legal read is answered by the register's value (R64, R67). -/
theorem serve_read {a : Access} (s : State) (hl : legal a = true) (hw : a.write = false) :
    serve a s = { s with responses := s.responses ++ [.data (regRead s a.addr)] } := by
  have hresp : response a s = .data (regRead s a.addr) := by rw [response, if_pos hl, hw]; rfl
  rw [serve, accessEffect_of_not_write (by rw [hw, Bool.and_false]), hresp]

theorem legal_eq_false_iff (a : Access) : legal a = false ↔ a.size ≠ .word ∨ a.addr.toNat % 4 ≠ 0 := by
  rw [← Bool.not_eq_true, legal_iff, not_and_or]

/-! ### An access that finds a command in flight -/

theorem countOvertaking_of_pending {s : State} {w : Word} (h : s.pending = some w) :
    countOvertaking s = { s with overtaken := s.overtaken + 1 } := by
  rw [countOvertaking, busy, h]; rfl

/-- The access at the head of the inbox is served ahead of the command in flight, or the command completes
(70_reset_and_hazards.md R265, R266). -/
theorem step_of_busy_access {s : State} {w : Word} {a : Access} {rest : List HostEvent} (hr : s.rstN = true)
    (hp : s.pending = some w) (hi : s.inbox = .access a :: rest) :
    step s = .next (serve a { s with inbox := rest, overtaken := s.overtaken + 1 }) ∨
    step s = completeWord w s := by
  rw [step, if_pos hr, runningStep]
  rcases nextMove_cases s with ⟨hnone, -, -⟩ | ⟨e, rest', hi', hmove, -⟩ | ⟨w', hp', hmove, -⟩
  · exact absurd (hnone.symm.trans hp) (Option.some_ne_none w).symm
  · obtain ⟨rfl, rfl⟩ := List.cons.inj (hi'.symm.trans hi)
    rw [hmove]
    exact .inl (congrArg (fun u => Host.Outcome.next (serve a u))
      (countOvertaking_of_pending (s := { s with inbox := rest' }) hp))
  · obtain rfl := Option.some.inj (hp'.symm.trans hp)
    rw [hmove]
    exact .inr rfl

/-! ### What a read returns -/

/-- No register shows the host's side of the port or the count of overtaking reads. -/
theorem regRead_hostSide (s : State) (off : BitVec 15) (ib : List HostEvent) (rs : List Response) (n : Nat) :
    regRead { s with inbox := ib, responses := rs, overtaken := n } off = regRead s off := by
  unfold regRead
  cases regAt off.toNat <;> rfl

/-- A read at an offset within the block's 32 KiB returns the register that stands there. -/
theorem regRead_ofNat (s : State) {off : Nat} {r : Reg} (hlt : off < 0x8000) (hr : regAt off = r) :
    regRead s (BitVec.ofNat 15 off) = readReg s r := by
  rw [regRead, BitVec.toNat_ofNat, Nat.mod_eq_of_lt hlt, hr]

theorem regRead_ctrl (s : State) : regRead s 0x0008 = if s.irqEn then 1 else 0 := by
  show (flag s.irqEn).setWidth 32 = _
  cases s.irqEn <;> rfl

theorem tableWin_toNat (valid : Bool) (t : Table) (k : Nat) :
    (tableWin valid t k).toNat = if valid then (t.get k).toNat else 0 := by
  unfold tableWin
  split
  · exact BitVec.toNat_setWidth_of_le (by decide)
  · rfl

theorem eccWin_toNat (s : State) (j : Nat) :
    (eccWin s j).toNat =
      if s.rsValid ∧ j < s.rsNsym.toNat then (s.r.get (s.rsNsym.toNat - 1 - j)).toNat else 0 := by
  unfold eccWin
  split
  · exact BitVec.toNat_setWidth_of_le (by decide)
  · rfl

/-- The two reserved ranges of the map: above the named registers, and between the ECC and CW windows
(10_state.md R23, R50). -/
theorem regAt_reserved {off : Nat} (h : (0x0044 ≤ off ∧ off ≤ 0x03FC) ∨ (0x1800 ≤ off ∧ off ≤ 0x3FFC)) :
    regAt off = .reserved := by
  unfold regAt
  split_ifs <;> try omega
  · split
    case h_18 => rfl
    all_goals omega
  · rfl

/-! ### Which offsets act on a write -/

/-- Each of the four registers that act stands at its one offset (10_state.md R23). -/
theorem offset_of_acting_reg (off : Nat) :
    (regAt off = .ctrl → off = 0x0008) ∧ (regAt off = .cmd → off = 0x0010) ∧
    (regAt off = .pkTerm → off = 0x003C) ∧ (regAt off = .pkFill → off = 0x0040) := by
  unfold regAt
  split_ifs
  case pos => split <;> simp
  all_goals simp

/-- A write anywhere else changes nothing (20_memory.md R65, R68). -/
theorem regWrite_of_inert {off : BitVec 15} (v : Word) (s : State) (hctrl : off ≠ 0x0008) (hcmd : off ≠ 0x0010)
    (hterm : off ≠ 0x003C) (hfill : off ≠ 0x0040) : regWrite off v s = s := by
  obtain ⟨octrl, ocmd, oterm, ofill⟩ := offset_of_acting_reg off.toNat
  rcases writeReg_cases (regAt off.toNat) v s with ⟨h, -⟩ | ⟨h, -⟩ | ⟨h, -⟩ | ⟨h, -⟩ | h
  · exact absurd (BitVec.eq_of_toNat_eq (octrl h)) hctrl
  · exact absurd (BitVec.eq_of_toNat_eq (ocmd h)) hcmd
  · exact absurd (BitVec.eq_of_toNat_eq (oterm h)) hterm
  · exact absurd (BitVec.eq_of_toNat_eq (ofill h)) hfill
  · exact h

end Sys2Proof.Machine
end

section
/-! PROOFS. The statements of 20_memory.md. -/
namespace Sys2Proof.Machine

/-- Settles O14: a read is served at once or ahead of the command in flight, and only ever adds its response. -/
theorem readsHaveNoSideEffect : Obligations.ReadsHaveNoSideEffect := by
  intro s off wd rest hr hi hoff
  have hlegal : legal ⟨false, off, .word, wd⟩ = true := (legal_iff _).mpr ⟨rfl, hoff⟩
  refine ⟨fun hp => ?_, fun w hp => ?_, regRead_hostSide s⟩
  · rw [step_of_idle_access hr hp hi, serve_read _ hlegal rfl, regRead_hostSide s off rest s.responses s.overtaken]
  · refine (step_of_busy_access hr hp hi).imp (fun h => ?_) id
    rw [h, serve_read _ hlegal rfl, regRead_hostSide s off rest s.responses (s.overtaken + 1)]

/-- Settles O15, by the service of a legal write and the four offsets that act on one. -/
theorem onlyFourRegistersActOnAWrite : Obligations.OnlyFourRegistersActOnAWrite := by
  intro s off v rest hr hp hi hoff
  have hlegal : legal ⟨true, off, .word, v⟩ = true := (legal_iff _).mpr ⟨rfl, hoff⟩
  have hstep := (step_of_idle_access hr hp hi).trans (congrArg _ (serve_write _ hlegal rfl))
  refine ⟨hstep, fun hctrl hcmd hterm hfill => ?_⟩
  rw [hstep, regWrite_of_inert v _ hctrl hcmd hterm hfill]

/-- Settles O17, register by register and window by window of the map. -/
theorem registerReadsFollowTheMap : Obligations.RegisterReadsFollowTheMap := by
  intro s pk
  have hwide {n : Nat} (x : BitVec n) (h : n ≤ 32) : (x.setWidth 32).toNat = x.toNat :=
    BitVec.toNat_setWidth_of_le h
  refine ⟨rfl, rfl, regRead_ctrl s, rfl, rfl, rfl, hwide s.result (by decide), hwide s.gfPoly (by decide),
    hwide s.gfM (by decide), hwide s.rsNsym (by decide), hwide s.rsIndex (by decide), rfl, hwide s.pkW (by decide),
    hwide s.pkCap (by decide), hwide s.pkLen (by decide), rfl, rfl, fun k hk => ⟨?_, ?_, ?_, ?_, ?_⟩, fun i hi => ?_,
    fun off _ h => congrArg (readReg s) (regAt_reserved h)⟩
  · rw [regRead_ofNat s (by omega) (regAt_logWin hk)]; exact tableWin_toNat s.gfValid s.log k
  · rw [regRead_ofNat s (by omega) (regAt_alogWin hk)]; exact tableWin_toNat s.gfValid s.alog k
  · rw [regRead_ofNat s (by omega) (regAt_gWin hk)]; exact tableWin_toNat s.rsValid s.g k
  · rw [regRead_ofNat s (by omega) (regAt_rWin hk)]; exact tableWin_toNat s.rsValid s.r k
  · rw [regRead_ofNat s (by omega) (regAt_eccWin hk)]; exact eccWin_toNat s k
  · exact regRead_ofNat s (by omega) (regAt_cwWin hi)

/-- Settles O13, by the service of an access that is not legal. -/
theorem illegalAccessGetsAnErrorResponse : Obligations.IllegalAccessGetsAnErrorResponse := by
  refine ⟨fun s a rest hr hp hi hbad => ?_, rfl, rfl⟩
  rw [step_of_idle_access hr hp hi, serve_illegal _ ((legal_eq_false_iff a).mpr hbad)]

end Sys2Proof.Machine
end

section
/-! SUPPORT. The decoder and the encoder (30_encoding.md R90 to R103): a command's word as a number, what puts a word on
a row, the command that a row and a word's fields give, and that a word decodes to a command exactly when it is that
command's word. -/
namespace Sys2Proof.Machine

/-! ### A command's word as a number -/

/-- The number that the format of a command builds from its OPC and its operands, the reserved bits 0 (R92 to R99). -/
def formatNumber : Instr → Nat
  | .nop => 0x00 * 2 ^ 24
  | .gfInit poly => 0x01 * 2 ^ 24 + poly.toNat
  | .gfMul a b => 0x02 * 2 ^ 24 + a.toNat * 2 ^ 8 + b.toNat
  | .gfAdd a b => 0x03 * 2 ^ 24 + a.toNat * 2 ^ 8 + b.toNat
  | .rsInit nsym index => 0x10 * 2 ^ 24 + index.toNat * 2 ^ 8 + nsym.toNat
  | .rsClear => 0x11 * 2 ^ 24
  | .rsFeed d => 0x12 * 2 ^ 24 + d.toNat
  | .rsFeedcw start count => 0x13 * 2 ^ 24 + start.toNat * 2 ^ 12 + count.toNat
  | .pkInit w cap => 0x20 * 2 ^ 24 + w.toNat * 2 ^ 20 + cap.toNat
  | .pkAppend nm1 val => 0x21 * 2 ^ 24 + nm1.toNat * 2 ^ 16 + val.toNat
  | .pkFinish => 0x22 * 2 ^ 24

/-- A number below 2^k put under a multiple of 2^k: the bits of the two together are their sum. -/
theorem shiftLeft_or_eq_add {b k : Nat} (a : Nat) (h : b < 2 ^ k) : a <<< k ||| b = a * 2 ^ k + b := by
  rw [← Nat.shiftLeft_add_eq_or_of_lt h, Nat.shiftLeft_eq]

/-- Two bit vectors side by side as one number. -/
theorem toNat_append_eq_add {m n : Nat} (x : BitVec m) (y : BitVec n) :
    (x ++ y).toNat = x.toNat * 2 ^ n + y.toNat := by
  rw [BitVec.toNat_append, shiftLeft_or_eq_add _ y.isLt]

/-- The word of a command is the number of its format. -/
theorem encode_toNat (i : Instr) : (encode i).toNat = formatNumber i := by
  cases i <;> simp only [encode, formatNumber, toNat_append_eq_add, BitVec.toNat_ofNat] <;> omega

/-! ### Rows of the opcode map -/

/-- Every command's word lies on the command's row (R101). -/
theorem encode_and_mask (i : Instr) : encode i &&& (rowOf i).mask = (rowOf i).code := by
  refine beq_iff_eq.mp (?_ : Laws.EncodingMatchesRow.Statement i)
  cases i with
  | nop => exact Laws.EncodingMatchesRow.nop
  | gfInit poly => exact Laws.EncodingMatchesRow.gfInit poly
  | gfMul a b => exact Laws.EncodingMatchesRow.gfMul a b
  | gfAdd a b => exact Laws.EncodingMatchesRow.gfAdd a b
  | rsInit nsym index => exact Laws.EncodingMatchesRow.rsInit nsym index
  | rsClear => exact Laws.EncodingMatchesRow.rsClear
  | rsFeed d => exact Laws.EncodingMatchesRow.rsFeed d
  | rsFeedcw start count => exact Laws.EncodingMatchesRow.rsFeedcw start count
  | pkInit w cap => exact Laws.EncodingMatchesRow.pkInit w cap
  | pkAppend nm1 val => exact Laws.EncodingMatchesRow.pkAppend nm1 val
  | pkFinish => exact Laws.EncodingMatchesRow.pkFinish

/-- The row of each command is one of the opcode map's. -/
theorem rowOf_mem_opcodeMap (i : Instr) : ((rowOf i).code, (rowOf i).mask) ∈ opcodeMap := by
  cases i <;> simp [rowOf, opcodeMap]

/-- Every mask of the opcode map covers OPC. -/
theorem opcField_mask : ∀ row ∈ opcodeMap, opcField row.2 = BitVec.allOnes 8 := by
  simp [opcodeMap, opcField]

/-- A word on a row has the row's OPC. -/
theorem opcField_of_row {code mask w : Word} (hrow : (code, mask) ∈ opcodeMap) (h : w &&& mask = code) :
    opcField w = opcField code := by
  have hones : opcField mask = BitVec.allOnes 8 := opcField_mask (code, mask) hrow
  unfold opcField at hones ⊢
  rw [← h, BitVec.extractLsb'_and, hones, BitVec.and_allOnes]

/-- No two rows have one OPC. -/
theorem opcodeMap_opcField_ne : opcodeMap.Pairwise fun a b => opcField a.1 ≠ opcField b.1 := by
  simp [opcodeMap, opcField]

/-- The OPCs between the groups of rows and past the last one are on no row (R102). -/
theorem opcodeMap_assigned : ∀ row ∈ opcodeMap,
    ¬((0x04 ≤ (opcField row.1).toNat ∧ (opcField row.1).toNat ≤ 0x0F) ∨
      (0x14 ≤ (opcField row.1).toNat ∧ (opcField row.1).toNat ≤ 0x1F) ∨ 0x23 ≤ (opcField row.1).toNat) := by
  simp [opcodeMap, opcField]

/-! ### The operand fields -/

/-- The command of i's row whose operands are the fields of the word w. -/
def operandsFrom (w : Word) : Instr → Instr
  | .nop => .nop
  | .gfInit _ => .gfInit (w.extractLsb' 0 16)
  | .gfMul _ _ => .gfMul (w.extractLsb' 8 8) (w.extractLsb' 0 8)
  | .gfAdd _ _ => .gfAdd (w.extractLsb' 8 8) (w.extractLsb' 0 8)
  | .rsInit _ _ => .rsInit (w.extractLsb' 0 8) (w.extractLsb' 8 8)
  | .rsClear => .rsClear
  | .rsFeed _ => .rsFeed (w.extractLsb' 0 8)
  | .rsFeedcw _ _ => .rsFeedcw (w.extractLsb' 12 12) (w.extractLsb' 0 12)
  | .pkInit _ _ => .pkInit (w.extractLsb' 20 4) (w.extractLsb' 0 12)
  | .pkAppend _ _ => .pkAppend (w.extractLsb' 16 4) (w.extractLsb' 0 16)
  | .pkFinish => .pkFinish

@[simp] theorem rowOf_operandsFrom (w : Word) (i : Instr) : rowOf (operandsFrom w i) = rowOf i := by
  cases i <;> rfl

/-- The decoder reads the fields of the row that OPC names. -/
theorem readFields_of_opcField {w : Word} (i : Instr) (h : opcField w = opcField (rowOf i).code) :
    readFields w = some (operandsFrom w i) := by
  cases i <;> (simp only [rowOf] at h; rw [readFields, h]; rfl)

theorem extractLsb'_eq_of_toNat {n k : Nat} {w : Word} {v : BitVec n} (h : w.toNat / 2 ^ k % 2 ^ n = v.toNat) :
    w.extractLsb' k n = v := by
  apply BitVec.eq_of_toNat_eq
  rw [BitVec.extractLsb'_toNat, Nat.shiftRight_eq_div_pow, h]

/-- No operand bit of a command's word is dropped or moved (R92 to R99). -/
theorem operandsFrom_encode (i : Instr) : operandsFrom (encode i) i = i := by
  have hnum := encode_toNat i
  cases i with
  | nop | rsClear | pkFinish => rfl
  | gfInit _ | rsFeed _ =>
    simp only [formatNumber] at hnum
    exact congrArg _ (extractLsb'_eq_of_toNat (by omega))
  | gfMul _ _ | gfAdd _ _ | rsInit _ _ | rsFeedcw _ _ | pkInit _ _ | pkAppend _ _ =>
    simp only [formatNumber] at hnum
    exact congrArg₂ _ (extractLsb'_eq_of_toNat (by omega)) (extractLsb'_eq_of_toNat (by omega))

/-- The word built from the fields of w is w with the row's match in the bits that the mask covers. -/
theorem encode_operandsFrom (w : Word) (i : Instr) :
    encode (operandsFrom w i) = (rowOf i).code ||| (w &&& ~~~(rowOf i).mask) := by
  cases i <;>
  · refine BitVec.eq_of_getLsbD_eq fun k hk => ?_
    simp only [encode, operandsFrom, rowOf, BitVec.getLsbD_or, BitVec.getLsbD_and, BitVec.getLsbD_not,
      BitVec.getLsbD_append]
    interval_cases k <;> simp

/-- A word on a row is the word of the row's command with the word's fields. -/
theorem encode_operandsFrom_of_row {w : Word} {i : Instr} (h : w &&& (rowOf i).mask = (rowOf i).code) :
    encode (operandsFrom w i) = w := by
  rw [encode_operandsFrom, ← h, ← BitVec.and_or_distrib_left, BitVec.or_not_self, BitVec.and_allOnes]

/-! ### Decoding -/

theorem decode_eq_ok_iff_readFields {w : Word} {i : Instr} :
    decode w = .ok i ↔ readFields w = some i ∧ w &&& (rowOf i).mask = (rowOf i).code := by
  unfold decode
  cases readFields w with
  | none => simp
  | some j =>
    simp only [Option.some.injEq]
    split
    · rename_i hrow
      refine ⟨fun h => ?_, fun ⟨h, _⟩ => h ▸ rfl⟩
      cases h
      exact ⟨rfl, beq_iff_eq.mp hrow⟩
    · rename_i hrow
      exact ⟨fun h => absurd h nofun, fun ⟨h, hi⟩ => absurd (h ▸ beq_iff_eq.mpr hi) hrow⟩

/-- A word on a row decodes to that row's command with the word's fields. -/
theorem decode_of_row {w : Word} (i : Instr) (h : w &&& (rowOf i).mask = (rowOf i).code) :
    decode w = .ok (operandsFrom w i) :=
  decode_eq_ok_iff_readFields.mpr
    ⟨readFields_of_opcField i (opcField_of_row (rowOf_mem_opcodeMap i) h), by rwa [rowOf_operandsFrom]⟩

/-- A word that decodes lies on the row of its command (R101). -/
theorem and_mask_of_decode {w : Word} {i : Instr} (h : decode w = .ok i) :
    w &&& (rowOf i).mask = (rowOf i).code :=
  (decode_eq_ok_iff_readFields.mp h).2

theorem decode_encode (i : Instr) : decode (encode i) = .ok i := by
  rw [decode_of_row i (encode_and_mask i), operandsFrom_encode]

theorem encode_of_decode {w : Word} {i : Instr} (h : decode w = .ok i) : encode i = w := by
  have hrow := and_mask_of_decode h
  have hfields : operandsFrom w i = i := Except.ok.inj ((decode_of_row i hrow).symm.trans h)
  rw [← hfields, encode_operandsFrom_of_row hrow]

/-- A word decodes to a command exactly when it is the number of the command's format. -/
theorem decode_eq_ok_iff_toNat {w : Word} {i : Instr} : decode w = .ok i ↔ w.toNat = formatNumber i := by
  rw [← encode_toNat]
  exact ⟨fun h => congrArg _ (encode_of_decode h).symm, fun h => by rw [BitVec.eq_of_toNat_eq h, decode_encode]⟩

/-- A word that lies on no row is no command (R102, R103). -/
theorem decode_error_of_no_row {w : Word} (h : ∀ row ∈ opcodeMap, w &&& row.2 ≠ row.1) :
    ∃ r, decode w = .error r := by
  cases hd : decode w with
  | error r => exact ⟨r, rfl⟩
  | ok i => exact absurd (and_mask_of_decode hd) (h _ (rowOf_mem_opcodeMap i))

end Sys2Proof.Machine
end

section
/-! SUPPORT. The assembler (30_encoding.md R106): what it refuses, and the word of what it accepts. -/
namespace Sys2Proof.Machine

/-- The command a line stands for when its operands fit. -/
def commandOf : Asm → Instr
  | .nop => .nop
  | .gfInit poly => .gfInit (BitVec.ofNat 16 poly)
  | .gfMul a b => .gfMul (BitVec.ofNat 8 a) (BitVec.ofNat 8 b)
  | .gfAdd a b => .gfAdd (BitVec.ofNat 8 a) (BitVec.ofNat 8 b)
  | .rsInit nsym index => .rsInit (BitVec.ofNat 8 nsym) (BitVec.ofNat 8 index)
  | .rsClear => .rsClear
  | .rsFeed d => .rsFeed (BitVec.ofNat 8 d)
  | .rsFeedcw start count => .rsFeedcw (BitVec.ofNat 12 start) (BitVec.ofNat 12 count)
  | .pkInit w cap => .pkInit (BitVec.ofNat 4 w) (BitVec.ofNat 12 cap)
  | .pkAppend n val => .pkAppend (BitVec.ofNat 4 (n - 1)) (BitVec.ofNat 16 val)
  | .pkFinish => .pkFinish

/-- Every operand of a line fits its field, n within 1..16. -/
def operandsFit : Asm → Prop
  | .nop => True
  | .gfInit poly => poly ≤ 0xFFFF
  | .gfMul a b => a ≤ 0xFF ∧ b ≤ 0xFF
  | .gfAdd a b => a ≤ 0xFF ∧ b ≤ 0xFF
  | .rsInit nsym index => nsym ≤ 0xFF ∧ index ≤ 0xFF
  | .rsClear => True
  | .rsFeed d => d ≤ 0xFF
  | .rsFeedcw start count => start ≤ 0xFFF ∧ count ≤ 0xFFF
  | .pkInit w cap => w ≤ 0xF ∧ cap ≤ 0xFFF
  | .pkAppend n val => 1 ≤ n ∧ n ≤ 16 ∧ val ≤ 0xFFFF
  | .pkFinish => True

theorem wellFormed_iff (a : Asm) : a.wellFormed = true ↔ operandsFit a := by
  cases a <;> simp [Asm.wellFormed, operandsFit, and_assoc]

/-- The assembler refuses a line with an operand that does not fit. -/
theorem assemble_of_not_fit (a : Asm) (h : ¬operandsFit a) : assemble a = none := by
  have hwf : a.wellFormed = false := Bool.eq_false_iff.mpr (mt (wellFormed_iff a).mp h)
  simp [assemble, hwf]

theorem assemble_of_fit (a : Asm) (h : operandsFit a) : assemble a = some (commandOf a) := by
  have hwf : a.wellFormed = true := (wellFormed_iff a).mpr h
  cases a <;> simp [assemble, hwf, commandOf]

/-- The word of a line as R106's table writes it, from the operands as they stand in the line. -/
def lineNumber : Asm → Nat
  | .nop => 0x00000000
  | .gfInit poly => 0x01 <<< 24 ||| poly
  | .gfMul a b => 0x02 <<< 24 ||| a <<< 8 ||| b
  | .gfAdd a b => 0x03 <<< 24 ||| a <<< 8 ||| b
  | .rsInit nsym index => 0x10 <<< 24 ||| index <<< 8 ||| nsym
  | .rsClear => 0x11000000
  | .rsFeed d => 0x12 <<< 24 ||| d
  | .rsFeedcw start count => 0x13 <<< 24 ||| start <<< 12 ||| count
  | .pkInit w cap => 0x20 <<< 24 ||| w <<< 20 ||| cap
  | .pkAppend n val => 0x21 <<< 24 ||| (n - 1) <<< 16 ||| val
  | .pkFinish => 0x22000000

/-- R106 writes a word of two operands as its parts or-ed together; they do not overlap, so this is their sum. -/
theorem shiftLeft_or_or_eq_add {mid lo p q : Nat} (hi : Nat) (hmid : mid * 2 ^ q + lo < 2 ^ p) (hlo : lo < 2 ^ q) :
    hi <<< p ||| mid <<< q ||| lo = hi * 2 ^ p + mid * 2 ^ q + lo := by
  rw [Nat.or_assoc, shiftLeft_or_eq_add mid hlo, shiftLeft_or_eq_add hi hmid, Nat.add_assoc]

/-- Operands that fit are the numbers in the command's fields, so the table's word is the number of the format. -/
theorem formatNumber_commandOf (a : Asm) (h : operandsFit a) : formatNumber (commandOf a) = lineNumber a := by
  cases a with
  | nop | rsClear | pkFinish => rfl
  | gfInit _ | rsFeed _ =>
    simp only [operandsFit] at h
    simp only [commandOf, formatNumber, lineNumber, BitVec.toNat_ofNat]
    rw [shiftLeft_or_eq_add _ (by omega)]
    omega
  | gfMul _ _ | gfAdd _ _ | rsInit _ _ | rsFeedcw _ _ | pkInit _ _ | pkAppend _ _ =>
    simp only [operandsFit] at h
    simp only [commandOf, formatNumber, lineNumber, BitVec.toNat_ofNat]
    rw [shiftLeft_or_or_eq_add _ (by omega) (by omega)]
    omega

/-- The assembler gives a line whose operands fit the word of the table. -/
theorem encode_of_fit (a : Asm) (h : operandsFit a) :
    ∃ i, assemble a = some i ∧ (encode i).toNat = lineNumber a :=
  ⟨_, assemble_of_fit a h, (encode_toNat _).trans (formatNumber_commandOf a h)⟩

end Sys2Proof.Machine
end

section
/-! SUPPORT. What PK_APPEND does when its bits fit (40_packer.md R124), and the step that completes the command in
flight (70_reset_and_hazards.md R266). -/
namespace Sys2Proof.Machine

/-- With a command in flight and nothing at the head of the inbox that does not wait for it, the step completes it. -/
theorem step_of_pending {s : State} {w : Word} (hr : s.rstN = true) (hp : s.pending = some w)
    (hi : s.inbox = [] ∨ ∃ a rest, s.inbox = .access a :: rest ∧ overtakes a = false) :
    step s = completeWord w s := by
  have hmove : nextMove s = .complete w := by
    rcases hi with hi | ⟨a, rest, hi, ha⟩
    · simp only [nextMove, hp, hi]
    · simp [nextMove, hp, hi, ha]
  rw [step, if_pos hr, runningStep, hmove]

/-- The n bits of a number x appended by one PK_APPEND to an open packer with room for them. -/
theorem exec_pkAppend_of_fits {s : State} {n x : Nat} (h1 : 1 ≤ n) (h16 : n ≤ 16) (hf : s.fault = false)
    (ho : s.pkState = .open) (hw : s.pkW.toNat ≤ 8) (hfit : s.pkLen.toNat + n ≤ totalBits s) :
    ∃ t, exec (.pkAppend (BitVec.ofNat 4 (n - 1)) (BitVec.ofNat 16 x)) s = .next t ∧
      t.fault = false ∧ t.pkState = .open ∧ t.pkW = s.pkW ∧ t.pkCap = s.pkCap ∧
      t.pkLen.toNat = s.pkLen.toNat + n ∧
      (∀ i, i < s.pkLen.toNat → t.bb.getLsbD i = s.bb.getLsbD i) ∧
      ∀ k, k < n → t.bb.getLsbD (s.pkLen.toNat + k) = x.testBit (n - 1 - k) := by
  have hn : appendLength (BitVec.ofNat 4 (n - 1)) = n := by
    rw [appendLength, BitVec.toNat_ofNat]
    omega
  have hfit' : s.pkLen.toNat + appendLength (BitVec.ofNat 4 (n - 1)) ≤ totalBits s := by rwa [hn]
  have hcheck := (checkPkAppend_eq_none_iff (BitVec.ofNat 4 (n - 1)) s).mpr ⟨ho, hfit'⟩
  have hT := totalBits_le s hw
  refine ⟨_, (exec_eq_command _ s).trans (command_passes hf hcheck), hf, ho, rfl, rfl, ?_, fun i hi => ?_,
    fun k hk => ?_⟩
  · exact (effectPkAppend_length _ (BitVec.ofNat 16 x) s hw hfit').trans (by rw [hn])
  · exact (effectPkAppend_bit _ _ s i).trans (if_neg (by omega))
  · refine (effectPkAppend_bit _ _ s _).trans ((if_pos (by omega)).trans ?_)
    rw [hn, Nat.add_sub_cancel_left, patternBit, BitVec.getLsbD_ofNat, decide_eq_true (by omega), Bool.true_and]

end Sys2Proof.Machine
end

section
/-! PROOFS. The statements of 30_encoding.md. -/
namespace Sys2Proof.Machine

/-- Settles O1: a command's word lies on the command's row, and the fields read from it are the operands. -/
theorem decodeOfEncodeIsTheCommand : Obligations.DecodeOfEncodeIsTheCommand := decode_encode

/-- Settles O2: the row gives the bits the mask covers, the fields the others. -/
theorem encodeOfDecodeIsTheWord : Obligations.EncodeOfDecodeIsTheWord := fun _ _ => encode_of_decode

/-- Settles O3, from the number of each command's format. -/
theorem fieldsStandWhereTheFormatsPutThem : Obligations.FieldsStandWhereTheFormatsPutThem := fun _ =>
  ⟨decode_eq_ok_iff_toNat, fun _ => decode_eq_ok_iff_toNat, fun _ _ => decode_eq_ok_iff_toNat,
    fun _ _ => decode_eq_ok_iff_toNat, fun _ _ => decode_eq_ok_iff_toNat, decode_eq_ok_iff_toNat,
    fun _ => decode_eq_ok_iff_toNat, fun _ _ => decode_eq_ok_iff_toNat, fun _ _ => decode_eq_ok_iff_toNat,
    fun _ _ => decode_eq_ok_iff_toNat, decode_eq_ok_iff_toNat⟩

/-- Settles O4: a word on a row decodes to that row's command, and a word on two rows would have two OPCs. -/
theorem wordIsACommandExactlyWhenItsRowMatches : Obligations.WordIsACommandExactlyWhenItsRowMatches := by
  refine ⟨fun w =>
    ⟨⟨decode_of_row .nop, and_mask_of_decode⟩,
      ⟨fun h => ⟨_, decode_of_row (.gfInit 0) h⟩, fun ⟨_, h⟩ => and_mask_of_decode h⟩,
      ⟨fun h => ⟨_, _, decode_of_row (.gfMul 0 0) h⟩, fun ⟨_, _, h⟩ => and_mask_of_decode h⟩,
      ⟨fun h => ⟨_, _, decode_of_row (.gfAdd 0 0) h⟩, fun ⟨_, _, h⟩ => and_mask_of_decode h⟩,
      ⟨fun h => ⟨_, _, decode_of_row (.rsInit 0 0) h⟩, fun ⟨_, _, h⟩ => and_mask_of_decode h⟩,
      ⟨decode_of_row .rsClear, and_mask_of_decode⟩,
      ⟨fun h => ⟨_, decode_of_row (.rsFeed 0) h⟩, fun ⟨_, h⟩ => and_mask_of_decode h⟩,
      ⟨fun h => ⟨_, _, decode_of_row (.rsFeedcw 0 0) h⟩, fun ⟨_, _, h⟩ => and_mask_of_decode h⟩,
      ⟨fun h => ⟨_, _, decode_of_row (.pkInit 0 0) h⟩, fun ⟨_, _, h⟩ => and_mask_of_decode h⟩,
      ⟨fun h => ⟨_, _, decode_of_row (.pkAppend 0 0) h⟩, fun ⟨_, _, h⟩ => and_mask_of_decode h⟩,
      ⟨decode_of_row .pkFinish, and_mask_of_decode⟩⟩, ?_⟩
  refine List.Pairwise.imp_of_mem (fun ha hb hne w ⟨h, h'⟩ => ?_) opcodeMap_opcField_ne
  exact hne ((opcField_of_row ha h).symm.trans (opcField_of_row hb h'))

/-- Settles O6: a word on a row has an assigned OPC, and a word on no row runs as the illegal command. -/
theorem illegalWordRaisesIllegalCmd : Obligations.IllegalWordRaisesIllegalCmd := by
  refine ⟨fun w hopc row hrow h => ?_, fun w s hno hr hp hf hi => ?_⟩
  · have hw : (w >>> 24).toNat = (opcField w).toNat := by
      rw [opcField, BitVec.extractLsb'_toNat, BitVec.toNat_ushiftRight]
      omega
    rw [hw, opcField_of_row hrow h] at hopc
    exact opcodeMap_assigned row hrow hopc
  · obtain ⟨r, hd⟩ := decode_error_of_no_row hno
    rw [step_of_pending hr hp hi, completeWord, hd]
    exact command_faults (check := fun _ => some .illegalCmd) hf rfl

/-- Settles O7, line by line: the words without operands are closed. -/
theorem assemblerRefusesWhatDoesNotFit : Obligations.AssemblerRefusesWhatDoesNotFit := by
  refine ⟨fun poly => ⟨fun h => assemble_of_not_fit (.gfInit poly) (Nat.not_le.mpr h), encode_of_fit (.gfInit poly)⟩,
    fun a b => ⟨fun h => ⟨assemble_of_not_fit (.gfMul a b) ?_, assemble_of_not_fit (.gfAdd a b) ?_⟩,
      fun ha hb => ⟨encode_of_fit (.gfMul a b) ⟨ha, hb⟩, encode_of_fit (.gfAdd a b) ⟨ha, hb⟩⟩⟩,
    fun nsym index => ⟨fun h => assemble_of_not_fit (.rsInit nsym index) ?_,
      fun hn hi => encode_of_fit (.rsInit nsym index) ⟨hn, hi⟩⟩,
    fun d => ⟨fun h => assemble_of_not_fit (.rsFeed d) (Nat.not_le.mpr h), encode_of_fit (.rsFeed d)⟩,
    fun start count => ⟨fun h => assemble_of_not_fit (.rsFeedcw start count) ?_,
      fun hs hc => encode_of_fit (.rsFeedcw start count) ⟨hs, hc⟩⟩,
    fun w cap => ⟨fun h => assemble_of_not_fit (.pkInit w cap) ?_,
      fun hw hc => encode_of_fit (.pkInit w cap) ⟨hw, hc⟩⟩,
    fun n val => ⟨fun h => assemble_of_not_fit (.pkAppend n val) ?_,
      fun h1 h16 hv => encode_of_fit (.pkAppend n val) ⟨h1, h16, hv⟩⟩,
    ⟨.nop, rfl, rfl⟩, ⟨.rsClear, rfl, rfl⟩, ⟨.pkFinish, rfl, rfl⟩⟩ <;>
  · simp only [operandsFit]
    omega

/-- Settles O47: the two appends of the expansion, one after the other. -/
theorem pkValueAppendsItsBits : Obligations.PkValueAppendsItsBits := by
  intro s n v hlo hhi hv hf ho hw hfit
  have hhigh : v >>> 16 ≤ 0xFFFF := by
    have := Nat.pow_le_pow_right (n := 2) (by decide) hhi
    rw [Nat.shiftRight_eq_div_pow]
    omega
  obtain ⟨t, ht, htf, hto, htw, htc, htl, -, htb⟩ :=
    exec_pkAppend_of_fits (x := v >>> 16) (by omega : 1 ≤ n - 16) (by omega) hf ho hw (by unfold totalBits; omega)
  obtain ⟨u, hu, huf, -, -, -, hul, hukeep, hub⟩ :=
    exec_pkAppend_of_fits (x := v &&& 0xFFFF) (by omega : 1 ≤ 16) le_rfl htf hto (htw ▸ hw)
      (by rw [totalBits, htw, htc, htl]; omega)
  refine ⟨.pkAppend (n - 16) (v >>> 16), .pkAppend 16 (v &&& 0xFFFF), _, _, t, u, ?_, ?_, ?_, ht, hu, huf, ?_,
    fun k hk => ?_⟩
  · rw [expand, if_neg (by omega), if_neg (by omega)]
  · exact assemble_of_fit (.pkAppend (n - 16) (v >>> 16)) ⟨by omega, by omega, hhigh⟩
  · exact assemble_of_fit (.pkAppend 16 (v &&& 0xFFFF)) ⟨by omega, le_rfl, Nat.and_le_right⟩
  · omega
  · by_cases hk' : k < n - 16
    · rw [hukeep _ (by omega), htb k hk', Nat.testBit_shiftRight]
      congr 1
      omega
    · obtain ⟨m, rfl⟩ : ∃ m, k = n - 16 + m := ⟨k - (n - 16), by omega⟩
      have hm : m < 16 := by omega
      rw [← Nat.add_assoc, ← htl, hub m hm, show (0xFFFF : Nat) = 2 ^ 16 - 1 from rfl,
        Nat.and_two_pow_sub_one_eq_mod, Nat.testBit_mod_two_pow, decide_eq_true (by omega), Bool.true_and]
      congr 1
      omega

/-- Settles O5: each word is the one the encoder builds, so it decodes to its command. -/
theorem workedEncodingsDecode : Obligations.WorkedEncodingsDecode :=
  ⟨⟨rfl, decode_encode (.gfInit 0x11D)⟩, ⟨rfl, decode_encode (.gfMul 2 0x80)⟩, ⟨rfl, decode_encode (.rsInit 10 0)⟩,
    ⟨rfl, decode_encode (.rsFeedcw 0 16)⟩, ⟨rfl, decode_encode (.pkInit 8 16)⟩,
    ⟨rfl, decode_encode (.pkAppend 3 0b0010)⟩, ⟨rfl, decode_encode (.pkAppend 15 0xEC11)⟩,
    ⟨rfl, decode_encode .pkFinish⟩⟩

end Sys2Proof.Machine
end

section
/-! SUPPORT. How a command ends when no fault is recorded (60_exceptions.md R234, R235), which checks of the packer
pass, and the bits of a codeword (40_packer.md R128). -/
namespace Sys2Proof.Machine

/-! ### How a command ends -/

/-- The first failing check of a command enters its fault: the record, completion and nothing else. -/
theorem exec_of_check_some (i : Instr) {s : State} {c : FaultCode} (hf : s.fault = false)
    (hc : checkOf i s = some c) : exec i s = .next (faultEntry c.number (encode i) s) :=
  (exec_eq_command i s).trans (command_faults hf hc)

/-- A command whose checks pass has its effect and completes. -/
theorem exec_of_check_none (i : Instr) {s : State} (hf : s.fault = false) (hc : checkOf i s = none) :
    exec i s = .next (complete (effectOf i s)) :=
  (exec_eq_command i s).trans (command_passes hf hc)

/-- NOP has no check and no effect, so discarded or not it completes and does nothing else (43_control.md R210). -/
theorem exec_nop (s : State) : exec .nop s = .next (complete s) := by
  cases hf : s.fault with
  | true => exact command_discarded hf
  | false => exact exec_of_check_none .nop hf rfl

/-! ### The checks of the packer -/

theorem checkPkInit_of_bad {w : BitVec 4} {cap : BitVec 12} (s : State)
    (h : w.toNat < 1 ∨ 8 < w.toNat ∨ cap.toNat = 0) : checkPkInit w cap s = some .badPkCfg :=
  if_pos (h.imp id (.imp id fun h0 => BitVec.eq_of_toNat_eq h0))

theorem checkPkAppend_of_not_open {s : State} (nm1 : BitVec 4) (h : s.pkState ≠ .open) :
    checkPkAppend nm1 s = some .pkSequence :=
  if_pos h

theorem checkPkAppend_of_overflow {s : State} {nm1 : BitVec 4} (ho : s.pkState = .open)
    (h : totalBits s < s.pkLen.toNat + appendLength nm1) : checkPkAppend nm1 s = some .pkOverflow :=
  (if_neg (not_not.mpr ho)).trans (if_pos h)

theorem checkPkFinish_of_not_open {s : State} (h : s.pkState ≠ .open) : checkPkFinish s = some .pkSequence :=
  if_pos h

theorem checkPkFinish_of_bad {s : State} (ho : s.pkState = .open)
    (h : 16 < s.tlen.toNat ∨ s.flen.toNat = 0 ∨ 16 < s.flen.toNat) : checkPkFinish s = some .badPkCfg :=
  (if_neg (not_not.mpr ho)).trans (if_pos (h.imp id (.imp (fun h0 => BitVec.eq_of_toNat_eq h0) id)))

theorem checkPkFinish_eq_none_iff (s : State) :
    checkPkFinish s = none ↔ s.pkState = .open ∧ s.tlen.toNat ≤ 16 ∧ s.flen ≠ 0 ∧ s.flen.toNat ≤ 16 := by
  simp only [checkPkFinish, ite_some_eq_none_iff, not_or, not_not, Nat.not_lt, and_true, ne_eq]

/-- The two branches that cut the terminator to the room left are one (R125, R126). -/
theorem terminatorBits_eq (s : State) :
    terminatorBits s =
      if s.tmode = true ∧ s.pkLen.toNat % s.pkW.toNat = 0 then 0
      else min s.tlen.toNat (totalBits s - s.pkLen.toNat) := by
  unfold terminatorBits
  cases s.tmode <;> simp

/-! ### The bits of a codeword -/

/-- Bits summed for a codeword one bit wider stand one place higher. -/
theorem sliceSum_succ_width (bb : BitBuffer) (base : Nat) {w n : Nat} (h : n ≤ w) :
    sliceSum bb base (w + 1) n = 2 * sliceSum bb base w n := by
  induction n with
  | zero => rfl
  | succ n ih =>
    have hplace : w + 1 - 1 - n = w - 1 - n + 1 := by omega
    rw [sliceSum, sliceSum, ih (by omega), hplace, Nat.shiftLeft_succ, Nat.mul_add]

/-- A codeword of one more bit is the narrower codeword with the next bit of the buffer below it. -/
theorem sliceSum_succ (bb : BitBuffer) (base w : Nat) :
    sliceSum bb base (w + 1) (w + 1) = Nat.bit (bb.getLsbD (base + w)) (sliceSum bb base w w) := by
  rw [sliceSum, sliceSum_succ_width bb base le_rfl, Nat.bit_val, Nat.add_sub_cancel, Nat.sub_self, Nat.shiftLeft_zero]

/-- A codeword's most significant bit stands at its lowest position of BB (R128). -/
theorem sliceSum_testBit (bb : BitBuffer) (base w j : Nat) :
    (sliceSum bb base w w).testBit j = if j < w then bb.getLsbD (base + (w - 1 - j)) else false := by
  induction w generalizing j with
  | zero => exact Nat.zero_testBit j
  | succ w ih =>
    rw [sliceSum_succ]
    cases j with
    | zero => rw [Nat.testBit_bit_zero, if_pos w.succ_pos]; rfl
    | succ j =>
      have hplace : w + 1 - 1 - (j + 1) = w - 1 - j := by omega
      simp only [Nat.testBit_bit_succ, ih, Nat.add_lt_add_iff_right, hplace]

theorem cwWin_of_open_window {s : State} {i : Nat} (h : s.pkState ≠ .idle ∧ i < s.pkCap.toNat) :
    cwWin s i = BitVec.ofNat 32 (sliceSum s.bb (i * s.pkW.toNat) s.pkW.toNat s.pkW.toNat) :=
  if_pos h

theorem cwWin_of_closed_window {s : State} {i : Nat} (h : ¬(s.pkState ≠ .idle ∧ i < s.pkCap.toNat)) :
    cwWin s i = 0 :=
  if_neg h

theorem regRead_cwWin (s : State) {i : Nat} (h : i < 4096) :
    regRead s (BitVec.ofNat 15 (0x4000 + 4 * i)) = cwWin s i :=
  regRead_ofNat s (by omega) (regAt_cwWin h)

end Sys2Proof.Machine
end

section
/-! SUPPORT. Append-only (40_packer.md R129): what PK_APPEND and PK_FINISH, and every command that does not touch the
packer, leave of the stream. -/
namespace Sys2Proof.Machine

/-- The packer of t goes on with the stream of s: the same layout, and every bit s holds. -/
structure AppendOnly (s t : State) : Prop where
  idle : t.pkState = .idle ↔ s.pkState = .idle
  width : t.pkW = s.pkW
  capacity : t.pkCap = s.pkCap
  length : s.pkLen.toNat ≤ t.pkLen.toNat
  bits : ∀ k, k < s.pkLen.toNat → t.bb.getLsbD k = s.bb.getLsbD k

variable {s t : State}

/-- A codeword whose bits the stream already holds keeps its value. -/
theorem AppendOnly.cwWin_eq (h : AppendOnly s t) {j : Nat} (hj : (j + 1) * s.pkW.toNat ≤ s.pkLen.toNat) :
    cwWin t j = cwWin s j := by
  rw [Nat.add_one_mul] at hj
  have hslice : sliceSum t.bb (j * s.pkW.toNat) s.pkW.toNat s.pkW.toNat =
      sliceSum s.bb (j * s.pkW.toNat) s.pkW.toNat s.pkW.toNat :=
    sliceSum_congr fun b hb => h.bits _ (by omega)
  simp only [cwWin, ne_eq, h.idle, h.width, h.capacity, hslice]

theorem effectPkAppend_appendOnly {nm1 : BitVec 4} (val : BitVec 16) (hw : s.pkW.toNat ≤ 8)
    (hfit : s.pkLen.toNat + appendLength nm1 ≤ totalBits s) : AppendOnly s (effectPkAppend nm1 val s) where
  idle := Iff.rfl
  width := rfl
  capacity := rfl
  length := by rw [effectPkAppend_length nm1 val s hw hfit]; exact Nat.le_add_right _ _
  bits k hk := by rw [effectPkAppend_bit, if_neg (by omega)]

theorem effectPkFinish_appendOnly (ho : s.pkState = .open) (hw : s.pkW.toNat ≤ 8)
    (hlen : s.pkLen.toNat ≤ totalBits s) : AppendOnly s (effectPkFinish s) where
  idle := by simp [ho]
  width := rfl
  capacity := rfl
  length := by rwa [effectPkFinish_length s hw]
  bits k hk := by rw [effectPkFinish_bit s k hw hlen, if_pos hk]

/-- No effect but PK_INIT's drops a bit of the stream. -/
theorem effectOf_appendOnly {i : Instr} (hi : ∀ w cap, i ≠ .pkInit w cap) (hw : s.pkW.toNat ≤ 8)
    (hlen : s.pkLen.toNat ≤ totalBits s) (hc : checkOf i s = none) : AppendOnly s (effectOf i s) := by
  cases i with
  | pkInit w cap => exact absurd rfl (hi w cap)
  | pkAppend nm1 val => exact effectPkAppend_appendOnly val hw ((checkPkAppend_eq_none_iff nm1 s).mp hc).2
  | pkFinish => exact effectPkFinish_appendOnly (pkState_of_checkPkFinish hc) hw hlen
  | _ => exact ⟨Iff.rfl, rfl, rfl, le_rfl, fun _ _ => rfl⟩

/-- No command but PK_INIT drops a bit of the stream, whether it is discarded, faults or has its effect. -/
theorem exec_appendOnly {i : Instr} (hi : ∀ w cap, i ≠ .pkInit w cap) (hw : s.pkW.toNat ≤ 8)
    (hlen : s.pkLen.toNat ≤ totalBits s) (h : exec i s = .next t) : AppendOnly s t := by
  rw [exec_eq_command] at h
  rcases command_cases h with ⟨-, rfl⟩ | ⟨-, c, -, rfl⟩ | ⟨-, hc, rfl⟩
  · exact ⟨Iff.rfl, rfl, rfl, le_rfl, fun _ _ => rfl⟩
  · exact ⟨Iff.rfl, rfl, rfl, le_rfl, fun _ _ => rfl⟩
  · exact { effectOf_appendOnly hi hw hlen hc with }

end Sys2Proof.Machine
end

section
/-! PROOFS. The statements of 40_packer.md. -/
namespace Sys2Proof.Machine

/-- Settles O18, from the bits of the slicer's sum and its bound. -/
theorem codewordWindowSlicesTheBuffer : Obligations.CodewordWindowSlicesTheBuffer := by
  intro s i hi hw
  rw [regRead_cwWin s hi]
  refine ⟨fun h => ?_, cwWin_of_closed_window⟩
  rw [cwWin_of_open_window h]
  refine ⟨fun j => ?_, ?_⟩
  · rw [BitVec.getLsbD_ofNat, sliceSum_testBit]
    by_cases hj : j < s.pkW.toNat
    · rw [decide_eq_true (by omega), Bool.true_and]
    · rw [if_neg hj, Bool.and_false]
  · rw [BitVec.toNat_ofNat]
    exact (Nat.mod_le _ _).trans_lt (sliceSum_lt _ _ _)

/-- Settles O44: the check that stops the append, or the bits its effect writes. -/
theorem pkAppendAddsBitsMostSignificantFirst : Obligations.PkAppendAddsBitsMostSignificantFirst := by
  intro s nm1 val hf hw n len
  refine ⟨fun h => exec_of_check_some (.pkAppend nm1 val) hf (checkPkAppend_of_not_open nm1 h),
    fun ho h => exec_of_check_some (.pkAppend nm1 val) hf (checkPkAppend_of_overflow ho h), fun ho hfit => ?_⟩
  have hT : s.pkCap.toNat * s.pkW.toNat ≤ 32760 := totalBits_le s hw
  have hcheck := (checkPkAppend_eq_none_iff nm1 s).mpr ⟨ho, hfit⟩
  refine ⟨_, exec_of_check_none (.pkAppend nm1 val) hf hcheck, fun i => ?_⟩
  refine (effectPkAppend_bit nm1 val s i).trans (if_congr ?_ rfl rfl)
  show len ≤ i ∧ i < len + n ∧ i < 32760 ↔ len ≤ i ∧ i < len + n
  omega

/-- Settles O45: the check that stops the finish, or the bits its effect writes. -/
theorem pkFinishTerminatesAndFills : Obligations.PkFinishTerminatesAndFills := by
  intro s hf hw hlen total len tbits p
  refine ⟨fun h => exec_of_check_some .pkFinish hf (checkPkFinish_of_not_open h),
    fun ho h => exec_of_check_some .pkFinish hf (checkPkFinish_of_bad ho h), fun ho ht h1 h16 => ?_⟩
  have hflen : s.flen ≠ 0 := fun h0 => by simp [h0] at h1
  have htbits : terminatorBits s = tbits := terminatorBits_eq s
  have hcheck := (checkPkFinish_eq_none_iff s).mpr ⟨ho, ht, hflen, h16⟩
  refine ⟨_, exec_of_check_none .pkFinish hf hcheck, fun i => ?_⟩
  have hbit := effectPkFinish_bit s i hw hlen
  rw [htbits] at hbit
  exact hbit

/-- Settles O46: the codewords below PK_LEN are sliced from bits that stay. -/
theorem commandsOnlyAppend : Obligations.CommandsOnlyAppend := by
  intro i s t hi _ hw hlen h
  have happ := exec_appendOnly hi hw hlen h
  exact ⟨happ.length, happ.bits, fun _ => happ.cwWin_eq⟩

/-- Settles O43: the check that stops PK_INIT, or its effect. -/
theorem pkInitOpensAnEmptyBuffer : Obligations.PkInitOpensAnEmptyBuffer := by
  intro s w cap hf
  refine ⟨fun h => exec_of_check_some (.pkInit w cap) hf (checkPkInit_of_bad s h), fun h1 h8 hcap => ?_⟩
  have hcap' : cap ≠ 0 := fun h0 => hcap (congrArg BitVec.toNat h0)
  have hcheck := (checkPkInit_eq_none_iff w cap s).mpr ⟨h1, h8, hcap'⟩
  exact ⟨0, exec_of_check_none (.pkInit w cap) hf hcheck, fun _ => BitVec.getLsbD_zero⟩

/-- Settles O50: a discarded command only completes, a faulting one writes the record, and each effect is an update of
the fields its rule names. -/
theorem pkCommandsFrame : Obligations.PkCommandsFrame := by
  refine ⟨fun w cap s t h => ?_, fun nm1 val s t h => ?_, fun s t h => ?_, fun s t h => ?_⟩
  · rcases command_cases h with ⟨-, rfl⟩ | ⟨-, c, -, rfl⟩ | ⟨-, -, rfl⟩ <;> rfl
  · rcases command_cases h with ⟨-, rfl⟩ | ⟨-, c, -, rfl⟩ | ⟨-, -, rfl⟩ <;> rfl
  · rcases command_cases h with ⟨-, rfl⟩ | ⟨-, c, -, rfl⟩ | ⟨-, -, rfl⟩ <;> rfl
  · exact Host.Outcome.next.inj (h.symm.trans (exec_nop s))

end Sys2Proof.Machine
end

section
/-! SUPPORT. The checks of the GF commands, and the degree from its bounds (41_gf.md R151, R152, R157, 60_exceptions.md
R234). -/
namespace Sys2Proof.Machine

/-! ### The checks -/

theorem checkGfInit_of_illegal {poly : BitVec 16} (s : State) (h : ¬legalPoly poly = true) :
    checkGfInit poly s = some .badPoly := if_pos (by simpa using h)

theorem checkGfInit_of_notPrimitive {poly : BitVec 16} (s : State) (hl : legalPoly poly = true)
    (h : ¬isPrimitive poly = true) : checkGfInit poly s = some .notPrimitive := by
  simp [checkGfInit, hl, h]

theorem checkGfOperands_of_notReady {s : State} (a b : Byte) (h : s.gfValid = false) :
    checkGfOperands a b s = some .gfNotReady := if_pos (by simp [h])

theorem checkGfOperands_of_outside {s : State} {a b : Byte} (hv : s.gfValid = true)
    (h : 2 ^ s.gfM.toNat ≤ a.toNat ∨ 2 ^ s.gfM.toNat ≤ b.toNat) :
    checkGfOperands a b s = some .operandRange := by
  simp [checkGfOperands, outsideField, hv, h]

theorem checkGfOperands_eq_none_iff (a b : Byte) (s : State) :
    checkGfOperands a b s = none ↔
      s.gfValid = true ∧ IsElement s.gfM.toNat a ∧ IsElement s.gfM.toNat b := by
  simp [checkGfOperands, ite_some_eq_none_iff, outsideField]

/-! ### The degree from its bounds -/

/-- A polynomial with 2^m ≤ POLY < 2^(m+1), m in 2..8, is one GF_INIT does not refuse for its degree. -/
theorem legalPoly_of_bounds {poly : BitVec 16} {m : Nat} (hm : 2 ≤ m) (hm' : m ≤ 8) (h1 : 2 ^ m ≤ poly.toNat)
    (h2 : poly.toNat < 2 ^ (m + 1)) : legalPoly poly = true := by
  have hlow : 2 ^ 2 ≤ 2 ^ m := Nat.pow_le_pow_right (by decide) hm
  have hhigh : 2 ^ (m + 1) ≤ 2 ^ 9 := Nat.pow_le_pow_right (by decide) (by omega)
  rw [legalPoly_iff]
  omega

theorem bounds_of_legal {poly : BitVec 16} (h : legalPoly poly = true) :
    2 ^ degree poly ≤ poly.toNat ∧ poly.toNat < 2 ^ (degree poly + 1) :=
  degree_spec poly (by have := (legalPoly_iff poly).mp h; omega)

end Sys2Proof.Machine
end

section
/-! SUPPORT. Doubling modulo the polynomial as a linear map, and the polynomial product of powers of x (41_gf.md R153,
R155). -/
namespace Sys2Proof.Machine

/-! ### Doubling modulo the polynomial (R153) -/

/-- Bit m of a value below 2^(m+1) says whether it reaches 2^m. -/
theorem getLsbD_top_iff {n m : Nat} {v : BitVec n} (h : v.toNat < 2 ^ (m + 1)) :
    v.getLsbD m = true ↔ 2 ^ m ≤ v.toNat := by
  refine ⟨Nat.ge_two_pow_of_testBit, fun hge => ?_⟩
  exact Nat.testBit_of_two_pow_le_and_two_pow_add_one_gt hge h

/-- Doubling: 2p, or 2p xor POLY when 2p reaches 2^m. -/
theorem timesX_toNat {poly : BitVec 16} {m : Nat} (h1 : 2 ^ m ≤ poly.toNat) {p : BitVec 16} (hp : p.toNat < 2 ^ m) :
    (timesX poly m p).toNat = if 2 * p.toNat < 2 ^ m then 2 * p.toNat else 2 * p.toNat ^^^ poly.toNat := by
  have hm : m < 16 := (Nat.pow_lt_pow_iff_right (a := 2) (by decide)).mp (lt_of_le_of_lt h1 poly.isLt)
  have hle : 2 ^ (m + 1) ≤ 2 ^ 16 := Nat.pow_le_pow_right (by decide) hm
  have hpow : 2 ^ (m + 1) = 2 * 2 ^ m := by rw [Nat.pow_succ, Nat.mul_comm]
  have hq : (p <<< 1).toNat = 2 * p.toNat := by
    rw [BitVec.toNat_shiftLeft, Nat.shiftLeft_eq, Nat.mod_eq_of_lt (by omega)]; omega
  have htop := getLsbD_top_iff (v := p <<< 1) (m := m) (by omega)
  rw [hq] at htop
  rw [timesX]
  by_cases hlt : 2 * p.toNat < 2 ^ m
  · rw [if_neg (by rw [htop]; omega), if_pos hlt, hq]
  · rw [if_pos (by rw [htop]; omega), if_neg hlt, BitVec.toNat_xor, hq]

/-- The reduction clears bit m, so doubling stays below 2^m whatever the degree m ≤ 15. -/
theorem timesX_lt_two_pow {poly : BitVec 16} {m : Nat} (h1 : 2 ^ m ≤ poly.toNat) (h2 : poly.toNat < 2 ^ (m + 1))
    {p : BitVec 16} (hp : p.toNat < 2 ^ m) : (timesX poly m p).toNat < 2 ^ m := by
  have hpow : 2 ^ (m + 1) = 2 * 2 ^ m := by rw [Nat.pow_succ, Nat.mul_comm]
  rw [timesX_toNat h1 hp]
  split
  · assumption
  · rename_i hge
    have hlt : 2 * p.toNat ^^^ poly.toNat < 2 ^ (m + 1) := Nat.xor_lt_two_pow (by omega) h2
    have hbit : (2 * p.toNat).testBit m = true ∧ poly.toNat.testBit m = true :=
      ⟨Nat.testBit_of_two_pow_le_and_two_pow_add_one_gt (by omega) (by omega),
        Nat.testBit_of_two_pow_le_and_two_pow_add_one_gt h1 h2⟩
    by_contra htop
    have := Nat.testBit_of_two_pow_le_and_two_pow_add_one_gt (Nat.le_of_not_lt htop) hlt
    simp [Nat.testBit_xor, hbit] at this

/-- A summand chosen by one bit is linear in the bit. -/
theorem ite_xor_eq (b c : Bool) (v : BitVec 16) :
    (if (b ^^ c) = true then v else 0) = (if b = true then v else 0) ^^^ (if c = true then v else 0) := by
  cases b <;> cases c <;> simp

theorem timesX_eq_xor (poly : BitVec 16) (m : Nat) (p : BitVec 16) :
    timesX poly m p = p <<< 1 ^^^ if (p <<< 1).getLsbD m = true then poly else 0 := by
  rw [timesX]
  split
  · rfl
  · exact BitVec.xor_zero.symm

/-- Doubling is linear: x · (p + q) = x · p + x · q. -/
theorem timesX_xor (poly : BitVec 16) (m : Nat) (p q : BitVec 16) :
    timesX poly m (p ^^^ q) = timesX poly m p ^^^ timesX poly m q := by
  simp only [timesX_eq_xor, BitVec.shiftLeft_xor_distrib, BitVec.getLsbD_xor, ite_xor_eq]
  ac_rfl

theorem timesX_zero (poly : BitVec 16) (m : Nat) : timesX poly m 0 = 0 := by
  simp [timesX]

theorem xPow_lt_two_pow {poly : BitVec 16} {m : Nat} (hm : 1 ≤ m) (h1 : 2 ^ m ≤ poly.toNat)
    (h2 : poly.toNat < 2 ^ (m + 1)) (e : Nat) : (xPow poly m e).toNat < 2 ^ m := by
  induction e with
  | zero => exact Nat.one_lt_two_pow (by omega)
  | succ e ih => exact timesX_lt_two_pow h1 h2 ih

/-! ### The polynomial product (R155) -/

/-- x · (a · b) = (x · a) · b. -/
theorem mulMod_timesX (poly : BitVec 16) (m n : Nat) (a b : BitVec 16) :
    mulMod poly m n (timesX poly m a) b = timesX poly m (mulMod poly m n a b) := by
  induction n generalizing a b with
  | zero => rw [mulMod, mulMod, timesX_zero]
  | succ n ih =>
    rw [mulMod, mulMod, ih, timesX_xor]
    split
    · rfl
    · rw [timesX_zero]

/-- a · (b + c) = a · b + a · c. -/
theorem mulMod_xor (poly : BitVec 16) (m n : Nat) (a b c : BitVec 16) :
    mulMod poly m n a (b ^^^ c) = mulMod poly m n a b ^^^ mulMod poly m n a c := by
  induction n generalizing a b c with
  | zero => exact BitVec.xor_zero.symm
  | succ n ih =>
    simp only [mulMod, BitVec.ushiftRight_xor_distrib, ih, BitVec.getLsbD_xor, ite_xor_eq]
    ac_rfl

theorem mulMod_zero_left (poly : BitVec 16) (m n : Nat) (b : BitVec 16) : mulMod poly m n 0 b = 0 := by
  induction n generalizing b with
  | zero => rfl
  | succ n ih => rw [mulMod, timesX_zero, ih, ite_self]; exact BitVec.xor_zero

theorem mulMod_zero_right (poly : BitVec 16) (m n : Nat) (a : BitVec 16) : mulMod poly m n a 0 = 0 := by
  have h := mulMod_xor poly m n a 0 0
  rwa [BitVec.xor_self, BitVec.xor_self] at h

/-- A polynomial is its constant term and x times the rest. -/
theorem constant_xor_rest (b : BitVec 16) :
    (if b.getLsbD 0 = true then (1 : BitVec 16) else 0) ^^^ (b >>> 1) <<< 1 = b := by
  refine BitVec.eq_of_getLsbD_eq fun i hi => ?_
  cases i with
  | zero => cases b.getLsbD 0 <;> simp
  | succ i => cases b.getLsbD 0 <;> simp [hi, Nat.add_comm 1]

/-- 1 · b = b, for b of at most as many terms as the degree. -/
theorem mulMod_one_left (poly : BitVec 16) {m n : Nat} (hn : n ≤ m) {b : BitVec 16} (hb : b.toNat < 2 ^ n) :
    mulMod poly m n 1 b = b := by
  induction n generalizing b with
  | zero => exact (BitVec.eq_of_toNat_eq (Nat.lt_one_iff.mp hb)).symm
  | succ n ih =>
    have hrest : (b >>> 1).toNat < 2 ^ n := by
      rw [BitVec.toNat_ushiftRight, Nat.shiftRight_eq_div_pow]; have := Nat.pow_succ 2 n; omega
    have htop : b.getLsbD m = false :=
      Nat.testBit_lt_two_pow (hb.trans_le (Nat.pow_le_pow_right (by decide) hn))
    have hdouble : timesX poly m (b >>> 1) = (b >>> 1) <<< 1 := by
      refine if_neg (ne_true_of_eq_false ?_)
      rw [BitVec.getLsbD_shiftLeft, BitVec.getLsbD_ushiftRight, Nat.add_sub_cancel' (by omega), htop, Bool.and_false]
    rw [mulMod, mulMod_timesX, ih (by omega) hrest, hdouble, constant_xor_rest]

/-- The product of x^i and x^j is x^(i+j). -/
theorem mulMod_xPow {poly : BitVec 16} {m : Nat} (hm : 1 ≤ m) (h1 : 2 ^ m ≤ poly.toNat)
    (h2 : poly.toNat < 2 ^ (m + 1)) (i j : Nat) :
    mulMod poly m m (xPow poly m i) (xPow poly m j) = xPow poly m (i + j) := by
  induction i with
  | zero => rw [xPow, mulMod_one_left poly le_rfl (xPow_lt_two_pow hm h1 h2 j), Nat.zero_add]
  | succ i ih => rw [xPow, mulMod_timesX, ih, Nat.succ_add, xPow]

end Sys2Proof.Machine
end

section
/-! SUPPORT. The field of an accepted polynomial: its elements are 0 and the powers of x, the powers repeat with period
LOGMOD, and the laws of ⊗ over them (41_gf.md R154, R155, R159). -/
namespace Sys2Proof.Machine

variable {poly : BitVec 16}

/-! ### The elements as powers of x (R154) -/

theorem xPow_isElement (h : legalPoly poly = true) (e : Nat) :
    (xPow poly (degree poly) e).toNat < 2 ^ degree poly := by
  obtain ⟨hm, -⟩ := degree_of_legal h
  obtain ⟨h1, h2⟩ := bounds_of_legal h
  exact xPow_lt_two_pow (by omega) h1 h2 e

/-- LOGMOD distinct nonzero values below 2^m are all of them. -/
theorem exists_xPow (h : AcceptedPoly poly) {v : BitVec 16} (hv : v ≠ 0) (hlt : v.toNat < 2 ^ degree poly) :
    ∃ e, e < logMod (degree poly) ∧ xPow poly (degree poly) e = v := by
  obtain ⟨hinj, hne⟩ := (isPrimitive_iff poly).mp h.2
  have hpos : ∀ w : BitVec 16, w ≠ 0 → 1 ≤ w.toNat := fun w hw =>
    Nat.one_le_iff_ne_zero.mpr fun h0 => hw (BitVec.eq_of_toNat_eq h0)
  have hbelow : ∀ n, n < 2 ^ degree poly → n ≤ logMod (degree poly) := fun n hn => Nat.le_sub_one_of_lt hn
  have hsurj : Set.SurjOn (fun e => (xPow poly (degree poly) e).toNat) (Finset.range (logMod (degree poly)))
      (Finset.Icc 1 (logMod (degree poly))) := by
    refine Finset.surjOn_of_injOn_of_card_le _ (fun e he => ?_) (fun i hi j hj hij => ?_) (by simp)
    · exact Finset.mem_coe.mpr (Finset.mem_Icc.mpr
        ⟨hpos _ (hne e (by simpa using he)), hbelow _ (xPow_isElement h.1 e)⟩)
    · exact hinj i j (by simpa using hi) (by simpa using hj) (BitVec.eq_of_toNat_eq hij)
  obtain ⟨e, he, hev⟩ := hsurj (Finset.mem_coe.mpr (Finset.mem_Icc.mpr ⟨hpos v hv, hbelow _ hlt⟩))
  exact ⟨e, by simpa using he, BitVec.eq_of_toNat_eq hev⟩

/-- The constant term of an accepted polynomial is 1: otherwise every power of x but the first is even, and 3 is none
(41_gf.md R151). -/
theorem poly_odd (h : AcceptedPoly poly) : poly.toNat % 2 = 1 := by
  obtain ⟨hm, -⟩ := degree_of_legal h.1
  obtain ⟨h1, -⟩ := bounds_of_legal h.1
  have h3 : 2 ^ 2 ≤ 2 ^ degree poly := Nat.pow_le_pow_right (by decide) hm
  obtain ⟨e, -, he⟩ := exists_xPow h (v := 3) (by decide) h3
  cases e with
  | zero => exact absurd he (show (1 : BitVec 16) ≠ 3 by decide)
  | succ e =>
    have hval : (timesX poly (degree poly) (xPow poly (degree poly) e)).toNat = 3 := congrArg BitVec.toNat he
    rw [timesX_toNat h1 (xPow_isElement h.1 e)] at hval
    split at hval
    · omega
    · have hparity := Nat.xor_mod_two_eq (m := 2 * (xPow poly (degree poly) e).toNat) (n := poly.toNat)
      omega

/-- Doubling loses nothing: only 0 doubles to 0. -/
theorem timesX_eq_zero (h : AcceptedPoly poly) {p : BitVec 16} (hp : p.toNat < 2 ^ degree poly)
    (h0 : timesX poly (degree poly) p = 0) : p = 0 := by
  obtain ⟨h1, -⟩ := bounds_of_legal h.1
  have hodd := poly_odd h
  have hval := congrArg BitVec.toNat h0
  rw [timesX_toNat h1 hp] at hval
  split at hval
  · exact BitVec.eq_of_toNat_eq (by simpa using hval)
  · have := Nat.xor_eq_zero_iff.mp hval
    omega

theorem timesX_injective (h : AcceptedPoly poly) {p q : BitVec 16} (hp : p.toNat < 2 ^ degree poly)
    (hq : q.toNat < 2 ^ degree poly) (hpq : timesX poly (degree poly) p = timesX poly (degree poly) q) : p = q := by
  refine BitVec.xor_eq_zero_iff.mp (timesX_eq_zero h ?_ ?_)
  · rw [BitVec.toNat_xor]
    exact Nat.xor_lt_two_pow hp hq
  · rw [timesX_xor, hpq, BitVec.xor_self]
    rfl

/-- x has order LOGMOD: x^LOGMOD is a power below it, and any but x^0 would have two predecessors. -/
theorem xPow_logMod (h : AcceptedPoly poly) : xPow poly (degree poly) (logMod (degree poly)) = 1 := by
  obtain ⟨hinj, hne⟩ := (isPrimitive_iff poly).mp h.2
  obtain ⟨n, hn⟩ : ∃ n, logMod (degree poly) = n + 1 :=
    Nat.exists_eq_succ_of_ne_zero (by have := logMod_bounds (degree_of_legal h.1); omega)
  have hx := xPow_isElement h.1
  have hnz : xPow poly (degree poly) (n + 1) ≠ 0 := fun h0 => hne n (by omega) (timesX_eq_zero h (hx n) h0)
  obtain ⟨e, he, hev⟩ := exists_xPow h hnz (hx (n + 1))
  rw [hn, ← hev]
  cases e with
  | zero => rfl
  | succ e =>
    have hen := hinj e n (by omega) (by omega) (timesX_injective h (hx e) (hx n) hev)
    omega

theorem xPow_periodic (h : AcceptedPoly poly) :
    Function.Periodic (xPow poly (degree poly)) (logMod (degree poly)) := fun e => by
  induction e with
  | zero => rw [Nat.zero_add, xPow_logMod h]; rfl
  | succ e ih => rw [Nat.succ_add, xPow, ih]; rfl

/-! ### The powers of α in the tables (R159) -/

theorem eq_of_setWidth_eq {a b : Byte} (h : a.setWidth 16 = b.setWidth 16) : a = b := by
  simpa using congrArg (BitVec.setWidth 8) h

/-- α^e is x^e mod P. -/
theorem alphaPow_setWidth (h : AcceptedPoly poly) (e : Nat) :
    (alphaPow (fieldOf poly) e).setWidth 16 = xPow poly (degree poly) e := by
  have hlm := logMod_bounds (degree_of_legal h.1)
  have h256 : 2 ^ degree poly ≤ 2 ^ 8 := Nat.pow_le_pow_right (by decide) (degree_of_legal h.1).2
  have hget := alogTable_get h.1 (e % logMod (degree poly))
  rw [if_pos (Nat.mod_lt e (by omega)), (xPow_periodic h).map_mod_nat] at hget
  have hlt := xPow_isElement h.1 e
  show ((alogTable poly).get (e % logMod (degree poly))).setWidth 16 = _
  rw [hget]
  apply BitVec.eq_of_toNat_eq
  rw [BitVec.toNat_setWidth, BitVec.toNat_setWidth]
  omega

theorem alphaPow_toNat (h : AcceptedPoly poly) (e : Nat) :
    (alphaPow (fieldOf poly) e).toNat = (xPow poly (degree poly) e).toNat := by
  rw [← alphaPow_setWidth h, BitVec.toNat_setWidth_of_le (by decide)]

theorem alphaPow_ne_zero (h : AcceptedPoly poly) (e : Nat) : alphaPow (fieldOf poly) e ≠ 0 := by
  obtain ⟨-, hne⟩ := (isPrimitive_iff poly).mp h.2
  have hlm := logMod_bounds (degree_of_legal h.1)
  intro h0
  refine hne (e % logMod (degree poly)) (Nat.mod_lt e (by omega)) ?_
  rw [(xPow_periodic h).map_mod_nat, ← alphaPow_setWidth h, h0]
  rfl

theorem exists_alphaPow (h : AcceptedPoly poly) {a : Byte} (ha : IsElement (degree poly) a) (h0 : a ≠ 0) :
    ∃ e, e < logMod (degree poly) ∧ alphaPow (fieldOf poly) e = a := by
  have ha' : (a.setWidth 16).toNat = a.toNat := BitVec.toNat_setWidth_of_le (by decide)
  obtain ⟨e, he, hea⟩ := exists_xPow h (v := a.setWidth 16) (fun hz => h0 (eq_of_setWidth_eq hz)) (by rwa [ha'])
  exact ⟨e, he, eq_of_setWidth_eq ((alphaPow_setWidth h e).trans hea)⟩

/-- An element is 0 or a power of α. -/
theorem element_cases (h : AcceptedPoly poly) {a : Byte} (ha : IsElement (degree poly) a) :
    a = 0 ∨ ∃ e, e < logMod (degree poly) ∧ alphaPow (fieldOf poly) e = a :=
  or_iff_not_imp_left.mpr (exists_alphaPow h ha)

/-- LOG undoes the powers of α. -/
theorem log_alphaPow (h : AcceptedPoly poly) (e : Nat) :
    ((fieldOf poly).log.get (alphaPow (fieldOf poly) e).toNat).toNat = e % logMod (degree poly) := by
  have hlm := logMod_bounds (degree_of_legal h.1)
  have hlt := Nat.mod_lt e (y := logMod (degree poly)) (by omega)
  rw [alphaPow_toNat h, ← (xPow_periodic h).map_mod_nat]
  show ((logTable poly).get _).toNat = _
  rw [logTable_get_xPow h.1 h.2 hlt, BitVec.toNat_ofNat]
  omega

theorem alphaPow_mod (e : Nat) :
    alphaPow (fieldOf poly) (e % logMod (degree poly)) = alphaPow (fieldOf poly) e :=
  congrArg (alogTable poly).get (Nat.mod_mod e _)

theorem alphaPow_of_lt {e : Nat} (he : e < logMod (degree poly)) :
    alphaPow (fieldOf poly) e = (alogTable poly).get e :=
  congrArg (alogTable poly).get (Nat.mod_eq_of_lt he)

theorem alphaPow_zero (h : AcceptedPoly poly) : alphaPow (fieldOf poly) 0 = 1 :=
  eq_of_setWidth_eq (alphaPow_setWidth h 0)

theorem alphaPow_one (h : AcceptedPoly poly) : alphaPow (fieldOf poly) 1 = 2 := by
  obtain ⟨h1, -⟩ := bounds_of_legal h.1
  have h4 : 2 ^ 2 ≤ 2 ^ degree poly := Nat.pow_le_pow_right (by decide) (degree_of_legal h.1).1
  have hone : (xPow poly (degree poly) 1).toNat = 2 :=
    (timesX_toNat (p := 1) h1 (show 1 < 2 ^ degree poly by omega)).trans (if_pos (show 2 < 2 ^ degree poly by omega))
  exact BitVec.eq_of_toNat_eq ((alphaPow_toNat h 1).trans hone)

/-! ### The laws of ⊗ (R155, R159) -/

/-- α^i ⊗ α^j = α^(i+j): the logs add. -/
theorem gfMul_alphaPow (h : AcceptedPoly poly) (i j : Nat) :
    gfMul (fieldOf poly) (alphaPow (fieldOf poly) i) (alphaPow (fieldOf poly) j) = alphaPow (fieldOf poly) (i + j) := by
  rw [gfMul, if_neg (not_or.mpr ⟨alphaPow_ne_zero h i, alphaPow_ne_zero h j⟩), log_alphaPow h, log_alphaPow h]
  exact congrArg (alogTable poly).get (Nat.add_mod i j _).symm

variable {a b c : Byte}

/-- ⊗ is the polynomial product: over powers of α both add the exponents. -/
theorem gfMul_setWidth (h : AcceptedPoly poly) (ha : IsElement (degree poly) a) (hb : IsElement (degree poly) b) :
    (gfMul (fieldOf poly) a b).setWidth 16 =
      mulMod poly (degree poly) (degree poly) (a.setWidth 16) (b.setWidth 16) := by
  obtain ⟨hm, -⟩ := degree_of_legal h.1
  obtain ⟨h1, h2⟩ := bounds_of_legal h.1
  rcases element_cases h ha with rfl | ⟨i, -, rfl⟩
  · rw [gfMul_zero_left]
    exact (mulMod_zero_left poly _ _ _).symm
  rcases element_cases h hb with rfl | ⟨j, -, rfl⟩
  · rw [gfMul_zero_right]
    exact (mulMod_zero_right poly _ _ _).symm
  rw [gfMul_alphaPow h, alphaPow_setWidth h, alphaPow_setWidth h, alphaPow_setWidth h,
    mulMod_xPow (by omega) h1 h2]

theorem gfMul_assoc (h : AcceptedPoly poly) (ha : IsElement (degree poly) a) (hb : IsElement (degree poly) b)
    (hc : IsElement (degree poly) c) :
    gfMul (fieldOf poly) (gfMul (fieldOf poly) a b) c = gfMul (fieldOf poly) a (gfMul (fieldOf poly) b c) := by
  rcases element_cases h ha with rfl | ⟨i, -, rfl⟩
  · simp only [gfMul_zero_left]
  rcases element_cases h hb with rfl | ⟨j, -, rfl⟩
  · simp only [gfMul_zero_left, gfMul_zero_right]
  rcases element_cases h hc with rfl | ⟨k, -, rfl⟩
  · simp only [gfMul_zero_right]
  simp only [gfMul_alphaPow h, Nat.add_assoc]

/-- Distributivity is that of the polynomial product. -/
theorem gfMul_gfAdd (h : AcceptedPoly poly) (ha : IsElement (degree poly) a) (hb : IsElement (degree poly) b)
    (hc : IsElement (degree poly) c) :
    gfMul (fieldOf poly) a (gfAdd b c) = gfAdd (gfMul (fieldOf poly) a b) (gfMul (fieldOf poly) a c) := by
  refine eq_of_setWidth_eq ?_
  rw [gfMul_setWidth h ha (gfAdd_lt hb hc), gfAdd, gfAdd, BitVec.setWidth_xor, BitVec.setWidth_xor, mulMod_xor,
    gfMul_setWidth h ha hb, gfMul_setWidth h ha hc]

theorem gfMul_one (h : AcceptedPoly poly) (ha : IsElement (degree poly) a) : gfMul (fieldOf poly) a 1 = a := by
  rcases element_cases h ha with rfl | ⟨i, -, rfl⟩
  · exact gfMul_zero_left _ _
  rw [← alphaPow_zero h, gfMul_alphaPow h, Nat.add_zero]

/-- The inverse of α^i is α^(LOGMOD - i). -/
theorem gfMul_inverse (h : AcceptedPoly poly) (ha : IsElement (degree poly) a) (h0 : a ≠ 0) :
    gfMul (fieldOf poly) a (alphaPow (fieldOf poly)
      (logMod (degree poly) - ((fieldOf poly).log.get a.toNat).toNat)) = 1 := by
  obtain ⟨i, hi, rfl⟩ := exists_alphaPow h ha h0
  rw [log_alphaPow h, Nat.mod_eq_of_lt hi, gfMul_alphaPow h, Nat.add_sub_cancel' hi.le, ← alphaPow_mod, Nat.mod_self,
    alphaPow_zero h]

theorem alog_log (h : AcceptedPoly poly) (ha : IsElement (degree poly) a) (h0 : a ≠ 0) :
    (fieldOf poly).alog.get ((fieldOf poly).log.get a.toNat).toNat = a := by
  obtain ⟨i, hi, rfl⟩ := exists_alphaPow h ha h0
  rw [log_alphaPow h]
  rfl

theorem log_alog (h : AcceptedPoly poly) {e : Nat} (he : e < logMod (degree poly)) :
    ((fieldOf poly).log.get ((fieldOf poly).alog.get e).toNat).toNat = e := by
  have hlog := log_alphaPow h e
  rwa [alphaPow_of_lt he, Nat.mod_eq_of_lt he] at hlog

theorem gfPow_two (h : AcceptedPoly poly) (e : Nat) : gfPow (fieldOf poly) 2 e = alphaPow (fieldOf poly) e := by
  induction e with
  | zero => exact (alphaPow_zero h).symm
  | succ e ih => rw [gfPow, ih, ← alphaPow_one h, gfMul_alphaPow h]

end Sys2Proof.Machine
end

section
/-! PROOFS. The statements of 41_gf.md. -/
namespace Sys2Proof.Machine

/-- Settles O26, from doubling as arithmetic and its bound. -/
theorem powersOfXReduceByThePolynomial : Obligations.PowersOfXReduceByThePolynomial := fun _ _ hm h1 h2 =>
  ⟨fun _ hp => ⟨timesX_toNat h1 hp, timesX_lt_two_pow h1 h2 hp⟩, rfl, fun e => ⟨xPow_lt_two_pow hm h1 h2 e, rfl⟩⟩

/-- Settles O27: the tables are the model's own, read entry by entry. -/
theorem gfInitBuildsTheField : Obligations.GfInitBuildsTheField := by
  intro s poly m hf hm hm' h1 h2 hinj hne
  have hl := legalPoly_of_bounds hm hm' h1 h2
  obtain rfl := degree_unique h1 h2
  have hp : isPrimitive poly = true := (isPrimitive_iff poly).mpr ⟨hinj, hne⟩
  have hlm : 2 ^ degree poly - 1 ≤ 255 := (logMod_bounds ⟨hm, hm'⟩).2
  refine ⟨logTable poly, alogTable poly,
    exec_of_check_none (.gfInit poly) hf ((checkGfInit_eq_none_iff poly s).mpr ⟨hl, hp⟩), fun e he => ⟨?_, ?_⟩,
    fun e he => ?_, logTable_get_of_notPower fun e he h0 => hne e he (BitVec.eq_of_toNat_eq h0),
    fun a ha => logTable_get_of_notPower fun e _ hea => ?_⟩
  · rw [← alphaPow_of_lt he, alphaPow_toNat ⟨hl, hp⟩]
  · rw [logTable_get_xPow hl hp he, BitVec.toNat_ofNat]
    exact Nat.mod_eq_of_lt (by omega)
  · exact (alogTable_get hl e).trans (if_neg (Nat.not_lt.mpr he))
  · have := xPow_isElement hl e
    omega

/-- Settles O28: the check that stops GF_INIT. -/
theorem gfInitRefusesABadPolynomial : Obligations.GfInitRefusesABadPolynomial := by
  refine ⟨fun s poly hf hbad => ?_, fun s poly m hf hm hm' h1 h2 hbad => ?_⟩
  · exact exec_of_check_some (.gfInit poly) hf
      (checkGfInit_of_illegal s (by rw [legalPoly_iff]; omega))
  · have hl := legalPoly_of_bounds hm hm' h1 h2
    obtain rfl := degree_unique h1 h2
    refine exec_of_check_some (.gfInit poly) hf (checkGfInit_of_notPrimitive s hl fun hp => ?_)
    obtain ⟨hinj, hne⟩ := (isPrimitive_iff poly).mp hp
    rcases hbad with ⟨i, j, hij, hj, heq⟩ | ⟨i, hi, h0⟩
    · exact hij.ne (hinj i j (hij.trans hj) hj heq)
    · exact hne i hi h0

/-- Settles O31, from the powers of α. -/
theorem tableProductIsThePolynomialProduct : Obligations.TableProductIsThePolynomialProduct :=
  fun _ h _ _ => gfMul_setWidth h

/-- Settles O32, law by law. -/
theorem fieldLawsHold : Obligations.FieldLawsHold := by
  intro poly h f lm
  refine ⟨fun a b c ha hb hc => ⟨BitVec.xor_comm a b, gfMul_comm f a b, BitVec.xor_assoc a b c,
    gfMul_assoc h ha hb hc, gfMul_gfAdd h ha hb hc, gfAdd_zero a, gfAdd_self a, gfMul_one h ha, gfMul_zero_right f a,
    gfMul_inverse h ha, alog_log h ha, gfAdd_lt ha hb, gfMul_lt f (alogTable_lt h.1) a b⟩, fun e => log_alog h,
    gfPow_two h⟩

/-- Settles O29: the check that stops GF_MUL, or its effect. -/
theorem gfMulGivesTheTableProduct : Obligations.GfMulGivesTheTableProduct := fun s a b hf =>
  ⟨fun hv => exec_of_check_some (.gfMul a b) hf (checkGfOperands_of_notReady a b hv),
    fun hv h => exec_of_check_some (.gfMul a b) hf (checkGfOperands_of_outside hv h),
    fun hv ha hb => exec_of_check_none (.gfMul a b) hf ((checkGfOperands_eq_none_iff a b s).mpr ⟨hv, ha, hb⟩)⟩

/-- Settles O30: the check that stops GF_ADD, or its effect. -/
theorem gfAddGivesTheExclusiveOr : Obligations.GfAddGivesTheExclusiveOr := fun s a b hf =>
  ⟨fun hv => exec_of_check_some (.gfAdd a b) hf (checkGfOperands_of_notReady a b hv),
    fun hv h => exec_of_check_some (.gfAdd a b) hf (checkGfOperands_of_outside hv h),
    fun hv ha hb => exec_of_check_none (.gfAdd a b) hf ((checkGfOperands_eq_none_iff a b s).mpr ⟨hv, ha, hb⟩)⟩

/-- Settles O48: a discarded command only completes, a faulting one writes the record, and each effect is an update of
the fields its rule names. -/
theorem gfCommandsFrame : Obligations.GfCommandsFrame := by
  refine ⟨fun poly s t h => ?_, fun a b s t h => ?_⟩
  · rcases command_cases h with ⟨-, rfl⟩ | ⟨-, c, -, rfl⟩ | ⟨-, -, rfl⟩ <;> rfl
  · rcases h with h | h <;> rcases command_cases h with ⟨-, rfl⟩ | ⟨-, c, -, rfl⟩ | ⟨-, -, rfl⟩ <;> rfl

end Sys2Proof.Machine
end

section
/-! SUPPORT. The checks of the RS commands, and a block of symbols as what it leaves in the state (42_rs.md R185, R187,
R190, 60_exceptions.md R234). -/
namespace Sys2Proof.Machine

variable {s : State}

/-! ### The checks -/

theorem checkRsInit_of_noField (nsym : BitVec 8) (h : s.gfValid = false) : checkRsInit nsym s = some .gfNotReady :=
  if_pos (by simp [h])

theorem checkRsInit_of_zero {nsym : BitVec 8} (h : s.gfValid = true) (hn : nsym = 0) :
    checkRsInit nsym s = some .badNsym := by
  simp [checkRsInit, h, hn]

theorem checkRsClear_of_notReady (h : s.rsValid = false) : checkRsClear s = some .rsNotReady := if_pos (by simp [h])

theorem checkRsClear_eq_none_iff (s : State) : checkRsClear s = none ↔ s.rsValid = true := by
  simp [checkRsClear]

theorem checkRsFeed_of_notReady (d : Byte) (h : s.rsValid = false) : checkRsFeed d s = some .rsNotReady :=
  if_pos (by simp [h])

theorem checkRsFeed_of_outside {d : Byte} (h : s.rsValid = true) (hd : 2 ^ s.gfM.toNat ≤ d.toNat) :
    checkRsFeed d s = some .operandRange := by
  simp [checkRsFeed, outsideField, h, hd]

theorem checkRsFeed_eq_none_iff (d : Byte) (s : State) :
    checkRsFeed d s = none ↔ s.rsValid = true ∧ IsElement s.gfM.toNat d := by
  simp [checkRsFeed, ite_some_eq_none_iff, outsideField]

variable {start count : BitVec 12}

theorem checkRsFeedcw_of_notReady (start count : BitVec 12) (h : s.rsValid = false) :
    checkRsFeedcw start count s = some .rsNotReady := if_pos (by simp [h])

theorem checkRsFeedcw_of_not_done (start count : BitVec 12) (h : s.rsValid = true) (hp : s.pkState ≠ .done) :
    checkRsFeedcw start count s = some .pkSequence := by
  simp [checkRsFeedcw, h, hp]

theorem checkRsFeedcw_of_past_cap (h : s.rsValid = true) (hp : s.pkState = .done)
    (hr : s.pkCap.toNat < start.toNat + count.toNat) : checkRsFeedcw start count s = some .cwRange := by
  simp [checkRsFeedcw, rangeEnd, h, hp, hr]

theorem checkRsFeedcw_of_outside (h : s.rsValid = true) (hp : s.pkState = .done)
    (hr : start.toNat + count.toNat ≤ s.pkCap.toNat)
    (hc : ∃ j, j < count.toNat ∧ 2 ^ s.gfM.toNat ≤ (cwWin s (start.toNat + j)).toNat) :
    checkRsFeedcw start count s = some .operandRange := by
  simp [checkRsFeedcw, rangeEnd, h, hp, Nat.not_lt.mpr hr, cwRange_eq_map, outsideField, hc]

theorem checkRsFeedcw_eq_none_iff (start count : BitVec 12) (s : State) :
    checkRsFeedcw start count s = none ↔
      s.rsValid = true ∧ s.pkState = .done ∧ start.toNat + count.toNat ≤ s.pkCap.toNat ∧
      ∀ j, j < count.toNat → (cwWin s (start.toNat + j)).toNat < 2 ^ s.gfM.toNat := by
  simp only [checkRsFeedcw, ite_some_eq_none_iff]
  simp [rangeEnd, cwRange_eq_map, outsideField]

/-! ### A block of symbols -/

/-- What feeding the symbols ds leaves of a state: R divided by each in order, and their number added to RS_COUNT. -/
def afterFeeds (ds : List Byte) (s : State) : State :=
  { s with
    r := divSteps (currentField s) s.g s.rsNsym.toNat s.r ds
    rsCount := s.rsCount + BitVec.ofNat 32 ds.length }

theorem afterFeeds_cons (d : Byte) (ds : List Byte) (s : State) :
    afterFeeds (d :: ds) s = afterFeeds ds (effectRsFeed d s) := by
  have hcount : BitVec.ofNat 32 (ds.length + 1) = 1 + BitVec.ofNat 32 ds.length := by
    rw [Nat.add_comm, BitVec.ofNat_add]
    rfl
  simp only [afterFeeds, List.length_cons, hcount, ← BitVec.add_assoc]
  rfl

/-- RS_FEEDCW does what feeding its range does (R187). -/
theorem effectRsFeedcw_eq_afterFeeds (start count : BitVec 12) (s : State) :
    effectRsFeedcw start count s = afterFeeds (fedRange s start.toNat count.toNat) s := by
  simp [effectRsFeedcw, afterFeeds, fedRange_eq_map]

/-- An RS_FEED of an element has its effect, and completes. -/
theorem exec_rsFeed_of_element {d : Byte} (hf : s.fault = false) (hv : s.rsValid = true)
    (hd : IsElement s.gfM.toNat d) : exec (.rsFeed d) s = .next (complete (effectRsFeed d s)) :=
  exec_of_check_none (.rsFeed d) hf ((checkRsFeed_eq_none_iff d s).mpr ⟨hv, hd⟩)

/-- RS_FEED of each of a list of elements (R185). -/
theorem feedEach_eq_afterFeeds {ds : List Byte} (hf : s.fault = false) (hv : s.rsValid = true)
    (hp : s.pending = none) (hds : ∀ d ∈ ds, IsElement s.gfM.toNat d) :
    feedEach ds s = .next (afterFeeds ds s) := by
  induction ds generalizing s with
  | nil => simp [feedEach, afterFeeds]
  | cons d ds ih =>
    obtain ⟨hd, hrest⟩ := List.forall_mem_cons.mp hds
    have hstep : execRsFeed d s = .next (effectRsFeed d s) := by
      have hcomplete : complete (effectRsFeed d s) = effectRsFeed d s := by
        simp [complete, effectRsFeed, hp]
      rw [← hcomplete]
      exact exec_rsFeed_of_element hf hv hd
    rw [feedEach, hstep, afterFeeds_cons]
    exact ih hf hv hp hrest

/-- RS_FEEDCW of a legal range of elements has its effect, and completes (R187). -/
theorem exec_rsFeedcw_of_elements (hf : s.fault = false) (hv : s.rsValid = true) (hp : s.pkState = .done)
    (hr : start.toNat + count.toNat ≤ s.pkCap.toNat)
    (hc : ∀ j, j < count.toNat → (cwWin s (start.toNat + j)).toNat < 2 ^ s.gfM.toNat) :
    exec (.rsFeedcw start count) s =
      .next (complete (afterFeeds (fedRange s start.toNat count.toNat) s)) := by
  rw [← effectRsFeedcw_eq_afterFeeds]
  exact exec_of_check_none (.rsFeedcw start count) hf
    ((checkRsFeedcw_eq_none_iff start count s).mpr ⟨hv, hp, hr, hc⟩)

/-- A codeword below 2^GF_M, GF_M at most 8, is the byte that is fed (R188). -/
theorem setWidth_cwWin {i : Nat} (hm : s.gfM.toNat ≤ 8) (hc : (cwWin s i).toNat < 2 ^ s.gfM.toNat) :
    ((cwWin s i).setWidth 8).toNat = (cwWin s i).toNat := by
  have h256 : 2 ^ s.gfM.toNat ≤ 2 ^ 8 := Nat.pow_le_pow_right (by decide) hm
  rw [BitVec.toNat_setWidth, Nat.mod_eq_of_lt (by omega)]

/-- The symbols of a range of elements are elements. -/
theorem fedRange_isElement {start count : Nat} (hm : s.gfM.toNat ≤ 8)
    (hc : ∀ j, j < count → (cwWin s (start + j)).toNat < 2 ^ s.gfM.toNat) :
    ∀ d ∈ fedRange s start count, IsElement s.gfM.toNat d := by
  simp only [fedRange_eq_map, List.forall_mem_map, List.mem_range]
  intro j hj
  rw [IsElement, setWidth_cwWin hm (hc j hj)]
  exact hc j hj

/-- The symbols of a range of elements, as words, are its codewords. -/
theorem fedRange_map_setWidth {start count : Nat} (hm : s.gfM.toNat ≤ 8)
    (hc : ∀ j, j < count → (cwWin s (start + j)).toNat < 2 ^ s.gfM.toNat) :
    (fedRange s start count).map (BitVec.setWidth 32) = (List.range count).map fun j => cwWin s (start + j) := by
  rw [fedRange_eq_map, List.map_map]
  refine List.map_congr_left fun j hj => BitVec.eq_of_toNat_eq ?_
  rw [Function.comp_apply, BitVec.toNat_setWidth_of_le (by decide), setWidth_cwWin hm (hc j (List.mem_range.mp hj))]

/-- The state RS_CLEAR leaves (R184). -/
theorem exec_rsClear_of_ready (hf : s.fault = false) (hv : s.rsValid = true) :
    exec .rsClear s = .next (complete (effectRsClear s)) :=
  exec_of_check_none .rsClear hf ((checkRsClear_eq_none_iff s).mpr hv)

/-- RS_CLEAR leaves the packer's codewords as they are. -/
theorem fedRange_clear (s : State) (start count : Nat) :
    fedRange (complete (effectRsClear s)) start count = fedRange s start count := by
  rw [fedRange_eq_map, fedRange_eq_map]
  rfl

/-- After RS_CLEAR and the symbols ds the ECC window holds their ECC (R189, R190). -/
theorem eccWords_afterFeeds_clear (hv : s.rsValid = true) (ds : List Byte) :
    eccWords (afterFeeds ds (complete (effectRsClear s))) =
      (eccOf (currentField s) s.g s.rsNsym.toNat ds).map (BitVec.setWidth 32) :=
  eccWords_eq (s := afterFeeds ds (complete (effectRsClear s))) hv

/-- After RS_CLEAR and the symbols ds the systematic codeword is their own (R190). -/
theorem systematicCodeword_afterFeeds_clear (hv : s.rsValid = true) (ds : List Byte) :
    systematicCodeword ds (afterFeeds ds (complete (effectRsClear s))) =
      (ds ++ eccOf (currentField s) s.g s.rsNsym.toNat ds).map (BitVec.setWidth 32) := by
  rw [systematicCodeword, eccWords_afterFeeds_clear hv, List.map_append]

/-- A host that reads the ECC window reads its words in order. -/
theorem regRead_eccWindow (t : State) :
    (List.range t.rsNsym.toNat).map (fun j => regRead t (BitVec.ofNat 15 (0x1400 + 4 * j))) = eccWords t := by
  refine List.map_congr_left fun j hj => ?_
  have hj' : j < 256 := lt_trans (List.mem_range.mp hj) t.rsNsym.isLt
  rw [regRead_ofNat t (by omega) (regAt_eccWin hj')]
  rfl

end Sys2Proof.Machine
end

section
/-! SUPPORT. Polynomials over the field as lists of coefficients, the highest degree first: their sums, products and
values (42_rs.md R180, R183, R191). -/
namespace Sys2Proof.Machine

/-! ### Sums, symbol by symbol (R156) -/

theorem gfAdd_comm (a b : Byte) : gfAdd a b = gfAdd b a := BitVec.xor_comm a b

theorem gfAdd_assoc (a b c : Byte) : gfAdd (gfAdd a b) c = gfAdd a (gfAdd b c) := BitVec.xor_assoc a b c

@[simp] theorem zero_gfAdd (a : Byte) : gfAdd 0 a = a := BitVec.zero_xor

theorem gfAdd_cancel_left (a b : Byte) : gfAdd a (gfAdd a b) = b := by
  rw [← gfAdd_assoc, gfAdd_self, zero_gfAdd]

/-- The sum of two sums, term by term. -/
theorem gfAdd_gfAdd_gfAdd_comm (a b c d : Byte) :
    gfAdd (gfAdd a b) (gfAdd c d) = gfAdd (gfAdd a c) (gfAdd b d) := by
  simp only [gfAdd]
  ac_rfl

theorem zipWith_gfAdd_comm (p q : List Byte) : List.zipWith gfAdd p q = List.zipWith gfAdd q p :=
  List.zipWith_comm_of_comm gfAdd_comm

theorem zipWith_gfAdd_assoc (p q r : List Byte) :
    List.zipWith gfAdd (List.zipWith gfAdd p q) r = List.zipWith gfAdd p (List.zipWith gfAdd q r) := by
  rw [List.zipWith_zipWith_left, List.zipWith_zipWith_right]
  simp only [gfAdd_assoc]

theorem zipWith_gfAdd_zeros {p : List Byte} {n : Nat} (h : p.length = n) :
    List.zipWith gfAdd p (List.replicate n 0) = p := by
  subst h
  induction p with
  | nil => rfl
  | cons a p ih => rw [List.length_cons, List.replicate_succ, List.zipWith_cons_cons, ih, gfAdd_zero]

theorem zeros_zipWith_gfAdd {p : List Byte} {n : Nat} (h : p.length = n) :
    List.zipWith gfAdd (List.replicate n 0) p = p :=
  (zipWith_gfAdd_comm _ _).trans (zipWith_gfAdd_zeros h)

/-! ### Products -/

section
variable (f : GaloisField)

theorem polyMul_length (p : List Byte) {q : List Byte} (hq : q ≠ []) :
    (polyMul f p q).length = p.length + (q.length - 1) := by
  have hpos := List.length_pos_iff.mpr hq
  induction p with
  | nil => simp [polyMul]
  | cons a p ih =>
    simp only [polyMul, List.length_zipWith, List.length_append, List.length_map, List.length_replicate,
      List.length_cons, ih]
    omega

/-- One more coefficient at the low end: (p x + b) q = (p q) x + b q. -/
theorem polyMul_append_singleton (p : List Byte) (b : Byte) {q : List Byte} (hq : q ≠ []) :
    polyMul f (p ++ [b]) q =
      List.zipWith gfAdd (polyMul f p q ++ [0]) (List.replicate p.length 0 ++ q.map (gfMul f b)) := by
  have hpos := List.length_pos_iff.mpr hq
  have hsucc : q.length - 1 + 1 = q.length := by omega
  induction p with
  | nil =>
    have hzero : (0 : Byte) :: List.replicate (q.length - 1) 0 = List.replicate q.length 0 := by
      rw [← List.replicate_succ, hsucc]
    simp only [List.nil_append, polyMul, List.length_nil, List.replicate_zero, List.append_nil,
      ← List.replicate_succ', hsucc, hzero]
    exact zipWith_gfAdd_comm _ _
  | cons a p ih =>
    have hlen : (q.map (gfMul f a) ++ List.replicate p.length 0).length = (0 :: polyMul f p q).length := by
      simp only [List.length_append, List.length_map, List.length_replicate, List.length_cons, polyMul_length f p hq]
      omega
    rw [List.cons_append, polyMul, ih, List.length_append, List.length_singleton, List.replicate_succ',
      ← List.append_assoc]
    calc
      _ = List.zipWith gfAdd ((q.map (gfMul f a) ++ List.replicate p.length 0) ++ [0])
            (List.zipWith gfAdd ((0 :: polyMul f p q) ++ [0])
              (List.replicate (p.length + 1) 0 ++ q.map (gfMul f b))) := rfl
      _ = _ := by
          rw [← zipWith_gfAdd_assoc, List.zipWith_append hlen]
          rfl

end

/-! ### Values by Horner's rule -/

theorem polyEval_append_singleton (f : GaloisField) (x : Byte) (p : List Byte) (c : Byte) :
    polyEval f x (p ++ [c]) = gfAdd (gfMul f (polyEval f x p) x) c := by
  rw [polyEval, List.foldl_append]
  rfl

theorem polyEval_zeros_append (f : GaloisField) (x : Byte) (n : Nat) (p : List Byte) :
    polyEval f x (List.replicate n 0 ++ p) = polyEval f x p := by
  induction n with
  | zero => rfl
  | succ n ih =>
    rw [← ih, List.replicate_succ, List.cons_append, polyEval, List.foldl_cons, gfMul_zero_left, gfAdd_zero]
    rfl

/-! ### Lists of elements -/

theorem zeros_isElement (m n : Nat) : ∀ c ∈ List.replicate n 0, IsElement m c := fun _ hc =>
  List.eq_of_mem_replicate hc ▸ isElement_zero m

theorem zipWith_gfAdd_isElement {m : Nat} {p q : List Byte} (hp : ∀ c ∈ p, IsElement m c)
    (hq : ∀ c ∈ q, IsElement m c) : ∀ c ∈ List.zipWith gfAdd p q, IsElement m c := by
  intro c hc
  obtain ⟨i, hi, rfl⟩ := List.mem_iff_getElem.mp hc
  rw [List.getElem_zipWith]
  exact gfAdd_lt (hp _ (List.getElem_mem _)) (hq _ (List.getElem_mem _))

section
variable {poly : BitVec 16} (h : AcceptedPoly poly)
include h

theorem gfMul_isElement (a b : Byte) : IsElement (degree poly) (gfMul (fieldOf poly) a b) :=
  gfMul_lt (fieldOf poly) (alogTable_lt h.1) a b

theorem gfAdd_gfMul {a b c : Byte} (ha : IsElement (degree poly) a) (hb : IsElement (degree poly) b)
    (hc : IsElement (degree poly) c) :
    gfMul (fieldOf poly) (gfAdd a b) c = gfAdd (gfMul (fieldOf poly) a c) (gfMul (fieldOf poly) b c) := by
  rw [gfMul_comm, gfMul_gfAdd h hc ha hb, gfMul_comm _ c, gfMul_comm _ c]

/-- Products are elements, whatever is multiplied. -/
theorem polyMul_isElement (p q : List Byte) :
    ∀ c ∈ polyMul (fieldOf poly) p q, IsElement (degree poly) c := by
  induction p with
  | nil => exact zeros_isElement _ _
  | cons a p ih =>
    exact zipWith_gfAdd_isElement
      (List.forall_mem_append.mpr
        ⟨List.forall_mem_map.mpr fun b _ => gfMul_isElement h a b, zeros_isElement _ _⟩)
      (List.forall_mem_cons.mpr ⟨isElement_zero _, ih⟩)

/-- The product with a linear factor: p (x + r) = p x + r p. -/
theorem polyMul_linear {p : List Byte} (hp : ∀ c ∈ p, IsElement (degree poly) c) (r : Byte) :
    polyMul (fieldOf poly) p [1, r] =
      List.zipWith gfAdd (p ++ [0]) (0 :: p.map fun c => gfMul (fieldOf poly) c r) := by
  induction p with
  | nil => rfl
  | cons a p ih =>
    obtain ⟨ha, hrest⟩ := List.forall_mem_cons.mp hp
    have hcarry : List.zipWith gfAdd (gfMul (fieldOf poly) a r :: List.replicate p.length 0)
        (0 :: p.map fun c => gfMul (fieldOf poly) c r) =
          gfMul (fieldOf poly) a r :: p.map fun c => gfMul (fieldOf poly) c r := by
      rw [List.zipWith_cons_cons, zeros_zipWith_gfAdd (List.length_map _), gfAdd_zero]
    simp only [polyMul, ih hrest, List.map_cons, List.map_nil, gfMul_one h ha, List.cons_append, List.nil_append,
      List.zipWith_cons_cons]
    rw [zipWith_gfAdd_comm (p ++ [0]), ← zipWith_gfAdd_assoc, hcarry, zipWith_gfAdd_comm]

/-! ### Values -/

theorem polyEval_isElement (x : Byte) {p : List Byte} (hp : ∀ c ∈ p, IsElement (degree poly) c) :
    IsElement (degree poly) (polyEval (fieldOf poly) x p) := by
  obtain rfl | ⟨p, c, rfl⟩ := List.eq_nil_or_concat' p
  · exact isElement_zero _
  · rw [polyEval_append_singleton]
    exact gfAdd_lt (gfMul_isElement h _ _) (hp c (by simp))

variable {x : Byte} (hx : IsElement (degree poly) x)
include hx

/-- The value of a sum is the sum of the values. -/
theorem polyEval_zipWith_gfAdd {p q : List Byte} (hl : p.length = q.length)
    (hp : ∀ c ∈ p, IsElement (degree poly) c) (hq : ∀ c ∈ q, IsElement (degree poly) c) :
    polyEval (fieldOf poly) x (List.zipWith gfAdd p q) =
      gfAdd (polyEval (fieldOf poly) x p) (polyEval (fieldOf poly) x q) := by
  induction p using List.reverseRecOn generalizing q with
  | nil => obtain rfl := List.length_eq_zero_iff.mp hl.symm; exact (gfAdd_zero 0).symm
  | append_singleton p a ih =>
    obtain rfl | ⟨q, b, rfl⟩ := List.eq_nil_or_concat' q
    · simp at hl
    have hl' : p.length = q.length := by simpa using hl
    simp only [List.forall_mem_append] at hp hq
    rw [List.zipWith_append hl', List.zipWith_cons_cons, List.zipWith_nil_left, polyEval_append_singleton,
      polyEval_append_singleton, polyEval_append_singleton, ih hl' hp.1 hq.1,
      gfAdd_gfMul h (polyEval_isElement h x hp.1) (polyEval_isElement h x hq.1) hx, gfAdd_gfAdd_gfAdd_comm]

/-- The value of a multiple is the multiple of the value. -/
theorem polyEval_map_gfMul {b : Byte} (hb : IsElement (degree poly) b) {q : List Byte}
    (hq : ∀ c ∈ q, IsElement (degree poly) c) :
    polyEval (fieldOf poly) x (q.map (gfMul (fieldOf poly) b)) =
      gfMul (fieldOf poly) b (polyEval (fieldOf poly) x q) := by
  induction q using List.reverseRecOn with
  | nil => exact (gfMul_zero_right _ _).symm
  | append_singleton q c ih =>
    simp only [List.forall_mem_append, List.forall_mem_singleton] at hq
    rw [List.map_append, List.map_singleton, polyEval_append_singleton, polyEval_append_singleton, ih hq.1,
      gfMul_gfAdd h hb (gfMul_isElement h _ _) hq.2, gfMul_assoc h hb (polyEval_isElement h x hq.1) hx]

/-- The value of a product is the product of the values. -/
theorem polyEval_polyMul {p q : List Byte} (hp : ∀ c ∈ p, IsElement (degree poly) c)
    (hq : ∀ c ∈ q, IsElement (degree poly) c) (hne : q ≠ []) :
    polyEval (fieldOf poly) x (polyMul (fieldOf poly) p q) =
      gfMul (fieldOf poly) (polyEval (fieldOf poly) x p) (polyEval (fieldOf poly) x q) := by
  have hpos := List.length_pos_iff.mpr hne
  have hEq := polyEval_isElement h x hq
  induction p using List.reverseRecOn with
  | nil =>
    rw [polyMul, ← List.append_nil (List.replicate _ _), polyEval_zeros_append]
    exact (gfMul_zero_left _ _).symm
  | append_singleton p b ih =>
    simp only [List.forall_mem_append, List.forall_mem_singleton] at hp
    have hEp := polyEval_isElement h x hp.1
    have hlen : (polyMul (fieldOf poly) p q ++ [0]).length =
        (List.replicate p.length 0 ++ q.map (gfMul (fieldOf poly) b)).length := by
      simp only [List.length_append, List.length_singleton, List.length_replicate, List.length_map,
        polyMul_length (fieldOf poly) p hne]
      omega
    have hhigh : ∀ c ∈ polyMul (fieldOf poly) p q ++ [0], IsElement (degree poly) c :=
      List.forall_mem_append.mpr ⟨polyMul_isElement h p q, List.forall_mem_singleton.mpr (isElement_zero _)⟩
    have hlow : ∀ c ∈ List.replicate p.length 0 ++ q.map (gfMul (fieldOf poly) b), IsElement (degree poly) c :=
      List.forall_mem_append.mpr
        ⟨zeros_isElement _ _, List.forall_mem_map.mpr fun c _ => gfMul_isElement h b c⟩
    calc
      _ = gfAdd (gfMul (fieldOf poly) (polyEval (fieldOf poly) x (polyMul (fieldOf poly) p q)) x)
            (gfMul (fieldOf poly) b (polyEval (fieldOf poly) x q)) := by
          rw [polyMul_append_singleton _ p b hne, polyEval_zipWith_gfAdd h hx hlen hhigh hlow,
            polyEval_append_singleton, gfAdd_zero, polyEval_zeros_append, polyEval_map_gfMul h hx hp.2 hq]
      _ = gfMul (fieldOf poly) (gfAdd (gfMul (fieldOf poly) (polyEval (fieldOf poly) x p) x) b)
            (polyEval (fieldOf poly) x q) := by
          rw [ih hp.1, gfAdd_gfMul h (gfMul_isElement h _ _) hp.2 hEq, gfMul_assoc h hEp hEq hx,
            gfMul_assoc h hEp hx hEq, gfMul_comm _ x]
      _ = _ := by rw [polyEval_append_singleton]

end
end Sys2Proof.Machine
end

section
/-! SUPPORT. The generator as a product of linear factors, and the division steps as the coefficients of a product and
as a linear map (42_rs.md R182, R183, R186, R191, R192). -/
namespace Sys2Proof.Machine

/-! ### Coefficients held in a table -/

@[simp] theorem coefficients_length (t : Table) (n : Nat) : (coefficients t n).length = n + 1 := by
  simp [coefficients]

theorem coefficients_ne_nil (t : Table) (n : Nat) : coefficients t n ≠ [] :=
  List.ne_nil_of_length_eq_add_one (coefficients_length t n)

@[simp] theorem coefficients_getElem (t : Table) (n : Nat) {j : Nat} (hj : j < (coefficients t n).length) :
    (coefficients t n)[j] = t.get (n - j) := by
  simp [coefficients]

theorem coefficients_isElement {m : Nat} {t : Table} (ht : ∀ k, IsElement m (t.get k)) (n : Nat) :
    ∀ c ∈ coefficients t n, IsElement m c :=
  List.forall_mem_map.mpr fun _ _ => ht _

@[simp] theorem eccList_length (r : Table) (n : Nat) : (eccList r n).length = n := by
  simp [eccList]

@[simp] theorem eccList_getElem (r : Table) (n : Nat) {j : Nat} (hj : j < (eccList r n).length) :
    (eccList r n)[j] = r.get (n - 1 - j) := by
  simp [eccList]

theorem eccList_zero (n : Nat) : eccList Table.zero n = List.replicate n 0 := by
  simp [eccList]

/-! ### The generator (R182, R183) -/

/-- One pass of GenPoly, entry by entry. -/
theorem genPoly_succ_get (f : GaloisField) {n : Nat} (hn : n + 1 < 256) (idx k : Nat) :
    (genPoly f (n + 1) idx).get k =
      if k = 0 then gfMul f ((genPoly f n idx).get 0) (f.alog.get ((idx + n) % logMod f.m))
      else if k < n + 1 then
        gfAdd (gfMul f ((genPoly f n idx).get k) (f.alog.get ((idx + n) % logMod f.m))) ((genPoly f n idx).get (k - 1))
      else if k = n + 1 then 1
      else (genPoly f n idx).get k :=
  genPass_get f _ (n + 1) _ k (by omega) hn

theorem genPoly_get_of_ge (f : GaloisField) {n k : Nat} (hn : n < 256) (hk : n ≤ k) (idx : Nat) :
    (genPoly f n idx).get k = if k = n then 1 else 0 :=
  genPasses_top f idx n k hn hk

theorem genPoly_monic (f : GaloisField) {n : Nat} (hn : n < 256) (idx : Nat) : (genPoly f n idx).get n = 1 :=
  (genPoly_get_of_ge f hn le_rfl idx).trans (if_pos rfl)

section
variable {poly : BitVec 16} (h : AcceptedPoly poly)
include h

theorem alog_isElement (k : Nat) : IsElement (degree poly) ((fieldOf poly).alog.get k) := alogTable_lt h.1 k

theorem gfMul_ne_zero {a b : Byte} (ha : a ≠ 0) (hb : b ≠ 0) : gfMul (fieldOf poly) a b ≠ 0 := by
  rw [gfMul, if_neg (not_or.mpr ⟨ha, hb⟩)]
  exact alphaPow_ne_zero h _

theorem genPoly_isElement {n : Nat} (hn : n < 256) (idx k : Nat) :
    IsElement (degree poly) ((genPoly (fieldOf poly) n idx).get k) :=
  genPoly_lt (f := fieldOf poly) (le_trans (by decide) (degree_of_legal h.1).1) (alogTable_lt h.1) hn idx k

/-- The constant term is a product of powers of α. -/
theorem genPoly_constant_ne_zero {n : Nat} (hn : n < 256) (idx : Nat) :
    (genPoly (fieldOf poly) n idx).get 0 ≠ 0 := by
  induction n with
  | zero => rw [genPoly, genPasses, genStart_get]; decide
  | succ n ih =>
    rw [genPoly_succ_get _ hn, if_pos rfl]
    exact gfMul_ne_zero h (ih (by omega)) (alphaPow_ne_zero h (idx + n))

/-- One pass of GenPoly multiplies by the next linear factor. -/
theorem coefficients_genPoly_succ {n : Nat} (hn : n + 1 < 256) (idx : Nat) :
    coefficients (genPoly (fieldOf poly) (n + 1) idx) (n + 1) =
      polyMul (fieldOf poly) (coefficients (genPoly (fieldOf poly) n idx) n)
        [1, (fieldOf poly).alog.get ((idx + n) % logMod (degree poly))] := by
  rw [polyMul_linear h (coefficients_isElement (genPoly_isElement h (by omega) idx) n)]
  refine List.ext_getElem (by simp) fun j hj _ => ?_
  rw [coefficients_length] at hj
  rw [coefficients_getElem, genPoly_succ_get _ hn]
  simp only [List.getElem_zipWith, List.getElem_append, List.getElem_cons, List.getElem_map, coefficients_length,
    coefficients_getElem]
  obtain rfl | rfl | ⟨hpos, hle⟩ : j = 0 ∨ j = n + 1 ∨ (0 < j ∧ j ≤ n) := by omega
  · rw [if_neg (by omega), if_neg (by omega), if_pos (by omega), dif_pos (by omega), dif_pos rfl, Nat.sub_zero,
      genPoly_monic _ (by omega), gfAdd_zero]
  · rw [if_pos (by omega), dif_neg (by omega), dif_pos (by omega), dif_neg (by omega), zero_gfAdd,
      show n - (n + 1 - 1) = 0 by omega]
    rfl
  · rw [if_neg (by omega), if_pos (by omega), dif_pos (by omega), dif_neg (by omega), gfAdd_comm,
      show n + 1 - j - 1 = n - j by omega, show n - (j - 1) = n + 1 - j by omega]
    rfl

theorem polyEval_linear_root {x : Byte} (hx : IsElement (degree poly) x) :
    polyEval (fieldOf poly) x [1, x] = 0 := by
  have hone : gfMul (fieldOf poly) 1 x = x := (gfMul_comm _ _ _).trans (gfMul_one h hx)
  simp only [polyEval, List.foldl_cons, List.foldl_nil, gfMul_zero_left, zero_gfAdd, hone, gfAdd_self]

/-- Every root of a factor is a root of the generator. -/
theorem polyEval_generator_root {n i : Nat} (hn : n < 256) (hi : i < n) (idx : Nat) :
    polyEval (fieldOf poly) ((fieldOf poly).alog.get ((idx + i) % logMod (degree poly)))
      (coefficients (genPoly (fieldOf poly) n idx) n) = 0 := by
  have hroot := alog_isElement h ((idx + i) % logMod (degree poly))
  induction n with
  | zero => omega
  | succ n ih =>
    rw [coefficients_genPoly_succ h hn, polyEval_polyMul h hroot
      (coefficients_isElement (genPoly_isElement h (by omega) idx) n) _ (List.cons_ne_nil _ _)]
    · rcases Nat.lt_succ_iff_lt_or_eq.mp hi with hlt | rfl
      · rw [ih (by omega) hlt, gfMul_zero_left]
      · rw [polyEval_linear_root h hroot, gfMul_zero_right]
    · exact List.forall_mem_cons.mpr ⟨isElement_one (le_trans (by decide) (degree_of_legal h.1).1),
        List.forall_mem_singleton.mpr (alog_isElement h _)⟩

/-! ### Division as a product (R186, R191) -/

/-- One division step subtracts the feedback symbol times the generator: R shifted up one degree, plus that multiple, is
the symbol fed followed by the new R. -/
theorem eccList_divStep {n : Nat} (h1 : 1 ≤ n) (h2 : n < 256) {g r : Table} {d : Byte} (hg : g.get n = 1)
    (hr : ∀ k, IsElement (degree poly) (r.get k)) (hd : IsElement (degree poly) d) :
    List.zipWith gfAdd (eccList r n ++ [0])
        ((coefficients g n).map (gfMul (fieldOf poly) (gfAdd (r.get (n - 1)) d))) =
      d :: eccList (divStep (fieldOf poly) g n r d) n := by
  have hone := gfMul_one h (gfAdd_lt (hr (n - 1)) hd)
  refine List.ext_getElem (by simp) fun j hj _ => ?_
  have hj' : j < n + 1 := by simpa using hj
  simp only [List.getElem_zipWith, List.getElem_append, List.getElem_cons, List.getElem_map, eccList_length,
    eccList_getElem, coefficients_getElem, divStep_get _ _ _ _ _ _ h1 h2.le]
  obtain rfl | rfl | ⟨hpos, hlt⟩ : j = 0 ∨ j = n ∨ (0 < j ∧ j < n) := by omega
  · rw [dif_pos (by omega), dif_pos rfl, Nat.sub_zero, Nat.sub_zero, hg, hone, gfAdd_cancel_left]
  · rw [dif_neg (by omega), dif_pos (by omega), dif_neg (by omega), if_pos (by omega), Nat.sub_self, zero_gfAdd]
  · rw [dif_pos (by omega), dif_neg (by omega), if_neg (by omega), if_pos (by omega),
      show n - 1 - (j - 1) = n - j by omega, show n - 1 - j = n - j - 1 by omega]

/-- Dividing elements from a clear remainder leaves elements. -/
theorem divSteps_isElement {n : Nat} (h1 : 1 ≤ n) (h2 : n < 256) (g : Table) (ds : List Byte) (k : Nat) :
    IsElement (degree poly) ((divSteps (fieldOf poly) g n Table.zero ds).get k) :=
  (divSteps_induction (fieldOf poly) (P := IsRemainder (degree poly) n)
    (fun _ hr _ _ => divStep_isRemainder (f := fieldOf poly) (alogTable_lt h.1) h1 h2.le hr)
    (isRemainder_zero _ _) k).1

/-- The remainder property: the feedback symbols, in order, are the coefficients of the quotient (R191). -/
theorem exists_quotient {n : Nat} (h1 : 1 ≤ n) (h2 : n < 256) {g : Table} (hg : g.get n = 1) {ds : List Byte}
    (hds : ∀ d ∈ ds, IsElement (degree poly) d) :
    ∃ q : List Byte, q.length = ds.length ∧ (∀ c ∈ q, IsElement (degree poly) c) ∧
      polyMul (fieldOf poly) q (coefficients g n) = ds ++ eccOf (fieldOf poly) g n ds := by
  induction ds using List.reverseRecOn with
  | nil =>
    refine ⟨[], rfl, by simp, ?_⟩
    rw [polyMul, coefficients_length]
    exact (eccList_zero n).symm
  | append_singleton ds d ih =>
    simp only [List.forall_mem_append, List.forall_mem_singleton] at hds
    obtain ⟨q, hlen, hq, hprod⟩ := ih hds.1
    have hr := divSteps_isElement h h1 h2 g ds
    refine ⟨q ++ [gfAdd ((divSteps (fieldOf poly) g n Table.zero ds).get (n - 1)) d], by simp [hlen],
      List.forall_mem_append.mpr ⟨hq, List.forall_mem_singleton.mpr (gfAdd_lt (hr _) hds.2)⟩, ?_⟩
    rw [polyMul_append_singleton _ _ _ (coefficients_ne_nil g n), hprod, hlen, eccOf, List.append_assoc,
      List.zipWith_append (by simp), zipWith_gfAdd_zeros rfl, eccList_divStep h h1 h2 hg hr hds.2,
      eccOf, divSteps_append, List.append_assoc]
    rfl

/-! ### Division as a linear map (R192) -/

/-- A division step of sums is the sum of the division steps. -/
theorem divStep_gfAdd {n : Nat} (h1 : 1 ≤ n) (h2 : n < 256) {g r r' r'' : Table} {d d' : Byte}
    (hg : ∀ k, IsElement (degree poly) (g.get k)) (hr : ∀ k, IsElement (degree poly) (r.get k))
    (hr' : ∀ k, IsElement (degree poly) (r'.get k)) (hd : IsElement (degree poly) d)
    (hd' : IsElement (degree poly) d') (hsum : ∀ k, r''.get k = gfAdd (r.get k) (r'.get k)) (k : Nat) :
    (divStep (fieldOf poly) g n r'' (gfAdd d d')).get k =
      gfAdd ((divStep (fieldOf poly) g n r d).get k) ((divStep (fieldOf poly) g n r' d').get k) := by
  have hmul : ∀ j, gfMul (fieldOf poly) (gfAdd (r''.get (n - 1)) (gfAdd d d')) (g.get j) =
      gfAdd (gfMul (fieldOf poly) (gfAdd (r.get (n - 1)) d) (g.get j))
        (gfMul (fieldOf poly) (gfAdd (r'.get (n - 1)) d') (g.get j)) := fun j => by
    rw [hsum, gfAdd_gfAdd_gfAdd_comm, gfAdd_gfMul h (gfAdd_lt (hr _) hd) (gfAdd_lt (hr' _) hd') (hg j)]
  simp only [divStep_get _ _ _ _ _ _ h1 h2.le, hmul]
  split_ifs
  · rfl
  · rw [hsum, gfAdd_gfAdd_gfAdd_comm]
  · exact hsum k

/-- The remainder of sums, symbol by symbol, is the sum of the remainders. -/
theorem divSteps_zipWith_gfAdd {n : Nat} (h1 : 1 ≤ n) (h2 : n < 256) {g : Table}
    (hg : ∀ k, IsElement (degree poly) (g.get k)) {ds ds' : List Byte} (hl : ds.length = ds'.length)
    (hds : ∀ d ∈ ds, IsElement (degree poly) d) (hds' : ∀ d ∈ ds', IsElement (degree poly) d) (k : Nat) :
    (divSteps (fieldOf poly) g n Table.zero (List.zipWith gfAdd ds ds')).get k =
      gfAdd ((divSteps (fieldOf poly) g n Table.zero ds).get k)
        ((divSteps (fieldOf poly) g n Table.zero ds').get k) := by
  induction ds using List.reverseRecOn generalizing ds' k with
  | nil =>
    obtain rfl := List.length_eq_zero_iff.mp hl.symm
    rw [List.zipWith_nil_left, divSteps_nil, Table.get_zero, gfAdd_self]
  | append_singleton ds d ih =>
    obtain rfl | ⟨ds', d', rfl⟩ := List.eq_nil_or_concat' ds'
    · simp at hl
    have hl' : ds.length = ds'.length := by simpa using hl
    simp only [List.forall_mem_append, List.forall_mem_singleton] at hds hds'
    rw [List.zipWith_append hl', divSteps_append, divSteps_append, divSteps_append]
    exact divStep_gfAdd h h1 h2 hg (divSteps_isElement h h1 h2 g ds) (divSteps_isElement h h1 h2 g ds') hds.2 hds'.2
      (ih hl' hds.1 hds'.1) k

end
end Sys2Proof.Machine
end

section
/-! PROOFS. The statements of 42_rs.md. -/
namespace Sys2Proof.Machine

/-- Settles O34, factor by factor. -/
theorem generatorIsTheProductOfItsFactors : Obligations.GeneratorIsTheProductOfItsFactors := by
  intro poly nsym idx h h1 hn _ f
  clear h1
  induction nsym with
  | zero => rfl
  | succ n ih =>
    rw [List.range_succ, List.foldl_append, ← ih (by omega)]
    exact coefficients_genPoly_succ h (by omega) idx

/-- Settles O35: the passes keep the polynomial monic and its constant term a product of powers of α. -/
theorem generatorIsMonic : Obligations.GeneratorIsMonic := fun poly _ idx h _ hn _ =>
  ⟨genPoly_monic (fieldOf poly) (by omega) idx,
    fun k hk => (genPoly_get_of_ge (fieldOf poly) (by omega) hk.le idx).trans (if_neg (by omega)),
    genPoly_constant_ne_zero h (by omega) idx, genPoly_isElement h (by omega) idx⟩

/-- Settles O37: the check that stops RS_FEED, or one division step, read entry by entry. -/
theorem rsFeedDividesOneSymbol : Obligations.RsFeedDividesOneSymbol := fun s d hf hn =>
  ⟨fun hv => exec_of_check_some (.rsFeed d) hf (checkRsFeed_of_notReady d hv),
    fun hv hd => exec_of_check_some (.rsFeed d) hf (checkRsFeed_of_outside hv hd),
    fun hv hd => ⟨divStep (currentField s) s.g s.rsNsym.toNat s.r d, exec_rsFeed_of_element hf hv hd,
      fun k => divStep_get (currentField s) s.g s.rsNsym.toNat s.r d k hn s.rsNsym.isLt.le⟩⟩

/-- Settles O38: both run the division steps of the range and add its length to RS_COUNT. -/
theorem rsFeedcwIsThatManyFeeds : Obligations.RsFeedcwIsThatManyFeeds := by
  intro s start count hf hv hp hm hr hc
  refine ⟨_, exec_rsFeedcw_of_elements hf hv hp hr hc, ?_, ?_⟩
  · simp [complete, afterFeeds, fedRange_eq_map]
  · rw [← fedRange_eq_map]
    exact feedEach_eq_afterFeeds (s := complete s) hf hv rfl (fedRange_isElement hm hc)

/-- Settles O40: the generator is monic, so each step's feedback symbol is the next coefficient of the quotient. -/
theorem codewordIsAMultipleOfTheGenerator : Obligations.CodewordIsAMultipleOfTheGenerator := by
  intro poly nsym idx ds h h1 hn _ hds
  exact exists_quotient h h1 (by omega) (genPoly_monic _ (by omega) idx) hds

/-- Settles O41: RS_CLEAR leaves a clear remainder, the feeds divide it, and the window shows it. -/
theorem systematicCodewordIsDataThenEcc : Obligations.SystematicCodewordIsDataThenEcc := by
  intro s hf hv ecc
  refine ⟨fun ds hds => ⟨_, _, exec_rsClear_of_ready hf hv,
    feedEach_eq_afterFeeds (s := complete (effectRsClear s)) hf hv rfl hds, hf, BitVec.zero_add _,
    systematicCodeword_afterFeeds_clear hv ds, (regRead_eccWindow _).trans (eccWords_afterFeeds_clear hv ds)⟩,
    fun start count hp hm hr hc => ⟨_, _, exec_rsClear_of_ready hf hv,
      exec_rsFeedcw_of_elements (s := complete (effectRsClear s)) hf hv hp hr hc, hf, ?_⟩⟩
  rw [fedRange_clear, ← fedRange_map_setWidth hm hc, ← List.map_append]
  exact systematicCodeword_afterFeeds_clear hv (fedRange s start.toNat count.toNat)

/-- Settles O42: a codeword is a multiple of the generator, which has these roots; and every division step is linear. -/
theorem rootsAndLinearityOfTheCode : Obligations.RootsAndLinearityOfTheCode := by
  intro poly nsym idx h h1 hn _ f g
  have hlt : nsym < 256 := by omega
  have hg := genPoly_isElement h hlt idx
  refine ⟨fun ds hds i hi => ?_, fun ds ds' hl hds hds' => ?_⟩
  · obtain ⟨q, -, hq, hprod⟩ := exists_quotient h h1 hlt (genPoly_monic (fieldOf poly) hlt idx) hds
    have hvalue := polyEval_polyMul h (alog_isElement h ((idx + i) % logMod (degree poly))) hq
      (coefficients_isElement hg nsym) (coefficients_ne_nil _ _)
    rw [hprod, polyEval_generator_root h hlt hi, gfMul_zero_right] at hvalue
    exact hvalue
  · simp only [eccOf, eccList, List.zipWith_map_left, List.zipWith_map_right, List.zipWith_self]
    exact List.map_congr_left fun j _ => divSteps_zipWith_gfAdd h h1 hlt hg hl hds hds' _

/-- Settles O33: the check that stops RS_INIT, or its effect. -/
theorem rsInitBuildsTheGenerator : Obligations.RsInitBuildsTheGenerator := fun s nsym index hf =>
  ⟨fun hv => exec_of_check_some (.rsInit nsym index) hf (checkRsInit_of_noField nsym hv),
    fun hv h0 => exec_of_check_some (.rsInit nsym index) hf (checkRsInit_of_zero hv h0),
    fun hv h0 => ⟨Table.zero,
      exec_of_check_none (.rsInit nsym index) hf ((checkRsInit_eq_none_iff nsym s).mpr ⟨hv, h0⟩), Table.get_zero⟩⟩

/-- Settles O36: the check that stops RS_CLEAR, or its effect. -/
theorem rsClearRestartsTheBlock : Obligations.RsClearRestartsTheBlock := fun _ hf =>
  ⟨fun hv => exec_of_check_some .rsClear hf (checkRsClear_of_notReady hv),
    fun hv => ⟨Table.zero, exec_rsClear_of_ready hf hv, Table.get_zero⟩⟩

/-- Settles O39: each check in its place. -/
theorem rsFeedcwChecksEverythingFirst : Obligations.RsFeedcwChecksEverythingFirst := fun _ start count hf =>
  ⟨fun hv => exec_of_check_some (.rsFeedcw start count) hf (checkRsFeedcw_of_notReady start count hv),
    fun hv hp => exec_of_check_some (.rsFeedcw start count) hf (checkRsFeedcw_of_not_done start count hv hp),
    fun hv hp hr => exec_of_check_some (.rsFeedcw start count) hf (checkRsFeedcw_of_past_cap hv hp hr),
    fun hv hp hr hc => exec_of_check_some (.rsFeedcw start count) hf (checkRsFeedcw_of_outside hv hp hr hc)⟩

/-- Settles O49: a discarded command only completes, a faulting one writes the record, and each effect is an update of
the fields its rule names. -/
theorem rsCommandsFrame : Obligations.RsCommandsFrame := by
  refine ⟨fun nsym index s t h => ?_, fun d start count s t h => ?_⟩
  · rcases command_cases h with ⟨-, rfl⟩ | ⟨-, c, -, rfl⟩ | ⟨-, -, rfl⟩ <;> rfl
  · rcases h with h | h | h <;> rcases command_cases h with ⟨-, rfl⟩ | ⟨-, c, -, rfl⟩ | ⟨-, -, rfl⟩ <;> rfl

end Sys2Proof.Machine
end

section
/-! SUPPORT. A CTRL write by its bits 9 and 8 (43_control.md R211 to R214). -/
namespace Sys2Proof.Machine

theorem regWrite_ctrl (v : Word) (s : State) : regWrite 0x0008 v s = ctrlWrite v s := rfl

/-- Bit 9 overrides bits 0 and 8 (R213). -/
theorem ctrlWrite_of_softReset {v : Word} (s : State) (h9 : v.getLsbD 9 = true) : ctrlWrite v s = resetBlock s := by
  rw [ctrlWrite, if_pos h9]

/-- The clear of the fault record comes with the write of the enable (R212). -/
theorem ctrlWrite_of_clrFault {v : Word} (s : State) (h9 : v.getLsbD 9 = false) (h8 : v.getLsbD 8 = true) :
    ctrlWrite v s = clearFault { s with irqEn := v.getLsbD 0 } := by
  rw [ctrlWrite, h9, h8, if_neg Bool.false_ne_true, if_pos rfl]

theorem ctrlWrite_of_enableOnly {v : Word} (s : State) (h9 : v.getLsbD 9 = false) (h8 : v.getLsbD 8 = false) :
    ctrlWrite v s = { s with irqEn := v.getLsbD 0 } := by
  rw [ctrlWrite, h9, h8, if_neg Bool.false_ne_true, if_neg Bool.false_ne_true]

/-- IRQ_EN after a CTRL write: bit 0, unless the write resets the block (R213, R214). -/
theorem ctrlWrite_irqEn (v : Word) (s : State) : (ctrlWrite v s).irqEn = (!v.getLsbD 9 && v.getLsbD 0) := by
  rcases ctrlWrite_cases v s with ⟨h9, h⟩ | ⟨h9, -, h⟩ | ⟨h9, -, h⟩ <;> rw [h, h9] <;> rfl

end Sys2Proof.Machine
end

section
/-! PROOFS. The statements of 43_control.md. -/
namespace Sys2Proof.Machine

/-- Settles O20: the write by its bits 9 and 8, and CTRL read back from the enable it leaves. -/
theorem ctrlWriteActs : Obligations.CtrlWriteActs := by
  intro s v
  refine ⟨ctrlWrite_of_softReset s, ctrlWrite_of_clrFault s, ctrlWrite_of_enableOnly s, ?_⟩
  rw [regRead_ctrl, regWrite_ctrl, ctrlWrite_irqEn]
  simp only [Bool.and_eq_true, Bool.not_eq_true']

/-- Settles O25: with neither a check nor an effect, NOP completes and does nothing else, discarded or not. -/
theorem nopOnlyCompletes : Obligations.NopOnlyCompletes := exec_nop

end Sys2Proof.Machine
end

section
/-! SUPPORT. Which fault the word in flight reports, what of a step can write the fault record, and what ends in a next
state (60_exceptions.md R230 to R236). -/
namespace Sys2Proof.Machine

/-! ### The check of a word -/

/-- The check of a word: a command's own, and ILLEGAL_CMD for any other word (60_exceptions.md R234). -/
def checkOfWord (w : Word) : State → Option FaultCode :=
  match decode w with
  | .ok i => checkOf i
  | .error _ => fun _ => some .illegalCmd

/-- The effect of a word: a command's own. -/
def effectOfWord (w : Word) : State → State :=
  match decode w with
  | .ok i => effectOf i
  | .error _ => id

/-- Every word, command or not, completes as a command with its own check and effect, and FAULT_CMD is that word. -/
theorem completeWord_eq_command (w : Word) (s : State) :
    completeWord w s = command w (checkOfWord w) (effectOfWord w) s := by
  unfold completeWord checkOfWord effectOfWord
  cases hd : decode w with
  | error r => rfl
  | ok i => exact encode_of_decode hd ▸ exec_eq_command i s

theorem effectOfWord_fault (w : Word) (s : State) : (effectOfWord w s).fault = s.fault := by
  unfold effectOfWord
  cases decode w with
  | error r => rfl
  | ok i => exact (effectOf_keeps i s).1

/-- A chain of checks reports the fault whose number a chain of conditions gives. -/
def Reports (check : Option FaultCode) (code : Option Nat) : Prop :=
  check.map FaultCode.number = code.map (BitVec.ofNat 8)

theorem reports_none : Reports none none := rfl

/-- The next check of the chain. -/
theorem reports_ite {p q : Prop} [Decidable p] [Decidable q] {c : FaultCode} {n : Nat} {check : Option FaultCode}
    {code : Option Nat} (hn : c.number = BitVec.ofNat 8 n) (hpq : p ↔ q) (hrest : Reports check code) :
    Reports (if p then some c else check) (if q then some n else code) := by
  by_cases hq : q
  · rw [if_pos hq, if_pos (hpq.mpr hq)]
    exact congrArg some hn
  · rw [if_neg hq, if_neg (mt hpq.mp hq)]
    exact hrest

/-- The next check of the chain asks for a flag to be up. -/
theorem reports_unless {b : Bool} {c : FaultCode} {n : Nat} {check : Option FaultCode} {code : Option Nat}
    (hn : c.number = BitVec.ofNat 8 n) (hrest : Reports check code) :
    Reports (if !b then some c else check) (if b = false then some n else code) :=
  reports_ite hn (Bool.not_eq_true' b).to_iff hrest

/-! ### What records a fault -/

/-- No write at the port sets FAULT. -/
theorem regWrite_fault {off : BitVec 15} {v : Word} {s : State} (hf : s.fault = false) :
    (regWrite off v s).fault = false := by
  unfold regWrite
  rcases writeReg_cases (regAt off.toNat) v s with ⟨-, h⟩ | ⟨-, h⟩ | ⟨-, h⟩ | ⟨-, h⟩ | h <;> rw [h]
  · rcases ctrlWrite_cases v s with ⟨-, h⟩ | ⟨-, -, h⟩ | ⟨-, -, h⟩ <;> rw [h]
    · rfl
    · rfl
    · exact hf
  all_goals exact hf

@[simp] theorem countOvertaking_fault (s : State) : (countOvertaking s).fault = s.fault := by
  unfold countOvertaking; split <;> rfl

/-- No host event sets FAULT. -/
theorem serveEvent_fault {s : State} (e : HostEvent) (hf : s.fault = false) : (serveEvent e s).fault = false := by
  cases e with
  | access a =>
    have hcount : (countOvertaking s).fault = false := (countOvertaking_fault s).trans hf
    show (accessEffect a (countOvertaking s)).fault = false
    unfold accessEffect
    split
    · exact regWrite_fault hcount
    · exact hcount
  | assertReset => rfl
  | releaseReset => exact hf

/-- Only the completion of the word in flight records a fault, and that is fault entry (R231). -/
theorem step_records_fault {s t : State} (hf : s.fault = false) (h : step s = .next t) (ht : t.fault = true) :
    ∃ w, ∃ c : FaultCode, s.pending = some w ∧ t = faultEntry c.number w s := by
  have hne : t.fault ≠ false := by rw [ht]; decide
  rcases step_cases h with ⟨-, -, -, rfl⟩ | ⟨-, e, rest, -, rfl⟩ | ⟨-, w, hp, hw⟩ | ⟨-, ht'⟩
  · exact hne.elim hf
  · exact hne.elim (serveEvent_fault e hf)
  · rw [completeWord_eq_command] at hw
    rcases command_cases hw with ⟨hf', -⟩ | ⟨-, c, -, rfl⟩ | ⟨-, -, rfl⟩
    · exact absurd (hf'.symm.trans hf) (by decide)
    · exact ⟨w, c, hp, rfl⟩
    · exact hne.elim ((effectOfWord_fault w s).trans hf)
  · rcases ht' with ⟨-, rfl⟩ | ⟨e, rest, -, ⟨-, rfl⟩ | ⟨-, rfl⟩⟩ <;> exact hne.elim rfl

/-! ### What ends in a next state -/

/-- Outside reset every move ends in a next state. -/
theorem step_next_of_running {s : State} (hr : s.rstN = true) : ∃ t, step s = .next t := by
  rw [step, if_pos hr, runningStep]
  cases nextMove s with
  | idle => exact ⟨_, rfl⟩
  | complete w => exact ⟨_, completeWord_eq_command w s⟩
  | host e rest => exact ⟨_, rfl⟩

theorem step_of_reset {s : State} (hr : s.rstN = false) : step s = heldInReset s := by
  rw [step, hr, if_neg Bool.false_ne_true]

/-- An access presented while rst_n = 0 is refused (log entry 6). -/
theorem step_of_access_in_reset {s : State} {a : Access} {rest : List HostEvent} (hr : s.rstN = false)
    (hi : s.inbox = .access a :: rest) : step s = .refused .accessDuringReset := by
  rw [step_of_reset hr, heldInReset, hi]

/-- With rst_n = 0 anything but an access leaves the block in its reset state (70_reset_and_hazards.md R260). -/
theorem step_next_of_no_access {s : State} (hr : s.rstN = false) (hi : ¬∃ a rest, s.inbox = .access a :: rest) :
    ∃ t, step s = .next t := by
  rw [step_of_reset hr, heldInReset]
  split
  · exact ⟨_, rfl⟩
  · exact ⟨_, rfl⟩
  · exact ⟨_, rfl⟩
  · rename_i a rest h
    exact absurd ⟨a, rest, h⟩ hi

/-! ### Instances -/

/-- A step at place k of the platform gives that place a new block state, and no other. -/
theorem stepInstance_eq_modify {p p' : List Instance} {k : Nat} (h : stepInstance k p = .next p') :
    ∃ b : State, p' = p.modify k fun i => { i with block := b } := by
  induction p generalizing k p' with
  | nil =>
    cases k <;> (cases h; exact ⟨.reset, rfl⟩)
  | cons i rest ih =>
    cases k with
    | zero =>
      rw [stepInstance] at h
      split at h <;> cases h
      exact ⟨_, rfl⟩
    | succ k =>
      rw [stepInstance] at h
      split at h <;> cases h
      rename_i rest' hrest
      obtain ⟨b, rfl⟩ := ih hrest
      exact ⟨b, rfl⟩

/-- An access is a request at the port of the first block whose region holds its address, and at no other. -/
theorem postAt_eq_modify (write : Bool) (addr : Nat) (size : AccessSize) (wdata : Word) (p : List Instance) :
    postAt write addr size wdata p =
      p.modify (p.findIdx (selects · addr)) fun i =>
        { i with block := post (.access (localAccess i write addr size wdata)) i.block } := by
  induction p with
  | nil => rfl
  | cons i rest ih =>
    rw [postAt, List.findIdx_cons]
    cases selects i addr with
    | true => rfl
    | false => exact congrArg (i :: ·) ih

theorem selects_iff (i : Instance) (addr : Nat) : selects i addr = true ↔ i.base ≤ addr ∧ addr < i.base + 0x8000 := by
  simp [selects]

end Sys2Proof.Machine
end

section
/-! PROOFS. The statements of 60_exceptions.md. -/
namespace Sys2Proof.Machine

/-- Settles O21: check by check, the chain of the word's command is the chain of its row. -/
theorem firstFailingCheckIsReported : Obligations.FirstFailingCheckIsReported := by
  intro w s outside code
  have hcode : Reports (checkOfWord w s) code := by
    unfold checkOfWord code
    cases decode w with
    | error r => rfl
    | ok i =>
      cases i with
      | nop => exact reports_none
      | gfInit poly =>
        exact reports_ite rfl (by simp [legalPoly]) (reports_unless rfl reports_none)
      | gfMul a b | gfAdd a b =>
        exact reports_unless rfl (reports_ite rfl (by simp [outsideField, outside]) reports_none)
      | rsInit nsym index =>
        exact reports_unless rfl (reports_ite rfl BitVec.toNat_eq reports_none)
      | rsClear => exact reports_unless rfl reports_none
      | rsFeed d => exact reports_unless rfl (reports_ite rfl decide_eq_true_iff reports_none)
      | rsFeedcw start count =>
        refine reports_unless rfl (reports_ite rfl Iff.rfl (reports_ite rfl Iff.rfl
          (reports_ite rfl ?_ reports_none)))
        rw [cwRange_eq_map, List.any_map]
        exact Iff.rfl
      | pkInit cw cap =>
        exact reports_ite rfl (or_congr Nat.lt_one_iff (or_congr Iff.rfl BitVec.toNat_eq)) reports_none
      | pkAppend nm1 val => exact reports_ite rfl Iff.rfl (reports_ite rfl Iff.rfl reports_none)
      | pkFinish =>
        exact reports_ite rfl Iff.rfl
          (reports_ite rfl (or_congr Iff.rfl (or_congr BitVec.toNat_eq Iff.rfl)) reports_none)
  rw [completeWord_eq_command]
  refine ⟨command_discarded, fun hf n hn => ?_, fun hf hn => ?_⟩
  · rw [hn] at hcode
    obtain ⟨c, hc, hnumber⟩ := Option.map_eq_some_iff.mp hcode
    exact hnumber ▸ command_faults hf hc
  · rw [hn] at hcode
    exact ⟨_, command_passes hf (Option.map_eq_none_iff.mp hcode), (effectOfWord_fault w s).trans hf, rfl⟩

/-- Settles O22: of all a step can do, only the completion of a word records a fault. -/
theorem faultsArePrecise : Obligations.FaultsArePrecise := by
  intro s t hf h ht
  obtain ⟨w, c, hp, rfl⟩ := step_records_fault hf h ht
  obtain ⟨hlo, hhi⟩ := faultCode_number_bounds c
  exact ⟨w, c.number.toNat, hp, hlo, hhi, by rw [BitVec.ofNat_toNat, BitVec.setWidth_eq]⟩

/-- Settles O9: every command completes, and only the port in reset refuses. -/
theorem onlyAnAccessDuringResetStopsARun : Obligations.OnlyAnAccessDuringResetStopsARun := by
  refine ⟨fun i s => ⟨_, exec_next i s⟩, fun s => ⟨⟨?_, fun h => ?_⟩, fun a rest => step_of_access_in_reset⟩⟩
  · rintro ⟨t, ht⟩ ⟨hr, a, rest, hi⟩
    cases ht.symm.trans (step_of_access_in_reset hr hi)
  · cases hr : s.rstN with
    | true => exact step_next_of_running hr
    | false => exact step_next_of_no_access hr fun hi => h ⟨hr, hi⟩

/-- Settles O59: a step and an access each change one place of the platform, an access one whose region holds its
address. -/
theorem instancesAreIndependent : Obligations.InstancesAreIndependent := by
  refine ⟨fun p p' k h => ?_, fun p write addr size wdata => ?_⟩
  · obtain ⟨b, rfl⟩ := stepInstance_eq_modify h
    exact ⟨List.length_modify .., fun j hj => List.getElem?_modify_ne _ _ hj.symm⟩
  · rw [postAt_eq_modify]
    refine ⟨List.length_modify .., fun j i hi hout => ?_⟩
    rw [← hi]
    refine List.getElem?_modify_ne _ _ fun hfirst => hout ?_
    obtain ⟨hlt, rfl⟩ := List.getElem?_eq_some_iff.mp hi
    subst hfirst
    exact (selects_iff _ _).mp (List.findIdx_getElem (w := hlt))

/-- Settles O23, by the step that completes the word. -/
theorem commandsAreDiscardedWhileFault : Obligations.CommandsAreDiscardedWhileFault :=
  fun _ w hr hp hf hi => (step_of_pending hr hp hi).trans ((completeWord_eq_command w _).trans (command_discarded hf))

/-- Settles O24: the level by its definition, its rise at fault entry, and each kind of CTRL write. -/
theorem interruptFollowsEnableAndFault : Obligations.InterruptFollowsEnableAndFault := by
  refine ⟨fun s => Bool.and_eq_true_iff, fun s t h hf ht => ?_, fun s v hf h9 h8 => ?_, fun s v hv => ?_, rfl⟩
  · obtain ⟨w, c, -, rfl⟩ := step_records_fault hf h ht
    exact ⟨by rw [irq, hf, Bool.and_false], Bool.and_true _⟩
  · rw [regWrite_ctrl, ctrlWrite_of_enableOnly s h9 h8, irq, hf, Bool.and_true]
  · rw [regWrite_ctrl]
    rcases ctrlWrite_cases v s with ⟨-, h⟩ | ⟨-, -, h⟩ | ⟨h9, h8, -⟩
    · rw [h]; rfl
    · rw [h]; exact Bool.and_false _
    · exact absurd hv (by rw [h9, h8]; decide)

end Sys2Proof.Machine
end

section
/-! SUPPORT. The state as a host can see it: gated arrays read as zeros (10_state.md R41 to R45, 20_memory.md R66), and
everything else is as it is. Two states look the same exactly when their visible states are equal, so it is enough to
say of each operation that it answers the same on a state and on its visible state. -/
namespace Sys2Proof.Machine

/-- The state with every gated array cleared. -/
def visible (s : State) : State :=
  { s with
    log := if s.gfValid then s.log else Table.zero
    alog := if s.gfValid then s.alog else Table.zero
    g := if s.rsValid then s.g else Table.zero
    r := if s.rsValid then s.r else Table.zero
    bb := if s.pkState = .idle then 0 else s.bb }

variable {s : State}

theorem visible_log (h : s.gfValid = true) : (visible s).log = s.log := if_pos h

theorem visible_alog (h : s.gfValid = true) : (visible s).alog = s.alog := if_pos h

theorem visible_g (h : s.rsValid = true) : (visible s).g = s.g := if_pos h

theorem visible_r (h : s.rsValid = true) : (visible s).r = s.r := if_pos h

theorem visible_bb (h : s.pkState ≠ .idle) : (visible s).bb = s.bb := if_neg h

theorem currentField_visible (h : s.gfValid = true) : currentField (visible s) = currentField s :=
  congrArg₂ (GaloisField.mk s.gfM.toNat) (visible_log h) (visible_alog h)

/-- Two states look the same when they are equal but for what the gates hide. -/
theorem visible_eq_of_sameVisible {s t : State} (h : SameVisible s t) : visible s = visible t := by
  obtain ⟨hrest, hfield, hgenerator, hbuffer⟩ := h
  obtain ⟨log, alog, g, r, bb, rfl⟩ :
      ∃ log alog g r bb, s = { t with log := log, alog := alog, g := g, r := r, bb := bb } := ⟨_, _, _, _, _, hrest⟩
  have hlog : (if t.gfValid then log else Table.zero) = if t.gfValid then t.log else Table.zero :=
    ite_congr rfl (fun hv => (hfield hv).1) fun _ => rfl
  have halog : (if t.gfValid then alog else Table.zero) = if t.gfValid then t.alog else Table.zero :=
    ite_congr rfl (fun hv => (hfield hv).2) fun _ => rfl
  have hg : (if t.rsValid then g else Table.zero) = if t.rsValid then t.g else Table.zero :=
    ite_congr rfl (fun hv => (hgenerator hv).1) fun _ => rfl
  have hr : (if t.rsValid then r else Table.zero) = if t.rsValid then t.r else Table.zero :=
    ite_congr rfl (fun hv => (hgenerator hv).2) fun _ => rfl
  have hbb : (if t.pkState = .idle then 0 else bb) = if t.pkState = .idle then 0 else t.bb :=
    ite_congr rfl (fun _ => rfl) hbuffer
  simp only [visible, hlog, halog, hg, hr, hbb]

theorem visible_visible (s : State) : visible (visible s) = visible s :=
  visible_eq_of_sameVisible ⟨rfl, fun h => ⟨visible_log h, visible_alog h⟩, fun h => ⟨visible_g h, visible_r h⟩,
    fun h => visible_bb h⟩

theorem sameVisible_of_visible_eq {s t : State} (h : visible s = visible t) : SameVisible s t := by
  have hgf : s.gfValid = t.gfValid := (congrArg State.gfValid h :)
  have hrs : s.rsValid = t.rsValid := (congrArg State.rsValid h :)
  have hpk : s.pkState = t.pkState := (congrArg State.pkState h :)
  refine ⟨?_, fun hv => ⟨?_, ?_⟩, fun hv => ⟨?_, ?_⟩, fun ho => ?_⟩
  · exact congrArg (fun u => { u with log := s.log, alog := s.alog, g := s.g, r := s.r, bb := s.bb }) h
  · rw [← visible_log hv, h, visible_log (hgf ▸ hv)]
  · rw [← visible_alog hv, h, visible_alog (hgf ▸ hv)]
  · rw [← visible_g hv, h, visible_g (hrs ▸ hv)]
  · rw [← visible_r hv, h, visible_r (hrs ▸ hv)]
  · rw [← visible_bb ho, h, visible_bb (hpk ▸ ho)]

/-! ### What a read returns -/

/-- A window gives 0 while its array is gated (20_memory.md R66). -/
theorem tableWin_gate (valid : Bool) (t : Table) (k : Nat) :
    tableWin valid (if valid then t else Table.zero) k = tableWin valid t k := by
  cases valid <;> rfl

theorem eccWin_visible (s : State) (j : Nat) : eccWin (visible s) j = eccWin s j := by
  unfold eccWin
  by_cases hv : s.rsValid = true
  · rw [visible_r hv]; rfl
  · exact (if_neg fun h => hv h.1).trans (if_neg fun h => hv h.1).symm

theorem cwWin_visible (s : State) (i : Nat) : cwWin (visible s) i = cwWin s i := by
  unfold cwWin
  by_cases ho : s.pkState = .idle
  · exact (if_neg fun h => h.1 ho).trans (if_neg fun h => h.1 ho).symm
  · rw [visible_bb ho]; rfl

theorem readReg_visible (s : State) (r : Reg) : readReg (visible s) r = readReg s r := by
  cases r with
  | logWin k => exact tableWin_gate s.gfValid s.log k
  | alogWin k => exact tableWin_gate s.gfValid s.alog k
  | gWin k => exact tableWin_gate s.rsValid s.g k
  | rWin k => exact tableWin_gate s.rsValid s.r k
  | eccWin j => exact eccWin_visible s j
  | cwWin i => exact cwWin_visible s i
  | _ => rfl

theorem response_visible (a : Access) (s : State) : response a (visible s) = response a s := by
  unfold response regRead
  rw [readReg_visible]

theorem fedRange_visible (s : State) (start count : Nat) :
    fedRange (visible s) start count = fedRange s start count := by
  simp only [fedRange_eq_map, cwWin_visible]

/-! ### Operations that do not use what no access can see -/

/-- What f leaves visible of a state is what it leaves of the visible state. -/
def Blind (f : State → State) (s : State) : Prop := visible (f (visible s)) = visible (f s)

theorem blind_of_commutes {f : State → State} (h : f (visible s) = visible (f s)) : Blind f s := by
  rw [Blind, h, visible_visible]

/-- All checks read flags, lengths and codewords, never a gated array. -/
theorem checkOf_visible (i : Instr) (s : State) : checkOf i (visible s) = checkOf i s := by
  cases i with
  | rsFeedcw start count =>
    have hrange : cwRange (visible s) start.toNat count.toNat = cwRange s start.toNat count.toNat := by
      simp only [cwRange_eq_map, cwWin_visible]
    show checkRsFeedcw start count (visible s) = checkRsFeedcw start count s
    unfold checkRsFeedcw
    rw [hrange]
    rfl
  | _ => rfl

/-- With a generator the remainder register is in sight, so an update of it is. -/
theorem visible_setRemainder (hv : s.rsValid = true) (r : Table) (n : BitVec 32) :
    visible { s with r := r, rsCount := n } = { visible s with r := r, rsCount := n } :=
  congrArg (fun t => { visible s with r := t, rsCount := n }) (if_pos hv)

/-- With the packer not IDLE the buffer is in sight, so an update of it is. -/
theorem visible_setBuffer (ho : s.pkState ≠ .idle) (bb : BitBuffer) (n : BitVec 16) :
    visible { s with bb := bb, pkLen := n } = { visible s with bb := bb, pkLen := n } :=
  congrArg (fun b => { visible s with bb := b, pkLen := n }) (if_neg ho)

/-- A command whose checks pass finds every array it reads valid (70_reset_and_hazards.md R261). -/
theorem effectOf_blind {i : Instr} (hgate : s.rsValid = true → s.gfValid = true) (hc : checkOf i s = none) :
    Blind (effectOf i) s := by
  cases i with
  | nop => exact visible_visible s
  | gfInit poly =>
    exact congrArg (fun u => { effectGfInit poly u with g := Table.zero, r := Table.zero }) (visible_visible s)
  | gfMul a b =>
    obtain ⟨hv, -⟩ := (checkGfOperands_eq_none_iff a b s).mp hc
    refine blind_of_commutes ?_
    simp only [effectOf, effectGfMul, currentField_visible hv]
    rfl
  | gfAdd a b => exact blind_of_commutes rfl
  | rsInit nsym index =>
    obtain ⟨hv, -⟩ := (checkRsInit_eq_none_iff nsym s).mp hc
    refine blind_of_commutes ?_
    simp only [effectOf, effectRsInit, currentField_visible hv]
    rfl
  | rsClear =>
    have hv := (checkRsClear_eq_none_iff s).mp hc
    exact blind_of_commutes (visible_setRemainder hv ..).symm
  | rsFeed d =>
    obtain ⟨hv, -⟩ := (checkRsFeed_eq_none_iff d s).mp hc
    refine blind_of_commutes (Eq.trans ?_ (visible_setRemainder hv ..).symm)
    simp only [effectOf, effectRsFeed, currentField_visible (hgate hv), visible_g hv, visible_r hv]
    rfl
  | rsFeedcw start count =>
    obtain ⟨hv, -⟩ := (checkRsFeedcw_eq_none_iff start count s).mp hc
    refine blind_of_commutes (Eq.trans ?_ (visible_setRemainder hv ..).symm)
    simp only [effectOf, effectRsFeedcw, currentField_visible (hgate hv), visible_g hv, visible_r hv, fedRange_visible]
    rfl
  | pkInit w cap => exact blind_of_commutes rfl
  | pkAppend nm1 val =>
    obtain ⟨ho, -⟩ := (checkPkAppend_eq_none_iff nm1 s).mp hc
    have hne : s.pkState ≠ .idle := by rw [ho]; decide
    refine blind_of_commutes (Eq.trans ?_ (visible_setBuffer hne ..).symm)
    simp only [effectOf, effectPkAppend, visible_bb hne]
    rfl
  | pkFinish =>
    have hne : s.pkState ≠ .idle := by rw [pkState_of_checkPkFinish hc]; decide
    refine blind_of_commutes ?_
    simp only [effectOf, effectPkFinish, visible_bb hne]
    rfl

/-- No register write reads an array (20_memory.md R65). -/
theorem writeReg_blind (r : Reg) (v : Word) (s : State) : Blind (writeReg r v) s := by
  cases r with
  | ctrl =>
    refine blind_of_commutes ?_
    show ctrlWrite v (visible s) = visible (ctrlWrite v s)
    unfold ctrlWrite
    split
    · rfl
    · split <;> rfl
  | _ => exact blind_of_commutes rfl

theorem serve_blind (a : Access) (s : State) : Blind (serve a) s := by
  have heffect : Blind (accessEffect a) s := by
    unfold Blind accessEffect
    split
    · exact writeReg_blind _ _ s
    · exact visible_visible s
  show visible { accessEffect a (visible s) with responses := s.responses ++ [response a (visible s)] } = _
  rw [response_visible]
  exact congrArg (fun u => { u with responses := s.responses ++ [response a s] }) heffect

theorem countOvertaking_visible (s : State) : countOvertaking (visible s) = visible (countOvertaking s) := by
  cases hp : s.pending with
  | none => rw [countOvertaking_of_idle hp, countOvertaking_of_idle (s := visible s) hp]
  | some w => rw [countOvertaking_of_pending hp, countOvertaking_of_pending (s := visible s) hp]; rfl

theorem serveEvent_blind (e : HostEvent) (s : State) : Blind (serveEvent e) s := by
  cases e with
  | access a =>
    show visible (serve a (countOvertaking (visible s))) = visible (serve a (countOvertaking s))
    rw [countOvertaking_visible]
    exact serve_blind a (countOvertaking s)
  | assertReset => exact blind_of_commutes rfl
  | releaseReset => exact visible_visible s

/-! ### A step -/

/-- An outcome as a host can see it. -/
def visibleOutcome : Host.Outcome State Fault Refusal → Host.Outcome State Fault Refusal
  | .next s => .next (visible s)
  | .fault f => .fault f
  | .refused r => .refused r

theorem next_of_visibleOutcome_eq {o : Host.Outcome State Fault Refusal} {u : State}
    (h : visibleOutcome o = .next u) : ∃ t, o = .next t ∧ visible t = u := by
  cases o with
  | next t => exact ⟨t, rfl, Host.Outcome.next.inj h⟩
  | fault f => cases h
  | refused r => cases h

theorem refused_of_visibleOutcome_eq {o : Host.Outcome State Fault Refusal} {r : Refusal}
    (h : visibleOutcome o = .refused r) : o = .refused r := by
  cases o with
  | next t => cases h
  | fault f => cases h
  | refused r' => exact h

theorem command_visible {w : Word} {check : State → Option FaultCode} {effect : State → State}
    (hcheck : check (visible s) = check s) (heffect : check s = none → Blind effect s) :
    visibleOutcome (command w check effect (visible s)) = visibleOutcome (command w check effect s) := by
  have hcomplete {u u' : State} (h : visible u = visible u') : visible (complete u) = visible (complete u') :=
    congrArg complete h
  cases hf : s.fault with
  | true =>
    rw [command_discarded (s := visible s) hf, command_discarded hf]
    exact congrArg Host.Outcome.next (hcomplete (visible_visible s))
  | false =>
    cases hc : check s with
    | some c =>
      have hrecord : Blind (raiseFault c w) s := blind_of_commutes rfl
      rw [command_faults (s := visible s) hf (hcheck.trans hc), command_faults hf hc]
      exact congrArg Host.Outcome.next (hcomplete hrecord)
    | none =>
      rw [command_passes (s := visible s) hf (hcheck.trans hc), command_passes hf hc]
      exact congrArg Host.Outcome.next (hcomplete (heffect hc))

theorem completeWord_visible (hgate : s.rsValid = true → s.gfValid = true) (w : Word) :
    visibleOutcome (completeWord w (visible s)) = visibleOutcome (completeWord w s) := by
  unfold completeWord
  cases decode w with
  | error r => exact command_visible rfl fun h => absurd h (Option.some_ne_none _)
  | ok i =>
    show visibleOutcome (exec i (visible s)) = visibleOutcome (exec i s)
    rw [exec_eq_command, exec_eq_command]
    exact command_visible (checkOf_visible i s) (effectOf_blind hgate)

/-- A step of the visible state is, as far as a host can see, the step of the state. -/
theorem step_visible (hgate : s.rsValid = true → s.gfValid = true) :
    visibleOutcome (step (visible s)) = visibleOutcome (step s) := by
  have hmove : nextMove (visible s) = nextMove s := rfl
  cases hr : s.rstN with
  | false =>
    rw [step_of_reset hr, step_of_reset (s := visible s) hr]
    rfl
  | true =>
    rw [step, step, if_pos hr, if_pos (show (visible s).rstN = true from hr), runningStep, runningStep, hmove]
    cases nextMove s with
    | idle => exact congrArg Host.Outcome.next (visible_visible s)
    | complete w => exact completeWord_visible hgate w
    | host e rest => exact congrArg Host.Outcome.next (serveEvent_blind e { s with inbox := rest })

end Sys2Proof.Machine
end

section
/-! SUPPORT. A command in flight: what its completion leaves, what a step does meanwhile, and that it ends
(70_reset_and_hazards.md R262 to R267). -/
namespace Sys2Proof.Machine

/-! ### Completion -/

/-- The completion of a word answers a next state with nothing in flight, and leaves the host's side as it was. -/
theorem completeWord_host (w : Word) (s : State) :
    ∃ t, completeWord w s = .next t ∧ t.pending = none ∧ t.rstN = s.rstN ∧ t.inbox = s.inbox ∧
      t.responses = s.responses := by
  have hnext := completeWord_eq_command w s
  refine ⟨_, hnext, rfl, ?_⟩
  rcases completeWord_cases hnext with ⟨-, ht⟩ | ⟨-, -, ht⟩ | ⟨-, i, -, ⟨c, -, ht⟩ | ⟨-, ht⟩⟩ <;> rw [ht]
  · exact ⟨rfl, rfl, rfl⟩
  · exact ⟨rfl, rfl, rfl⟩
  · exact ⟨rfl, rfl, rfl⟩
  · obtain ⟨-, -, -, -, hrst, hinbox, hresponses, -⟩ := effectOf_keeps i s
    exact ⟨hrst, hinbox, hresponses⟩

theorem completeWord_of_decode {w : Word} {i : Instr} (h : decode w = .ok i) (s : State) :
    completeWord w s = exec i s := by
  rw [completeWord, h]

theorem decode_of_decodeTableWord {nbits w : Nat} {i : Instr} (h : decodeTableWord nbits w = some i) :
    decode (BitVec.ofNat 32 w) = .ok i := by
  unfold decodeTableWord at h
  split at h
  · cases hd : decode (BitVec.ofNat 32 w) with
    | error r => rw [hd] at h; cases h
    | ok j => rw [hd] at h; cases h; rfl
  · cases h

/-! ### A step with a command in flight -/

/-- While a command is in flight, ready is 1 exactly for the reads that may overtake it (R266). -/
theorem ready_of_pending {s : State} {w : Word} (a : Access) (hr : s.rstN = true) (hp : s.pending = some w) :
    ready s a = overtakes a := by
  simp [ready, busy, hr, hp]

theorem ready_of_idle {s : State} (a : Access) (hr : s.rstN = true) (hp : s.pending = none) : ready s a = true := by
  simp [ready, busy, hr, hp]

/-- The reset input overrides what else could move (60_exceptions.md R236, R262). -/
theorem step_of_assertReset {s : State} {rest : List HostEvent} (hr : s.rstN = true)
    (hi : s.inbox = .assertReset :: rest) : step s = .next { resetBlock s with inbox := rest, rstN := false } := by
  have hmove : nextMove s = .host .assertReset rest := by
    cases hp : s.pending <;> simp only [nextMove, hp, hi]
  rw [step, if_pos hr, runningStep, hmove]
  rfl

/-- A response does not depend on what else the host has asked for. -/
theorem response_inbox (a : Access) (s : State) (rest : List HostEvent) :
    response a { s with inbox := rest } = response a s := by
  unfold response
  rw [regRead_hostSide s a.addr rest s.responses s.overtaken]

/-- STATUS while a command is in flight (10_state.md R27, R48). -/
theorem statusWord_of_pending {s : State} {w : Word} (hp : s.pending = some w) :
    statusWord s = 0#16 ++ s.faultCode ++ 0#2 ++ s.pkState.number ++ flag s.rsValid ++ flag s.gfValid ++
      flag s.fault ++ 1#1 := by
  rw [statusWord, busy, hp]
  rfl

/-- The service of a read that overtakes leaves all but the host's side and the count as it was (R265). -/
theorem serve_overtaking {a : Access} (s : State) (ha : overtakes a = true) :
    serve a s = { s with responses := s.responses ++ [response a s] } := by
  obtain ⟨-, hw, -⟩ := (overtakes_iff a).mp ha
  rw [serve, accessEffect_of_not_write (by rw [hw, Bool.and_false])]

/-- The command with word w is in flight, and the reset input is released. -/
def InFlight (w : Word) (s : State) : Prop := s.rstN = true ∧ s.pending = some w

/-- How many reads the command in flight still lets overtake it. -/
def readsLeft (s : State) : Nat := Config.latency s.seed s.draws - s.overtaken

/-- All that the host has asked for are accesses. -/
def AsksOnlyAccesses (s : State) : Prop := ∀ e ∈ s.inbox, ∃ a, e = .access a

/-- With a command in flight a step ends it, or takes an event from the inbox that lets it stay: the release of a reset
input that is not asserted, or a read that the command's latency still lets overtake it (R265, R267). -/
theorem step_of_inFlight {s : State} {w : Word} (h : InFlight w s) :
    ∃ t, step s = .next t ∧ (t.pending = none ∨
      (InFlight w t ∧ ∃ e, s.inbox = e :: t.inbox ∧ (e = .releaseReset ∨ readsLeft t < readsLeft s))) := by
  obtain ⟨hr, hp⟩ := h
  rw [step, if_pos hr, runningStep]
  rcases nextMove_cases s with ⟨hnone, -, -⟩ | ⟨e, rest, hi, hmove, hwhy⟩ | ⟨v, -, hmove, -⟩
  · exact absurd (hp.symm.trans hnone) (Option.some_ne_none w)
  · rw [hmove]
    refine ⟨_, rfl, ?_⟩
    rcases hwhy with hnone | rfl | rfl | ⟨a, rfl, ha, hlat⟩
    · exact absurd (hp.symm.trans hnone) (Option.some_ne_none w)
    · exact .inl rfl
    · exact .inr ⟨⟨hr, hp⟩, _, hi, .inl rfl⟩
    · rw [serveEvent, countOvertaking_of_pending (s := { s with inbox := rest }) hp, serve_overtaking _ ha]
      exact .inr ⟨⟨hr, hp⟩, _, hi, .inr (by simp only [readsLeft]; omega)⟩
  · rw [hmove]
    obtain ⟨t, ht, hnone, -⟩ := completeWord_host v s
    exact ⟨t, ht, .inl hnone⟩

/-! ### Every command ends -/

theorem core_run_of_step {s t : State} (h : step s = .next t) (n : Nat) : core.run (n + 1) s = core.run n t := by
  simp only [Host.Core.run, show core.step s = .next t from h]

/-- If each step from a state of P ends the command in flight or leads to P with a smaller measure, then the command
ends within the measure and one step more. -/
theorem exists_run_to_idle {P : State → Prop} {μ : State → Nat}
    (hstep : ∀ s, P s → ∃ t, step s = .next t ∧ (t.pending = none ∨ P t ∧ μ t < μ s)) {s : State} (hs : P s) :
    ∃ n t, n ≤ μ s + 1 ∧ core.run n s = .next t ∧ t.pending = none := by
  induction hk : μ s using Nat.strong_induction_on generalizing s with
  | _ k ih =>
    subst hk
    obtain ⟨t, ht, hnone | ⟨hPt, hlt⟩⟩ := hstep s hs
    · exact ⟨1, t, by omega, core_run_of_step ht 0, hnone⟩
    · obtain ⟨n, u, hn, hrun, hnone⟩ := ih _ hlt hPt rfl
      exact ⟨n + 1, u, by omega, (core_run_of_step ht n).trans hrun, hnone⟩

/-- Each event of the inbox lets a command stay for at most one step. -/
theorem exists_run_within_inbox {s : State} {w : Word} (h : InFlight w s) :
    ∃ n t, n ≤ s.inbox.length + 1 ∧ core.run n s = .next t ∧ t.pending = none := by
  refine exists_run_to_idle (μ := fun u => u.inbox.length) (fun u hu => ?_) h
  obtain ⟨t, ht, hnone | ⟨hflight, e, hi, -⟩⟩ := step_of_inFlight hu
  · exact ⟨t, ht, .inl hnone⟩
  · exact ⟨t, ht, .inr ⟨hflight, by rw [hi]; exact Nat.lt_succ_self _⟩⟩

/-- Among accesses alone, only the reads the latency still allows let a command stay. -/
theorem exists_run_within_latency {s : State} {w : Word} (h : InFlight w s) (ha : AsksOnlyAccesses s) :
    ∃ n t, n ≤ readsLeft s + 1 ∧ core.run n s = .next t ∧ t.pending = none := by
  refine exists_run_to_idle (P := fun u => InFlight w u ∧ AsksOnlyAccesses u) (fun u ⟨hu, hua⟩ => ?_) ⟨h, ha⟩
  obtain ⟨t, ht, hnone | ⟨hflight, e, hi, hwhy⟩⟩ := step_of_inFlight hu
  · exact ⟨t, ht, .inl hnone⟩
  · rw [AsksOnlyAccesses, hi, List.forall_mem_cons] at hua
    obtain ⟨⟨a, rfl⟩, hrest⟩ := hua
    obtain hrelease | hlt := hwhy
    · cases hrelease
    · exact ⟨t, ht, .inr ⟨⟨hflight, hrest⟩, hlt⟩⟩

end Sys2Proof.Machine
end

section
/-! SUPPORT. What reset leaves for a host to read (70_reset_and_hazards.md R261, 10_state.md R23). -/
namespace Sys2Proof.Machine

/-- In the reset state ID, PARAM and PK_FILL read their constants, and everything else reads 0. -/
theorem readReg_reset (r : Reg) :
    readReg State.reset r =
      if r = .id then 0x52530001 else if r = .param then 0x0FFFFF88 else if r = .pkFill then 0x00010000 else 0 := by
  cases r <;> rfl

/-- ID, PARAM and PK_FILL stand at one offset each. -/
theorem regAt_constant_iff (off : Nat) :
    (regAt off = .id ↔ off = 0x0000) ∧ (regAt off = .param ↔ off = 0x0004) ∧ (regAt off = .pkFill ↔ off = 0x0040) := by
  have hfirst : (regAt off = .id → off = 0x0000) ∧ (regAt off = .param → off = 0x0004) := by
    unfold regAt
    split_ifs
    case pos => split <;> simp
    all_goals simp
  obtain ⟨-, -, -, hfill⟩ := offset_of_acting_reg off
  exact ⟨⟨hfirst.1, fun h => h ▸ rfl⟩, ⟨hfirst.2, fun h => h ▸ rfl⟩, ⟨hfill, fun h => h ▸ rfl⟩⟩

end Sys2Proof.Machine
end

section
/-! SUPPORT. The three commands that begin a job: when each passes its checks, and what a job that is not faulted has in
common with every other (70_reset_and_hazards.md R271). -/
namespace Sys2Proof.Machine

variable {s : State}

theorem exec_gfInit_of_accepted {poly : BitVec 16} (hf : s.fault = false) (h : AcceptedPoly poly) :
    exec (.gfInit poly) s = .next (complete (effectGfInit poly s)) :=
  exec_of_check_none _ hf ((checkGfInit_eq_none_iff poly s).mpr h)

theorem exec_rsInit_of_field {nsym : BitVec 8} (index : BitVec 8) (hf : s.fault = false) (hv : s.gfValid = true)
    (hn : nsym ≠ 0) : exec (.rsInit nsym index) s = .next (complete (effectRsInit nsym index s)) :=
  exec_of_check_none _ hf ((checkRsInit_eq_none_iff nsym s).mpr ⟨hv, hn⟩)

theorem exec_pkInit_of_legal {w : BitVec 4} {cap : BitVec 12} (hf : s.fault = false) (h1 : 1 ≤ w.toNat)
    (h8 : w.toNat ≤ 8) (hc : cap ≠ 0) : exec (.pkInit w cap) s = .next (complete (effectPkInit w cap s)) :=
  exec_of_check_none _ hf ((checkPkInit_eq_none_iff w cap s).mpr ⟨h1, h8, hc⟩)

/-- States with the invariant and no fault have one fault record, the clear one (10_state.md R49 (f)). -/
theorem eq_with_faultRecord {t : State} (hs : Inv s) (ht : Inv t) (hf : s.fault = false) (hf' : t.fault = false) :
    s = { s with fault := t.fault, faultCode := t.faultCode, faultCmd := t.faultCmd } := by
  obtain ⟨hcode, hcmd⟩ := hs.clear hf
  obtain ⟨hcode', hcmd'⟩ := ht.clear hf'
  rw [hf', hcode', hcmd', ← hf, ← hcode, ← hcmd]

end Sys2Proof.Machine
end

section
/-! PROOFS. The statements of 70_reset_and_hazards.md. -/
namespace Sys2Proof.Machine

/-- Settles O57: two states that look the same have one visible state, which every read and every step agrees with. -/
theorem unspecifiedContentsAreUnobservable : Obligations.UnspecifiedContentsAreUnobservable := by
  intro s s' hgate hsame
  have hvis := visible_eq_of_sameVisible hsame
  have hgate' : s'.rsValid = true → s'.gfValid = true := by
    have hgf : s.gfValid = s'.gfValid := (congrArg State.gfValid hvis :)
    have hrs : s.rsValid = s'.rsValid := (congrArg State.rsValid hvis :)
    rwa [← hgf, ← hrs]
  have hstep : visibleOutcome (step s) = visibleOutcome (step s') := by
    rw [← step_visible hgate, hvis, step_visible hgate']
  refine ⟨fun off => ?_, fun t ht => ?_, fun r hr => ?_⟩
  · exact (readReg_visible s _).symm.trans ((congrArg (readReg · _) hvis).trans (readReg_visible s' _))
  · rw [ht] at hstep
    obtain ⟨t', ht', heq⟩ := next_of_visibleOutcome_eq hstep.symm
    exact ⟨t', ht', sameVisible_of_visible_eq heq.symm⟩
  · rw [hr] at hstep
    exact refused_of_visibleOutcome_eq hstep.symm

/-- Settles O10: the access waits, the command completes, and the next step serves the access. -/
theorem otherAccessesWaitForTheCommand : Obligations.OtherAccessesWaitForTheCommand := by
  intro s w a rest hr hp hi hother
  have hwaits : overtakes a = false := by rwa [← Bool.not_eq_true, overtakes_iff]
  obtain ⟨t, ht, hnone, hrt, hit, hresp⟩ := completeWord_host w s
  have hrt' : t.rstN = true := hrt.trans hr
  refine ⟨(ready_of_pending a hr hp).trans hwaits, t,
    (step_of_pending hr hp (.inr ⟨a, rest, hi, hwaits⟩)).trans ht, hnone, hit, hresp, ready_of_idle a hrt' hnone, _,
    step_of_idle_access hrt' hnone (hit.trans hi), serve_inbox _ _, ?_⟩
  rw [serve_responses, response_inbox]

/-- Settles O11: a STATUS read has no effect but its response, which shows the command in flight. -/
theorem statusReadMayOvertakeTheCommand : Obligations.StatusReadMayOvertakeTheCommand := by
  intro s w wd rest hr hp hi pk
  refine (step_of_busy_access hr hp hi).imp (fun h => ?_) id
  have hlegal : legal ⟨false, 0x000C, .word, wd⟩ = true :=
    (legal_iff _).mpr ⟨rfl, show (0x000C : BitVec 15).toNat % 4 = 0 by decide⟩
  rw [h, serve_read _ hlegal rfl, regRead_hostSide s _ rest s.responses (s.overtaken + 1)]
  rw [show regRead s 0x000C = statusWord s from rfl, statusWord_of_pending hp]
  rfl

/-- Settles O12, with the events in the inbox and then the reads the latency allows as the measure that falls. -/
theorem everyCommandCompletes : Obligations.EveryCommandCompletes := fun _ _ hr hp =>
  ⟨exists_run_within_inbox ⟨hr, hp⟩, exists_run_within_latency ⟨hr, hp⟩⟩

/-- Settles O58: the three effects write all that two blocks without a fault could differ in, but for what the statement
excepts. -/
theorem aJobForgetsEarlierSequences : Obligations.AJobForgetsEarlierSequences := by
  intro s s' poly nsym index w cap hinv hinv' hf hf' hpoly hnsym hw1 hw8 hcap
  have hs := eq_with_faultRecord hinv hinv' hf hf'
  refine ⟨_, _, _, _, _, _, exec_gfInit_of_accepted hf hpoly, exec_rsInit_of_field index hf rfl hnsym,
    exec_pkInit_of_legal hf hw1 hw8 hcap, exec_gfInit_of_accepted hf' hpoly, exec_rsInit_of_field index hf' rfl hnsym,
    exec_pkInit_of_legal hf' hw1 hw8 hcap, hf, rfl, rfl, rfl, ?_, fun term fill => ?_⟩
  · rw [hs]; rfl
  · rw [regWrite_pkTerm, regWrite_pkFill, regWrite_pkTerm, regWrite_pkFill, hs]; rfl

/-- Settles O8: a word in flight that decodes completes as exec of its command. -/
theorem stepRunsTheDecodedCommand : Obligations.StepRunsTheDecodedCommand := by
  have hfirst (s : State) (w : Word) (i : Instr) (hr : s.rstN = true) (hp : s.pending = some w)
      (hd : decode w = .ok i) (hi : s.inbox = [] ∨ ∃ a rest, s.inbox = .access a :: rest ∧ overtakes a = false) :
      step s = exec i s :=
    (step_of_pending hr hp hi).trans (completeWord_of_decode hd s)
  exact ⟨hfirst, fun s nbits w i h => hfirst _ _ i rfl rfl (decode_of_decodeTableWord h) (.inl rfl)⟩

/-- Settles O52: field by field, and by the only three offsets that do not read 0. -/
theorem resetValues : Obligations.ResetValues := by
  refine ⟨by decide, fun off _ => ?_⟩
  obtain ⟨hid, hparam, hfill⟩ := regAt_constant_iff off.toNat
  rw [regRead, readReg_reset]
  simp only [hid, hparam, hfill, BitVec.toNat_eq]
  rfl

/-- Settles O53: the assertion wins over every other move, and the block then stays in its reset state. -/
theorem resetInputAbandonsTheCommand : Obligations.ResetInputAbandonsTheCommand := by
  refine ⟨fun s rest hr hi => step_of_assertReset hr hi, fun s rest hr hi => ?_, fun s hr hi => ⟨_, ?_, rfl⟩⟩
  · rw [step_of_reset hr, heldInReset, hi]; rfl
  · rw [step_of_reset hr, heldInReset, hi]

end Sys2Proof.Machine
end
